-- ==== Sys2Proof/Word.lean ====
section
/-! DEFINITION. The word types of the block (00_scope.md R9, 30_encoding.md R57). -/

namespace Sys2Proof

/-- `u8`: every memory, backup and wire datum, `CRC` and `ST` (R9). -/
abbrev Byte := BitVec 8

/-- `u32`: `LEN` and `ADDR` (R9). -/
abbrev U32 := BitVec 32

/-- A word of the event port `ev` (R56, R57). -/
abbrev EvWord := BitVec 10

end Sys2Proof
end

