-- ==== Sys2Proof/Machine/CrcUnit.lean ====
section
/-! DEFINITION. The CRC-8 unit's functions (40_crc.md R68, R69). -/

namespace Sys2Proof.Machine

/-- One of the eight iterations of R68: the high bit selects between the shifted value and the shifted
value with the polynomial 0x07 added. -/
def crcShift (x : Byte) : Byte :=
  if x.getLsbD 7 then (x <<< 1) ^^^ 0x07#8 else x <<< 1

/-- `n` iterations of R68. -/
def crcShifts : Nat → Byte → Byte
  | 0, x => x
  | n + 1, x => crcShifts n (crcShift x)

/-- `CrcStep(c, b)` (R68). -/
def crcStep (c b : Byte) : Byte := crcShifts 8 (c ^^^ b)

/-- `CRC8(buf, s)` (R69). -/
def crc8 (buf : List Byte) (s : Byte) : Byte := buf.foldl crcStep s

end Sys2Proof.Machine
end

