-- ==== Sys2Proof/Machine/Operands.lean ====
section
/-! DEFINITION. Operand assembly: phases, byte lanes and the effective address. -/

namespace Sys2Proof.Machine

/-- The phases of R22. -/
inductive Phase where
  | length
  | address
  | data
  | checksum
  | drain
  deriving DecidableEq, Repr

/-- The phase of the block, a function of `BC` and `LEN` (10_state.md R22). -/
def phase (bc : Nat) (len : U32) : Phase :=
  if bc < 4 then .length
  else if bc < 8 then .address
  else if bc < 8 + len.toNat then .data
  else if bc = 8 + len.toNat then .checksum
  else .drain

/-- Byte lane `k` of a 32-bit register: bits `[8k+7 : 8k]` (20_memory.md R44). -/
def lane (v : U32) (k : Nat) : Byte := v.extractLsb' (8 * k) 8

/-- `v` with byte lane `k` replaced by `b` (41_write_byte.md R75, R76). -/
def setLane (v : U32) (k : Nat) (b : Byte) : U32 :=
  (v &&& ~~~(0xFF#32 <<< (8 * k))) ||| (b.setWidth 32 <<< (8 * k))

/-- `LE32(v)` (00_scope.md R12). -/
def le32 (v : U32) : List Byte := [lane v 0, lane v 1, lane v 2, lane v 3]

/-- The offset of a data byte from `ADDR`; `BC` is at least 8 there (20_memory.md R40). -/
def dataOffset (bc : Nat) : Nat := bc - 8

/-- `EA = ADDR + off`, exact, with no wrap at 2^32 (R40, R10). -/
def effectiveAddress (addr : U32) (bc : Nat) : Nat := addr.toNat + dataOffset bc

/-- `ADDR + LEN`, exact (41_write_byte.md R76, R10). -/
def transferEnd (addr len : U32) : Nat := addr.toNat + len.toNat

end Sys2Proof.Machine
end

