-- ==== Sys2Proof/Machine/Frame.lean ====
section
/-! DEFINITION. The byte frames of the wire formats (30_encoding.md R62, R63, R67; 44_controller_peer.md R94). -/

namespace Sys2Proof.Machine

/-- The 8 header bytes `LE32(length) ++ LE32(address)` (00_scope.md R17). -/
def headerBytes (n a : U32) : List Byte := le32 n ++ le32 a

/-- The payload of a write: `n` zero bytes when `data` is empty, else its first `n` bytes (R94). -/
def payload (data : List Byte) (n : U32) : List Byte :=
  if data.isEmpty then List.replicate n.toNat 0#8 else data.take n.toNat

/-- Header and payload, what the checksum covers (R62). -/
def checkedBytes (n a : U32) (ds : List Byte) : List Byte := headerBytes n a ++ ds

/-- The checksum byte sent: the CRC, or with `inj` the CRC plus one, modulo 256 (R94, R67). -/
def frameChecksum (n a : U32) (ds : List Byte) (inj : Bool) : Byte :=
  if inj then crc8 (checkedBytes n a ds) 0#8 + 1#8 else crc8 (checkedBytes n a ds) 0#8

/-- The bytes of a write frame, checksum byte last (R62, R67 `WFRAME` and `WFRAME.BAD`). -/
def writeFrame (n a : U32) (ds : List Byte) (inj : Bool) : List Byte :=
  checkedBytes n a ds ++ [frameChecksum n a ds inj]

end Sys2Proof.Machine
end

