-- ==== Sys2Proof/Config.lean ====
section
/-! DEFINITION. The parameters of one block instance (00_scope.md R7, R8). -/

namespace Sys2Proof

/-- The configuration constants of an instance, supplied at initialisation and never changed (R32). -/
structure Config where
  /-- `MEM_SIZE`, the size of the memory region in bytes, 0..2^32 (R7). -/
  memSize : Nat
  /-- `BACKUP_EN`: a backup buffer was supplied (R8). -/
  backupEn : Bool
  /-- `BK_SIZE`, the size of the backup buffer in bytes, 0..2^32; it has meaning only with
  `BACKUP_EN` (R8). -/
  bkSize : Nat
  deriving DecidableEq, Repr

/-- The ranges R7 and R8 give the two sizes. -/
abbrev Config.wf (c : Config) : Prop := c.memSize ≤ 2 ^ 32 ∧ c.bkSize ≤ 2 ^ 32

/-- `CFG-A` of 95_test_vectors.md, the source's scenario configuration. -/
def Config.scenario : Config := { memSize := 64, backupEn := true, bkSize := 16 }

/-- `CFG-N` of 95_test_vectors.md: no backup buffer. -/
def Config.noBackup : Config := { memSize := 64, backupEn := false, bkSize := 0 }

end Sys2Proof
end

