-- ==== Sys2Proof/Syntax.lean ====
section
/-! DEFINITION. The instructions: one constructor per row of spec/opcode_table.json. -/

namespace Sys2Proof

/-- The controller's peer handle: an opaque identifier that nothing interprets (44_controller_peer.md R92). -/
structure PeerHandle where
  id : Nat
  deriving DecidableEq, Repr

/-- The rows of spec/opcode_table.json. The first four are the events of the block and have an event
word (30_encoding.md R58); the next two are the CRC-8 unit's operations (R61); the last three are the
controller's procedures (44_controller_peer.md). -/
inductive Instr where
  /-- `WR_BYTE b`: the byte `b` was received (R73). -/
  | wrByte (b : Byte)
  /-- `RD_BYTE`: a byte is requested (R81). -/
  | rdByte
  /-- `PROCESS`: drain the deferred-work queue (R90). -/
  | process
  /-- `INIT`: reset of the block (R91). -/
  | init
  /-- `CRC8_STEP`: running value `c`, byte `b` (R68). -/
  | crc8Step (c b : Byte)
  /-- `CRC8`: the fold over `buf` from `start` (R69; the text's default start is 0). -/
  | crc8 (buf : List Byte) (start : Byte)
  /-- `C_WRITE`: address `a`, `data`, write size `n`, `inj` for a deliberately bad checksum (R94). -/
  | cWrite (peer : PeerHandle) (a : U32) (data : List Byte) (n : U32) (inj : Bool)
  /-- `C_READ`: address `a`, the caller's buffer as it stands, read size `n` (R95). -/
  | cRead (peer : PeerHandle) (a : U32) (buf : List Byte) (n : U32)
  /-- `C_READSTATUS` (R96). -/
  | cReadStatus (peer : PeerHandle)
  deriving DecidableEq, Repr

end Sys2Proof
end

