-- ==== Sys2Proof/WellFormed.lean ====
section
/-! DEFINITION. The preconditions the spec puts on an instruction's operands. -/

namespace Sys2Proof

/-- `C_WRITE` asks that non-empty data hold at least `n` bytes (44_controller_peer.md R94, 92 D26); `C_READ` asks for
a buffer of at least `n` bytes (R95). Every other operand is legal at every value its type has
(30_encoding.md R58, 40_crc.md R68, R69). -/
def Instr.wellFormed : Instr → Bool
  | .wrByte _ => true
  | .rdByte => true
  | .process => true
  | .init => true
  | .crc8Step _ _ => true
  | .crc8 _ _ => true
  | .cWrite _ _ data n _ => data.isEmpty || decide (n.toNat ≤ data.length)
  | .cRead _ _ buf n => decide (n.toNat ≤ buf.length)
  | .cReadStatus _ => true

end Sys2Proof
end

