-- ==== Sys2Proof/Decode.lean ====
section
/-! DEFINITION. Event words: the decoder and the encoder (30_encoding.md R57 to R59, R67). -/

namespace Sys2Proof

/-- Why a word is not decoded: `op` other than WR_BYTE with a non-zero `data` field (R59). -/
inductive DecodeError where
  | reserved (op : BitVec 2) (data : Byte)
  deriving DecidableEq, Repr

/-- `ev[9:8]` (R57). -/
def opField (w : EvWord) : BitVec 2 := w.extractLsb' 8 2

/-- `ev[7:0]` (R57). -/
def dataField (w : EvWord) : Byte := w.extractLsb' 0 8

/-- `{op, data}` (R57). -/
def joinFields (op : BitVec 2) (data : Byte) : EvWord := op ++ data

/-- The opcode map (R58) and its reserved words (R59), total on the 10-bit words. -/
def decode (w : EvWord) : Except DecodeError Instr :=
  if opField w = 0b00#2 then .ok (.wrByte (dataField w))
  else if dataField w ≠ 0#8 then .error (.reserved (opField w) (dataField w))
  else if opField w = 0b01#2 then .ok .rdByte
  else if opField w = 0b10#2 then .ok .process
  else .ok .init

/-- The decoder over a stream of event words, one instruction a word. -/
def decodeStream : List EvWord → Except DecodeError (List Instr)
  | [] => .ok []
  | w :: ws =>
    match decode w with
    | .error e => .error e
    | .ok i =>
      match decodeStream ws with
      | .error e => .error e
      | .ok is => .ok (i :: is)

/-- The event word of an instruction that has one (R58); the CRC-8 unit's operations and the
controller's procedures have none (R61, 44_controller_peer.md). -/
def eventWord : Instr → Option EvWord
  | .wrByte b => some (joinFields 0b00#2 b)
  | .rdByte => some (joinFields 0b01#2 0#8)
  | .process => some (joinFields 0b10#2 0#8)
  | .init => some (joinFields 0b11#2 0#8)
  | .crc8Step _ _ => none
  | .crc8 _ _ => none
  | .cWrite _ _ _ _ _ => none
  | .cRead _ _ _ _ => none
  | .cReadStatus _ => none

/-- The word of `WR b`. -/
def wrWord (b : Byte) : EvWord := joinFields 0b00#2 b

/-- The word of `RD`. -/
def rdWord : EvWord := joinFields 0b01#2 0#8

/-- `WFRAME n, a, ds` (`inj` false) or `WFRAME.BAD n, a, ds` (`inj` true) (R67). -/
def wframeWords (n a : U32) (ds : List Byte) (inj : Bool) : List EvWord :=
  (Machine.writeFrame n a ds inj).map wrWord ++ [rdWord]

/-- `RFRAME n, a` (R67). -/
def rframeWords (n a : U32) : List EvWord :=
  (Machine.headerBytes n a).map wrWord ++ List.replicate (n.toNat + 2) rdWord

/-- `SREAD` (R67, R64). -/
def sreadWords : List EvWord := rframeWords 1#32 0#32

/-- The encoding of an instruction: its one event word, or the event stream that a controller
procedure causes when the transport succeeds and, for a read, the checksum agrees (R94 to R96). The
CRC-8 unit's operations have no word (R61). -/
def encode : Instr → List EvWord
  | .wrByte b => [joinFields 0b00#2 b]
  | .rdByte => [joinFields 0b01#2 0#8]
  | .process => [joinFields 0b10#2 0#8]
  | .init => [joinFields 0b11#2 0#8]
  | .crc8Step _ _ => []
  | .crc8 _ _ => []
  | .cWrite _ a data n inj => wframeWords n a (Machine.payload data n) inj
  | .cRead _ a _ n => rframeWords n a
  | .cReadStatus _ => sreadWords

/-- The instruction the decoder reads from a table word. A 10-bit event word stands in the low ten of
`nbits` bits (log 3); a number with a bit above `ev[9]` is no event word. -/
def decodeTableWord (nbits w : Nat) : Option Instr :=
  if w % 2 ^ nbits < 2 ^ 10 then
    match decode (BitVec.ofNat 10 (w % 2 ^ nbits)) with
    | .ok i => some i
    | .error _ => none
  else none

end Sys2Proof
end

