-- ==== Sys2Proof/Machine/Flags.lean ====
section
/-! DEFINITION. The status register's layout and flag computations (10_state.md R23 to R29). -/

namespace Sys2Proof.Machine

/-- The five error flags, bits 0..4 of `ST` (R23, R25). -/
inductive ErrFlag where
  | memoryOutOfRange
  | backupBufferOverflow
  | invalidRead
  | invalidWrite
  | dataCorrupted
  deriving DecidableEq, Repr

/-- A flag's value in `ST` (R23, 60_exceptions.md R101). -/
def flagCode : ErrFlag → Byte
  | .memoryOutOfRange => 0x01#8
  | .backupBufferOverflow => 0x02#8
  | .invalidRead => 0x04#8
  | .invalidWrite => 0x08#8
  | .dataCorrupted => 0x10#8

/-- `Ok`, bit 7 (R23). -/
def okValue : Byte := 0x80#8

/-- `Busy`, bit 5 (R23). -/
def busyValue : Byte := 0x20#8

/-- `ERRMASK`: `Busy` is not an error flag (R25). -/
def errMask : Byte := 0x1F#8

/-- The flags that block the arming of a restore: `MOOR`, `BBO`, `IRD` (42_read_byte.md R87). -/
def noRestoreMask : Byte := 0x07#8

/-- `SetFlag(f)`: clears `Ok`, keeps the rest, sets `f` (R26). -/
def setFlag (st : Byte) (f : ErrFlag) : Byte := (st &&& 0x7F#8) ||| flagCode f

/-- A flag is set in `st`. -/
def hasFlag (st : Byte) (f : ErrFlag) : Bool := st &&& flagCode f != 0#8

/-- `AnyErr()` (R29). -/
def anyErr (st : Byte) : Bool := st &&& errMask != 0#8

/-- One of `MOOR`, `BBO`, `IRD` is set (R87). -/
def blocksRestore (st : Byte) : Bool := st &&& noRestoreMask != 0#8

end Sys2Proof.Machine
end

