-- ==== Sys2Proof/Machine/State.lean ====
section
/-! DEFINITION. The machine's state, its faults and refusals, and the state after reset. -/

namespace Sys2Proof.Machine

/-- Why a step faults. None of the first two can happen in a state reached from INIT. -/
inductive Fault where
  /-- The block accessed `MEM` at `a >= MEM_SIZE`: raised by the PROCESS copy (60_exceptions.md R113, 92 D27). Safe. -/
  | memOutside (a : Nat)
  /-- The block accessed `BK` at `o >= BK_SIZE`, or without a backup buffer: raised by a data-phase
  WR_BYTE or the PROCESS copy (20_memory.md R43, R113, 92 D27). Safe. -/
  | bkOutside (o : Nat)
  /-- The host application named a byte of `MEM` that does not exist (log 10). Safe. -/
  | appMemOutside (a : Nat)
  /-- The host application named a byte of `BK` that does not exist (log 10). Safe. -/
  | appBkOutside (o : Nat)
  deriving DecidableEq, Repr

/-- Why a step is refused. -/
inductive Refusal where
  /-- An instruction without a meaning; every row has one, so no arm raises it. Safe. -/
  | notModelled (mnemonic : String)
  /-- A reserved event word was presented (30_encoding.md R59); raised by `step`. Safe. -/
  | reservedWord (w : EvWord)
  /-- `C_WRITE` with non-empty data shorter than `n`, outside the contract (44_controller_peer.md R94, 92 D26). Safe. -/
  | dataTooShort
  /-- `C_READ` with a buffer shorter than `n` (44_controller_peer.md R95, log 11). Safe. -/
  | bufferTooShort
  deriving DecidableEq, Repr

/-- A byte space: the listed bytes by rising address, none equal to what an unlisted byte reads as. -/
abbrev Memory := List Host.Cell

/-- An access of the host application to its own buffers (20_memory.md R51). -/
inductive AppAccess where
  | readMem (a : Nat)
  | writeMem (a : Nat) (v : Byte)
  | readBk (o : Nat)
  | writeBk (o : Nat) (v : Byte)
  deriving DecidableEq, Repr

/-- A step of the host application that falls inside a controller call (00_scope.md R6, 20_memory.md R50, R51). -/
inductive HostAct where
  | process
  | init
  | access (x : AppAccess)
  deriving DecidableEq, Repr

/-- How one transport primitive goes (44_controller_peer.md R93, log 6). -/
structure Carriage where
  /-- `none` for a successful call; `some k` for a failed one that delivered its first `k` events (all
  of them when it has no more). -/
  failAfter : Option Nat
  /-- What a failed read leaves in the caller's buffer, in place of its first bytes. -/
  leaves : List Byte
  /-- Entry `i` holds the host application's steps that fall just before event `i` of the call. -/
  between : List (List HostAct)
  deriving DecidableEq, Repr

/-- A successful primitive with no host step among its events. -/
def Carriage.plain : Carriage := { failAfter := none, leaves := [], between := [] }

/-- What the environment delivers next (00_scope.md R6, log 3). -/
inductive Input where
  /-- A word presented at the port `ev` (30_encoding.md R56). -/
  | word (w : EvWord)
  /-- An operation with no event word: the CRC-8 unit used alone, or a call of the controller. -/
  | op (i : Instr)
  /-- An access of the host application. -/
  | app (x : AppAccess)
  deriving DecidableEq, Repr

/-- The machine: the block's registers (10_state.md R21), the byte spaces it reaches (R33), its
parameters (R32), and the model's own outputs and inputs (INVENTORY.md). -/
structure State where
  /-- The instance's parameters; no step changes them (R32). -/
  cfg : Config
  /-- `BC`, the byte counter, unbounded (R10). -/
  bc : Nat
  /-- `LEN`, the transfer length. -/
  len : U32
  /-- `ADDR`, the start address. -/
  addr : U32
  /-- `CRC`, the running checksum. -/
  crc : Byte
  /-- `ST`, the status register (R23). -/
  st : Byte
  /-- `PEND`, a deferred restore is queued. -/
  pend : Bool
  /-- `MEM`, the memory region. -/
  mem : Memory
  /-- `BK`, the backup buffer. -/
  bk : Memory
  /-- `rd_data`: the byte the last RD_BYTE emitted, `none` after another event (R56, log 4). -/
  rdData : Option Byte
  /-- The CRC-8 unit's output when it is used alone (R61, log 5). -/
  crcOut : Option Byte
  /-- The byte the host application's last read returned (log 10). -/
  appOut : Option Byte
  /-- What the last controller call returned (R94 to R97, log 7). -/
  ctlStatus : Option Byte
  /-- The caller's buffer after the last `C_READ` (R95, log 7). -/
  ctlBuf : List Byte
  /-- What is delivered next, oldest first (log 3). -/
  inputs : List Input
  /-- How the coming transport primitives go; past its end they are `Carriage.plain` (log 6). -/
  transport : List Carriage
  deriving DecidableEq, Repr

/-- An instance just initialised: the registers of R35, with the buffers the host application supplies
(70_reset_and_hazards.md R114, R115) and nothing delivered yet. -/
def State.launch (cfg : Config) (mem bk : Memory) : State :=
  { cfg := cfg, bc := 0, len := 0#32, addr := 0#32, crc := 0#8, st := 0x80#8, pend := false,
    mem := mem, bk := bk, rdData := none, crcOut := none, appOut := none, ctlStatus := none,
    ctlBuf := [], inputs := [], transport := [] }

/-- The machine right after reset: R35's register values, the scenario's configuration (log 1) and
buffers with nothing listed (log 2). -/
def State.reset : State := State.launch Config.scenario [] []

end Sys2Proof.Machine
end

