-- ==== Sys2Proof/Machine/Ops.lean ====
section
/-! DEFINITION. The named operations over the byte spaces and the registers. -/

namespace Sys2Proof.Machine

/-! ## Byte spaces -/

/-- What a byte that nothing has listed reads as (log 2). -/
def Memory.unlisted : Byte := 0#8

/-- The byte at `a`. -/
def Memory.read : Memory → Nat → Byte
  | [], _ => Memory.unlisted
  | (k, v) :: m, a =>
    if a < k then Memory.unlisted else if a = k then v else Memory.read m a

/-- `v` put in front of the cells above `a`, unless `a` reads as `v` already when unlisted. -/
def Memory.cons (a : Nat) (v : Byte) (m : Memory) : Memory :=
  if v = Memory.unlisted then m else (a, v) :: m

/-- The space after byte `v` is written at `a`. -/
def Memory.write : Memory → Nat → Byte → Memory
  | [], a, v => Memory.cons a v []
  | (k, w) :: m, a, v =>
    if a < k then Memory.cons a v ((k, w) :: m)
    else if a = k then Memory.cons a v m
    else (k, w) :: Memory.write m a v

/-- The canonical form: addresses strictly rising, no cell equal to what an unlisted byte reads as. -/
def Memory.wf : Memory → Bool
  | [] => true
  | (k, v) :: m => v != Memory.unlisted && m.all (fun c => decide (k < c.1)) && Memory.wf m

/-- Every listed address lies below `size`. -/
def Memory.below (m : Memory) (size : Nat) : Bool := m.all fun c => decide (c.1 < size)

/-- The size of the backup buffer, 0 when there is none (10_state.md R33, 20_memory.md R39). -/
def backupSize (c : Config) : Nat := if c.backupEn then c.bkSize else 0

/-- `MemRead(a, 1)` (00_scope.md R15); outside the region a fault (60_exceptions.md R113). -/
def State.memRead (a : Nat) (s : State) : Except Fault Byte :=
  if a < s.cfg.memSize then .ok (Memory.read s.mem a) else .error (.memOutside a)

/-- `MemWrite(a, 1, v)` (R15). -/
def State.memWrite (a : Nat) (v : Byte) (s : State) : Except Fault State :=
  if a < s.cfg.memSize then .ok { s with mem := Memory.write s.mem a v } else .error (.memOutside a)

/-- `BkRead(o)` (R15). -/
def State.bkRead (o : Nat) (s : State) : Except Fault Byte :=
  if o < backupSize s.cfg then .ok (Memory.read s.bk o) else .error (.bkOutside o)

/-- `BkWrite(o, v)` (R15). -/
def State.bkWrite (o : Nat) (v : Byte) (s : State) : Except Fault State :=
  if o < backupSize s.cfg then .ok { s with bk := Memory.write s.bk o v } else .error (.bkOutside o)

/-! ## Registers -/

/-- `CRC <- CrcStep(CRC, b)`. -/
def State.fold (b : Byte) (s : State) : State := { s with crc := crcStep s.crc b }

/-- Byte lane `k` of `LEN` `<- b` (41_write_byte.md R75). -/
def State.setLenLane (k : Nat) (b : Byte) (s : State) : State := { s with len := setLane s.len k b }

/-- Byte lane `k` of `ADDR` `<- b` (R76). -/
def State.setAddrLane (k : Nat) (b : Byte) (s : State) : State := { s with addr := setLane s.addr k b }

/-- `BC <- BC + 1` (R80, 42_read_byte.md R86). -/
def State.advance (s : State) : State := { s with bc := s.bc + 1 }

/-- `BC <- 0; LEN <- 0; ADDR <- 0; CRC <- 0`: the per-transaction counters (42_read_byte.md R87). -/
def State.clearCounters (s : State) : State :=
  { s with bc := 0, len := 0#32, addr := 0#32, crc := 0#8 }

/-- `emit v`: drives `rd_data` (00_scope.md R16). -/
def State.emit (v : Byte) (s : State) : State := { s with rdData := some v }

/-- An event that does not drive `rd_data` (41_write_byte.md R73). -/
def State.undriven (s : State) : State := { s with rdData := none }

/-! ## Recording an error and clearing it

The block has no trap (60_exceptions.md R99). What an error "entry" saves and changes is R104, the deferred restore's
entry is R87's arming, and the ways back are R105's. -/

/-- `SetFlag(f)` on `ST`, and nothing else (10_state.md R26, 60_exceptions.md R104). -/
def State.recordError (f : ErrFlag) (s : State) : State := { s with st := setFlag s.st f }

/-- `SetOk()` (10_state.md R27). -/
def State.setOk (s : State) : State := { s with st := okValue }

/-- `SetBusy()` (10_state.md R28). -/
def State.setBusy (s : State) : State := { s with st := busyValue }

/-- `AnyErr()` (10_state.md R29). -/
def State.hasError (s : State) : Bool := Machine.anyErr s.st

/-- Entry into the deferred work: `PEND <- 1; SetBusy()`, with `ADDR` and `LEN` kept (R87, R104). -/
def State.armRestore (s : State) : State := { s with pend := true }.setBusy

/-- Return from the deferred work: `PEND <- 0`, the deferred transaction reset, `SetOk()`
(43_process_init.md R90, 60_exceptions.md R105). -/
def State.finishRestore (s : State) : State := { s with pend := false }.clearCounters.setOk

/-! ## Outcomes -/

/-- A computation that may fault, as the outcome of a step. -/
def outcomeOf : Except Fault State → Host.Outcome State Fault Refusal
  | .ok s => .next s
  | .error f => .fault f

end Sys2Proof.Machine
end

