-- ==== Sys2Proof/Machine/Deferred.lean ====
section
/-! DEFINITION. PROCESS and INIT (43_process_init.md). -/

namespace Sys2Proof.Machine

/-- The copy loop of R90, `n` bytes from offset `i` on: `MemWrite(ADDR + i, 1, BkRead(i))`. -/
def State.copyBack : Nat → Nat → State → Except Fault State
  | 0, _, s => .ok s
  | n + 1, i, s => do
    let v ← s.bkRead i
    let s' ← s.memWrite (s.addr.toNat + i) v
    State.copyBack n (i + 1) s'

/-- The PROCESS event: the pending restore, its queue entry taken and the deferred transaction reset; with
nothing pending, no effect (R90, 92 D14). -/
def State.processEvent (s : State) : Except Fault State :=
  if s.pend then do
    let s' ← s.undriven.copyBack s.len.toNat 0
    return s'.finishRestore
  else .ok s.undriven

/-- The INIT event: the registers of 10_state.md R35; `MEM` and `BK` are not touched (R91). -/
def State.initEvent (s : State) : State := { s.undriven.clearCounters.setOk with pend := false }

/-- PROCESS (R90). -/
def execProcess (s : State) : Host.Outcome State Fault Refusal := outcomeOf s.processEvent

/-- INIT (R91). -/
def execInit (s : State) : Host.Outcome State Fault Refusal := .next s.initEvent

end Sys2Proof.Machine
end

