-- ==== Sys2Proof/Machine/App.lean ====
section
/-! DEFINITION. The host application's own steps (00_scope.md R6, 20_memory.md R51). -/

namespace Sys2Proof.Machine

/-- An access of the host application to the buffers it owns; the block does not detect it (R51). An
access to a byte that does not exist faults under a name of its own (log 10). -/
def State.appAccess : AppAccess → State → Except Fault State
  | .readMem a, s =>
    if a < s.cfg.memSize then .ok { s with appOut := some (Memory.read s.mem a) }
    else .error (.appMemOutside a)
  | .writeMem a v, s =>
    if a < s.cfg.memSize then .ok { s with mem := Memory.write s.mem a v }
    else .error (.appMemOutside a)
  | .readBk o, s =>
    if o < backupSize s.cfg then .ok { s with appOut := some (Memory.read s.bk o) }
    else .error (.appBkOutside o)
  | .writeBk o v, s =>
    if o < backupSize s.cfg then .ok { s with bk := Memory.write s.bk o v }
    else .error (.appBkOutside o)

/-- A step of the host application inside a controller call. -/
def State.hostAct : HostAct → State → Except Fault State
  | .process, s => s.processEvent
  | .init, s => .ok s.initEvent
  | .access x, s => s.appAccess x

/-- Host steps in order. -/
def State.hostActs : List HostAct → State → Except Fault State
  | [], s => .ok s
  | x :: xs, s => do
    let s' ← s.hostAct x
    State.hostActs xs s'

end Sys2Proof.Machine
end

