-- ==== Sys2Proof/Machine/ReadByte.lean ====
section
/-! DEFINITION. RD_BYTE, byte requested (42_read_byte.md). -/

namespace Sys2Proof.Machine

/-- `RdHeader()`: the emitted 0 is folded, and no transaction starts (R82). -/
def State.rdHeader (s : State) : State :=
  ((s.recordError .invalidRead).fold 0#8).emit 0#8

/-- `StatusRead()`'s effect: read-to-clear at the moment of serving (R84). -/
def State.statusClear (s : State) : State := if s.hasError then s else s.setOk

/-- The value of a data byte and the state after its checks (R83, R84). -/
def State.rdValue (s : State) : Except Fault (Byte × State) :=
  let ea := effectiveAddress s.addr s.bc
  if s.cfg.memSize ≤ ea then .ok (0#8, s.recordError .memoryOutOfRange)
  else if s.addr = 0#32 ∧ s.len = 1#32 then .ok (s.st, s.statusClear)
  else if s.hasError then .ok (0#8, s)
  else do
    let v ← s.memRead ea
    return (v, s)

/-- `RdData()`: every emitted data byte is folded (R83). -/
def State.serveData (s : State) : Except Fault State := do
  let (v, s') ← s.rdValue
  return (s'.fold v).emit v

/-- `RdChecksum()`: not folded (R85, R88). -/
def State.rdChecksum (s : State) : State := s.emit s.crc

/-- The arming condition: `DC` set, backups enabled, and none of `MOOR`, `BBO`, `IRD` (R87). -/
def State.armsRestore (s : State) : Bool :=
  hasFlag s.st .dataCorrupted && s.cfg.backupEn && !blocksRestore s.st

/-- The end of the final branch: the counters are cleared, or the reset is deferred to PROCESS (R87). -/
def State.endTransaction (s : State) : State := if s.pend then s.advance else s.clearCounters

/-- `RdFinal()`: the terminal status byte, not folded (R87, R88). -/
def State.rdFinal (s : State) : State :=
  let s' := if s.armsRestore then s.armRestore else s
  (s'.emit s'.st).endTransaction

/-- The RD_BYTE event (R81); `BC <- BC + 1` after the emit in all branches but the final one (R86). -/
def State.rdEvent (s : State) : Except Fault State :=
  match phase s.bc s.len with
  | .length => .ok s.rdHeader.advance
  | .address => .ok s.rdHeader.advance
  | .data => do
    let s' ← s.serveData
    return s'.advance
  | .checksum => .ok s.rdChecksum.advance
  | .drain => .ok s.rdFinal

/-- RD_BYTE (R81). -/
def execRdByte (s : State) : Host.Outcome State Fault Refusal := outcomeOf s.rdEvent

end Sys2Proof.Machine
end

