-- ==== Sys2Proof/Machine/WriteByte.lean ====
section
/-! DEFINITION. WR_BYTE, byte received (41_write_byte.md). -/

namespace Sys2Proof.Machine

/-- `TxStart()`: a WR_BYTE with `BC = 0` begins a transaction (R74). -/
def State.txStart (s : State) : State := if s.bc = 0 then s.setOk else s

/-- `WrLength(b)`; the overflow check reads the complete length (R75). -/
def State.wrLength (b : Byte) (s : State) : State :=
  let s' := (s.setLenLane s.bc b).fold b
  if s.bc = 3 ∧ s'.cfg.backupEn = true ∧ s'.cfg.bkSize < s'.len.toNat then
    s'.recordError .backupBufferOverflow
  else s'

/-- `WrAddress(b)`; the bounds check reads the complete address (R76). -/
def State.wrAddress (b : Byte) (s : State) : State :=
  let s' := (s.setAddrLane (s.bc - 4) b).fold b
  if s.bc = 7 ∧ s'.cfg.memSize ≤ transferEnd s'.addr s'.len then
    s'.recordError .memoryOutOfRange
  else s'

/-- The byte is applied to memory: when backups are enabled the old byte is saved first (R77). -/
def State.applyData (b : Byte) (off ea : Nat) (s : State) : Except Fault State :=
  if s.cfg.backupEn then do
    let old ← s.memRead ea
    let s' ← s.bkWrite off old
    s'.memWrite ea b
  else s.memWrite ea b

/-- `WrData(b)` (R77). -/
def State.wrData (b : Byte) (s : State) : Except Fault State :=
  let off := dataOffset s.bc
  let ea := effectiveAddress s.addr s.bc
  let s' := s.fold b
  if s'.hasError then .ok s'
  else if s'.cfg.memSize ≤ ea then .ok (s'.recordError .memoryOutOfRange)
  else if s'.cfg.backupEn = true ∧ s'.cfg.bkSize < off then
    .ok (s'.recordError .backupBufferOverflow)
  else s'.applyData b off ea

/-- `WrChecksum(b)`; the checksum byte is not folded (R78). -/
def State.wrChecksum (b : Byte) (s : State) : State :=
  if b ≠ s.crc then s.recordError .dataCorrupted else s

/-- `WrDrain(b)`; the byte is discarded and not folded (R79). -/
def State.wrDrain (s : State) : State := s.recordError .invalidWrite

/-- The branch of WR_BYTE that the phase selects (R73). -/
def State.wrBranch (b : Byte) (s : State) : Except Fault State :=
  match phase s.bc s.len with
  | .length => .ok (s.wrLength b)
  | .address => .ok (s.wrAddress b)
  | .data => s.wrData b
  | .checksum => .ok (s.wrChecksum b)
  | .drain => .ok s.wrDrain

/-- The WR_BYTE event (R73): transaction start, the branch, `BC <- BC + 1` in every branch (R80). -/
def State.wrEvent (b : Byte) (s : State) : Except Fault State := do
  let s' ← s.undriven.txStart.wrBranch b
  return s'.advance

/-- WR_BYTE (R73). -/
def execWrByte (b : Byte) (s : State) : Host.Outcome State Fault Refusal := outcomeOf (s.wrEvent b)

end Sys2Proof.Machine
end

