-- ==== Sys2Proof/Machine/Controller.lean ====
section
/-! DEFINITION. The controller peer's procedures (44_controller_peer.md). Each call is one step; the host application's
steps that fall among its events are given by `transport` (log 6). -/

namespace Sys2Proof.Machine

/-- The events `WR b` of a write primitive in order, each after the host steps that precede it (R93). -/
def State.deliverWrites : List Byte → List (List HostAct) → State → Except Fault State
  | [], _, s => .ok s
  | b :: bs, acts, s => do
    let s1 ← s.hostActs (acts.headD [])
    let s2 ← s1.wrEvent b
    State.deliverWrites bs acts.tail s2

/-- `m` RD_BYTE events in order, with the bytes they emit (R93). -/
def State.deliverReads : Nat → List (List HostAct) → State → Except Fault (List Byte × State)
  | 0, _, s => .ok ([], s)
  | m + 1, acts, s => do
    let s1 ← s.hostActs (acts.headD [])
    let s2 ← s1.rdEvent
    let (vs, s3) ← State.deliverReads m acts.tail s2
    return (s2.rdData.getD 0#8 :: vs, s3)

/-- How the next transport primitive goes. -/
def State.nextCarriage (s : State) : Carriage := s.transport.headD Carriage.plain

/-- The transport after a primitive. -/
def State.popCarriage (s : State) : State := { s with transport := s.transport.tail }

/-- `write_bytes(peer, bs)`: whether it succeeded, and the state after the events it delivered (R93). The
peer handle names this instance and is not interpreted (R92, log 8). -/
def State.writeBytes (_peer : PeerHandle) (bs : List Byte) (s : State) : Except Fault (Bool × State) :=
  let c := s.nextCarriage
  match c.failAfter with
  | none => do
    let s' ← s.popCarriage.deliverWrites bs c.between
    return (true, s')
  | some k => do
    let s' ← s.popCarriage.deliverWrites (bs.take k) c.between
    return (false, s')

/-- `read_bytes(peer, buf)` with `len(buf) = m`: `some` of the bytes received on success; `none` on
failure (R93). -/
def State.readBytes (_peer : PeerHandle) (m : Nat) (s : State) :
    Except Fault (Option (List Byte) × State) :=
  let c := s.nextCarriage
  match c.failAfter with
  | none => do
    let (vs, s') ← s.popCarriage.deliverReads m c.between
    return (some vs, s')
  | some k => do
    let (_, s') ← s.popCarriage.deliverReads (min k m) c.between
    return (none, s')

/-- The call returns `v`. -/
def State.ctlReturn (v : Byte) (s : State) : State := { s with ctlStatus := some v }

/-- The controller's sentinel for a failed transport primitive (R94, R97). -/
def transportFailed : Byte := 0x00#8

/-- Reading one byte and returning it, or the sentinel (the end of R94 and of R95). -/
def State.returnStatusByte (peer : PeerHandle) (s : State) : Except Fault State := do
  let (r, s') ← s.readBytes peer 1
  match r with
  | none => return s'.ctlReturn transportFailed
  | some vs => return s'.ctlReturn (vs.headD 0#8)

/-- The body of `C_WRITE` (R94). -/
def State.controllerWrite (peer : PeerHandle) (a : U32) (data : List Byte) (n : U32) (inj : Bool)
    (s : State) : Except Fault State := do
  let (ok, s1) ← s.writeBytes peer (writeFrame n a (payload data n) inj)
  if ok then s1.returnStatusByte peer else return s1.ctlReturn transportFailed

/-- The caller's buffer `buf` with its first bytes replaced by `vs`. -/
def overwriteFront (buf vs : List Byte) : List Byte := vs ++ buf.drop vs.length

/-- What a failed read of `n` bytes leaves in `buf`: the spec does not say, so the environment gives the
first `n` bytes or fewer (log 7). -/
def leftInBuffer (buf leaves : List Byte) (n : Nat) : List Byte := overwriteFront buf (leaves.take n)

/-- `C_READ` after the data bytes `ds` were received: the checksum byte, its test, the status byte (R95). -/
def State.readTail (peer : PeerHandle) (n a : U32) (ds : List Byte) (s : State) : Except Fault State := do
  let (c, s1) ← s.readBytes peer 1
  match c with
  | none => return s1.ctlReturn transportFailed
  | some cs =>
    if cs.headD 0#8 ≠ crc8 ds (crc8 (headerBytes n a) 0#8) then do
      let (_, s2) ← s1.readBytes peer 1
      return s2.ctlReturn (flagCode .dataCorrupted)
    else s1.returnStatusByte peer

/-- The body of `C_READ`, with the caller's buffer after it in `ctlBuf` (R95). -/
def State.controllerRead (peer : PeerHandle) (a : U32) (buf : List Byte) (n : U32) (s : State) :
    Except Fault State := do
  let (ok, s1) ← s.writeBytes peer (headerBytes n a)
  if ok then do
    let left := leftInBuffer buf s1.nextCarriage.leaves n.toNat
    let (r, s2) ← s1.readBytes peer n.toNat
    match r with
    | none => return { s2.ctlReturn transportFailed with ctlBuf := left }
    | some ds => do
      let s3 ← s2.readTail peer n a ds
      return { s3 with ctlBuf := overwriteFront buf ds }
  else return { s1.ctlReturn transportFailed with ctlBuf := buf }

/-- C_WRITE (R94). Non-empty data shorter than `n` is outside the contract and refused (92 D26, 93 F6). -/
def execCWrite (peer : PeerHandle) (a : U32) (data : List Byte) (n : U32) (inj : Bool) (s : State) :
    Host.Outcome State Fault Refusal :=
  if data.isEmpty || decide (n.toNat ≤ data.length) then outcomeOf (s.controllerWrite peer a data n inj)
  else .refused .dataTooShort

/-- C_READ (R95). A buffer shorter than `n` is outside the contract and refused (log 11). -/
def execCRead (peer : PeerHandle) (a : U32) (buf : List Byte) (n : U32) (s : State) :
    Host.Outcome State Fault Refusal :=
  if n.toNat ≤ buf.length then outcomeOf (s.controllerRead peer a buf n)
  else .refused .bufferTooShort

/-- C_READSTATUS (R96): `C_READ(peer, 0, b, 1)` for a scratch byte `b`, which is not returned, so the
caller's buffer stays as it was. -/
def execCReadStatus (peer : PeerHandle) (s : State) : Host.Outcome State Fault Refusal :=
  outcomeOf do
    let t ← s.controllerRead peer 0#32 [0#8] 1#32
    return { t with ctlBuf := s.ctlBuf }

end Sys2Proof.Machine
end

