-- ==== Sys2Proof/Machine/Crc.lean ====
section
/-! DEFINITION. The CRC-8 unit used alone: CRC8_STEP and CRC8 (40_crc.md, 30_encoding.md R61). It is a pure
function, with no state of its own; its output byte is shown in `crcOut` (log 5). -/

namespace Sys2Proof.Machine

/-- CRC8_STEP (R68). -/
def execCrc8Step (c b : Byte) (s : State) : Host.Outcome State Fault Refusal :=
  .next { s with crcOut := some (crcStep c b) }

/-- CRC8 (R69). -/
def execCrc8 (buf : List Byte) (start : Byte) (s : State) : Host.Outcome State Fault Refusal :=
  .next { s with crcOut := some (crc8 buf start) }

end Sys2Proof.Machine
end

