-- ==== Sys2Proof/Machine/Dispatch.lean ====
section
/-! DEFINITION. One arm per constructor of `Instr`. -/

namespace Sys2Proof.Machine

def exec (i : Instr) (s : State) : Host.Outcome State Fault Refusal :=
  match i with
  | .wrByte b => Sys2Proof.Machine.execWrByte b s
  | .rdByte => Sys2Proof.Machine.execRdByte s
  | .process => Sys2Proof.Machine.execProcess s
  | .init => Sys2Proof.Machine.execInit s
  | .crc8Step c b => Sys2Proof.Machine.execCrc8Step c b s
  | .crc8 buf start => Sys2Proof.Machine.execCrc8 buf start s
  | .cWrite peer a data n inj => Sys2Proof.Machine.execCWrite peer a data n inj s
  | .cRead peer a buf n => Sys2Proof.Machine.execCRead peer a buf n s
  | .cReadStatus peer => Sys2Proof.Machine.execCReadStatus peer s

end Sys2Proof.Machine
end

