-- ==== Sys2Proof/Machine/Step.lean ====
section
/-! DEFINITION. One step of the machine: the next delivered input is taken and performed. -/

namespace Sys2Proof.Machine

/-- An event word is decoded and run, a reserved word is refused (30_encoding.md R59); an operation without a word is
run; a host-application access is performed (20_memory.md R51). With nothing delivered the block is idle and all
state persists (00_scope.md R6, 60_exceptions.md R112). -/
def step (s : State) : Host.Outcome State Fault Refusal :=
  match s.inputs with
  | [] => .next s
  | .word w :: rest =>
    match decode w with
    | .ok i => exec i { s with inputs := rest }
    | .error _ => .refused (.reservedWord w)
  | .op i :: rest => exec i { s with inputs := rest }
  | .app x :: rest => outcomeOf (State.appAccess x { s with inputs := rest })

/-- `s` with the event word that the low ten bits of `w % 2 ^ nbits` are presented next at the port `ev`, which has
ten lines (30_encoding.md R56, log 3). -/
def State.withFetchWord (s : State) (nbits w : Nat) : State :=
  { s with inputs := .word (BitVec.ofNat 10 (w % 2 ^ nbits)) :: s.inputs }

end Sys2Proof.Machine
end

