-- ==== Sys2Proof/Machine/Asm.lean ====
section
/-! DEFINITION. The text form of event streams (30_encoding.md R66, R67). -/

namespace Sys2Proof.Machine

/-- Blanks inside a line. -/
def isBlank (c : Char) : Bool := c = ' ' || c = '\t' || c = '\r'

/-- A line without its leading and trailing blanks. -/
def trimBlanks (cs : List Char) : List Char :=
  ((cs.dropWhile isBlank).reverse.dropWhile isBlank).reverse

/-- The pieces of `cs` between the characters `sep`. -/
def splitAtChar (sep : Char) : List Char → List (List Char)
  | [] => [[]]
  | c :: cs =>
    match splitAtChar sep cs with
    | [] => [[]]
    | p :: ps => if c = sep then [] :: p :: ps else (c :: p) :: ps

/-- The value of a digit in base `base`, which is 10 or 16; letters are upper case here. -/
def digitValue (base : Nat) (c : Char) : Option Nat :=
  let v := if '0' ≤ c ∧ c ≤ '9' then some (c.toNat - '0'.toNat)
    else if 'A' ≤ c ∧ c ≤ 'F' then some (c.toNat - 'A'.toNat + 10)
    else none
  v.filter fun d => decide (d < base)

/-- Digits read on from the value `acc`. -/
def readDigits (base : Nat) : Nat → List Char → Option Nat
  | acc, [] => some acc
  | acc, c :: cs =>
    match digitValue base c with
    | some d => readDigits base (acc * base + d) cs
    | none => none

/-- A decimal number, or a hexadecimal one with the prefix `0x` (R66), which is upper case here, so that `0X` is read
too (the model's choice, log 15). -/
def readNumber : List Char → Option Nat
  | '0' :: 'X' :: c :: cs => readDigits 16 0 (c :: cs)
  | c :: cs => readDigits 10 0 (c :: cs)
  | [] => none

/-- `<imm8>`: a number in 0..255 (R66). -/
def readImm8 (cs : List Char) : Option Byte :=
  match readNumber cs with
  | some v => if v < 2 ^ 8 then some (BitVec.ofNat 8 v) else none
  | none => none

/-- A number in 0..2^32-1. -/
def readImm32 (cs : List Char) : Option U32 :=
  match readNumber cs with
  | some v => if v < 2 ^ 32 then some (BitVec.ofNat 32 v) else none
  | none => none

/-- `f` on every piece; none when one piece is none. -/
def readAll {α : Type} (f : List Char → Option α) : List (List Char) → Option (List α)
  | [] => some []
  | p :: ps =>
    match f p, readAll f ps with
    | some v, some vs => some (v :: vs)
    | _, _ => none

/-- The operands of `WFRAME n, a, d0, ..., d(n-1)` (R67). -/
def readFrame (cs : List Char) : Option (U32 × U32 × List Byte) :=
  match (splitAtChar ',' cs).map trimBlanks with
  | n :: a :: ds =>
    match readImm32 n, readImm32 a, readAll readImm8 ds with
    | some n, some a, some ds => if ds.length = n.toNat then some (n, a, ds) else none
    | _, _, _ => none
  | _ => none

/-- The operands of `RFRAME n, a` (R67). -/
def readHeader (cs : List Char) : Option (U32 × U32) :=
  match (splitAtChar ',' cs).map trimBlanks with
  | [n, a] =>
    match readImm32 n, readImm32 a with
    | some n, some a => some (n, a)
    | _, _ => none
  | _ => none

/-- `APP MEM[a] <- v` and `APP read MEM[a]`, blanks taken out (R66). -/
def readApp (cs : List Char) : Option AppAccess :=
  match splitAtChar '[' cs with
  | [name, rest] =>
    match splitAtChar ']' rest with
    | [a, tail] =>
      match readNumber a, tail with
      | some a, [] => if name = "READMEM".toList then some (.readMem a) else none
      | some a, '<' :: '-' :: v =>
        if name = "MEM".toList then (readImm8 v).map (AppAccess.writeMem a) else none
      | _, _ => none
    | _ => none
  | _ => none

/-- Event words as inputs. -/
def wordInputs (ws : List EvWord) : List Input := ws.map Input.word

/-- The inputs a mnemonic and the text after it stand for (R66, R67). -/
def readStatement (name rest : List Char) : Option (List Input) :=
  if name = "WR".toList then (readImm8 rest).map fun b => wordInputs [wrWord b]
  else if name = "WFRAME".toList then
    (readFrame rest).map fun f => wordInputs (wframeWords f.1 f.2.1 f.2.2 false)
  else if name = "WFRAME.BAD".toList then
    (readFrame rest).map fun f => wordInputs (wframeWords f.1 f.2.1 f.2.2 true)
  else if name = "RFRAME".toList then
    (readHeader rest).map fun f => wordInputs (rframeWords f.1 f.2)
  else if name = "APP".toList then
    (readApp (rest.filter fun c => !isBlank c)).map fun x => [Input.app x]
  else if rest ≠ [] then none
  else if name = "RD".toList then some (wordInputs [rdWord])
  else if name = "PROCESS".toList then some (wordInputs [joinFields 0b10#2 0#8])
  else if name = "INIT".toList then some (wordInputs [joinFields 0b11#2 0#8])
  else if name = "SREAD".toList then some (wordInputs sreadWords)
  else none

/-- A name: a letter or `_`, then letters, digits and `_`. R66 says that labels are only names and not which texts are
names; that a name has this form is the model's choice (log 15). -/
def isName : List Char → Bool
  | [] => false
  | c :: cs => (c.isAlpha || c = '_') && cs.all fun d => d.isAlphanum || d = '_'

/-- The line after its `label:`, if it has one (R66); none when what stands before the first `:` is no name
(log 15). -/
def dropLabel (cs : List Char) : Option (List Char) :=
  if cs.contains ':' then
    if isName (trimBlanks (cs.takeWhile (· ≠ ':'))) then some ((cs.dropWhile (· ≠ ':')).drop 1) else none
  else some cs

/-- The inputs of a line without its label: nothing, or one statement. -/
def readBody (cs : List Char) : Option (List Input) :=
  let body := trimBlanks cs
  if body = [] then some []
  else readStatement (body.takeWhile fun c => !isBlank c)
    (trimBlanks (body.dropWhile fun c => !isBlank c))

/-- One line: comment, case, label, then at most one statement (R66). The whole line is put into upper case, so that
keywords, hexadecimal digits and the prefix `0x` are read in either case; R66 says so of mnemonics only, the rest is
the model's choice (log 15). -/
def readLine (cs : List Char) : Option (List Input) :=
  (dropLabel ((cs.takeWhile (· ≠ ';')).map Char.toUpper)).bind readBody

/-- A program text: one event or pseudo-instruction a line (R66, R67); none on a syntax error. -/
def assemble (text : List Char) : Option (List Input) :=
  (readAll readLine (splitAtChar '\n' text)).map List.flatten

end Sys2Proof.Machine
end

