-- ==== Sys2Proof/Safety.lean ====
section
/-! DEFINITION. What claims are stated in: the invariant, reachable states, and faults that only the environment raises. -/

namespace Sys2Proof.Machine

/-- The values `ST` may have (10_state.md R30): `Ok`; a non-empty OR of error flags; `Busy`; `Busy` with
`InvalidWrite`. -/
def statusLegal (st : Byte) : Prop :=
  st = 0x80#8 ∨ (st ≠ 0#8 ∧ st &&& 0xE0#8 = 0#8) ∨ st = 0x20#8 ∨ st = 0x28#8

/-- What holds in every state reached from INIT (10_state.md R30, R36, R37; 20_memory.md R42, R43). -/
structure State.Inv (s : State) : Prop where
  /-- The sizes are in their ranges (00_scope.md R7, R8). -/
  config : s.cfg.wf
  /-- `MEM` is in canonical form and lies inside the region. -/
  memCanonical : Memory.wf s.mem = true
  memInside : Memory.below s.mem s.cfg.memSize = true
  /-- `BK` is in canonical form and lies inside the backup buffer. -/
  bkCanonical : Memory.wf s.bk = true
  bkInside : Memory.below s.bk (backupSize s.cfg) = true
  /-- R30. -/
  status : statusLegal s.st
  /-- R30, R37 (e): `Busy` shows exactly a pending restore. -/
  busy : s.pend = true ↔ s.st = 0x20#8 ∨ s.st = 0x28#8
  /-- R36. -/
  idle : s.bc = 0 → s.pend = false → s.len = 0#32 ∧ s.addr = 0#32 ∧ s.crc = 0#8
  /-- The header lanes not yet received are 0 (R36: byte-lane writes are OR-accumulation). -/
  lenLanes : ∀ k, s.bc ≤ k → k < 4 → lane s.len k = 0#8
  addrLanes : ∀ k, s.bc ≤ k + 4 → k < 4 → lane s.addr k = 0#8
  /-- Past the length field, no `BBO` and no `IRD` mean that the backup check passed (41_write_byte.md R75, R77). -/
  backupChecked : s.pend = false → 4 ≤ s.bc → s.cfg.backupEn = true → s.st &&& 0x06#8 = 0#8 →
    s.len.toNat ≤ s.cfg.bkSize
  /-- Past the header, no `MOOR` and no `IRD` mean that the bounds check passed (R76, R77). -/
  boundsChecked : s.pend = false → 8 ≤ s.bc → s.st &&& 0x05#8 = 0#8 →
    transferEnd s.addr s.len < s.cfg.memSize
  /-- R37 (a) to (d). -/
  pending : s.pend = true → s.cfg.backupEn = true ∧ s.len.toNat ≤ s.cfg.bkSize ∧
    transferEnd s.addr s.len < s.cfg.memSize ∧ 9 + s.len.toNat ≤ s.bc

/-- An instance just initialised with any buffers the host application supplies (70_reset_and_hazards.md R115), with any
inputs to come and any outputs shown. -/
structure State.Launched (s : State) : Prop where
  config : s.cfg.wf
  memCanonical : Memory.wf s.mem = true
  memInside : Memory.below s.mem s.cfg.memSize = true
  bkCanonical : Memory.wf s.bk = true
  bkInside : Memory.below s.bk (backupSize s.cfg) = true
  registers : s.bc = 0 ∧ s.len = 0#32 ∧ s.addr = 0#32 ∧ s.crc = 0#8 ∧ s.st = 0x80#8 ∧ s.pend = false

/-- The states of the runs from a launched instance. -/
inductive Reachable : State → Prop where
  | launch (s : State) : s.Launched → Reachable s
  | step (s t : State) : Reachable s → step s = .next t → Reachable t

/-- No transaction is open and no restore is queued (70_reset_and_hazards.md R116). -/
abbrev State.quiescent (s : State) : Prop := s.bc = 0 ∧ s.pend = false

/-- A fault that the block raises; the others name an access of the host application (log 10). -/
def Fault.ofBlock : Fault → Bool
  | .memOutside _ => true
  | .bkOutside _ => true
  | .appMemOutside _ => false
  | .appBkOutside _ => false

/-- The access names a byte that exists. -/
def AppAccess.inside (c : Config) : AppAccess → Bool
  | .readMem a => decide (a < c.memSize)
  | .writeMem a _ => decide (a < c.memSize)
  | .readBk o => decide (o < backupSize c)
  | .writeBk o _ => decide (o < backupSize c)

/-- The host step is an event, or an access to a byte that exists. -/
def HostAct.inside (c : Config) : HostAct → Bool
  | .process => true
  | .init => true
  | .access x => x.inside c

/-- Every host step that falls inside a coming controller call names bytes that exist. -/
def State.hostStepsInside (s : State) : Prop :=
  ∀ c ∈ s.transport, ∀ acts ∈ c.between, ∀ x ∈ acts, HostAct.inside s.cfg x = true

/-- Every coming transport primitive succeeds, with no host step among its events. -/
def State.reliable (s : State) : Prop := ∀ c ∈ s.transport, c = Carriage.plain

/-- The four events of the block (00_scope.md R3). -/
def isEvent : Instr → Bool
  | .wrByte _ => true
  | .rdByte => true
  | .process => true
  | .init => true
  | .crc8Step _ _ => false
  | .crc8 _ _ => false
  | .cWrite _ _ _ _ _ => false
  | .cRead _ _ _ _ => false
  | .cReadStatus _ => false

/-- What no event changes: the parameters, the other agents' outputs and the inputs to come. -/
structure SameOutside (s t : State) : Prop where
  cfg : t.cfg = s.cfg
  crcOut : t.crcOut = s.crcOut
  appOut : t.appOut = s.appOut
  ctlStatus : t.ctlStatus = s.ctlStatus
  ctlBuf : t.ctlBuf = s.ctlBuf
  inputs : t.inputs = s.inputs
  transport : t.transport = s.transport

/-- The next input is a PROCESS. -/
def State.processIsNext (s : State) : Bool :=
  match s.inputs with
  | [] => false
  | .word w :: _ => decide (w = 0x200#10)
  | .op i :: _ => decide (i = .process)
  | .app _ :: _ => false

/-- The host's duty to the block (70_reset_and_hazards.md R115 (3), 92 D31), a predicate on the run from `s`: from every
state of it with `PEND = 1`, a PROCESS is delivered in the end. A restore that is no longer pending is not waited
for: an INIT dropped it, or a PROCESS inside a controller call performed it (43_process_init.md R89, log 13). -/
def State.HostDuty (s : State) : Prop :=
  ∀ k t, Host.Core.run Sys2Proof.core k s = .next t → t.pend = true →
    ∃ m u, Host.Core.run Sys2Proof.core m t = .next u ∧ (u.processIsNext = true ∨ u.pend = false)

/-- A safe run: no step of it is a fault of the block. -/
def SafeRun (s : State) : Prop :=
  ∀ k f, Host.Core.run Sys2Proof.core k s = .fault f → f.ofBlock = false

end Sys2Proof.Machine
end

