-- ==== Sys2Proof/Certificates/Slice0/Obligations.lean ====
section
/-! DEFINITION. The statements for the provers. Each cites the rule of spec/ it formalises; a clause that rests on a
choice of the model names its log entry. `rdData := none` says that an event emits nothing (00_scope.md R16, 41_write_byte.md
R73), and `crcOut`, `ctlStatus`, `ctlBuf` and `appOut` are where the model shows what an operation returns (log 4, log 5,
log 7, log 10). -/

open Sys2Proof Sys2Proof.Machine

/-! ## Terms of the statements -/

/-- `ST` as a WR_BYTE's branch finds it: `Ok` when the byte starts a transaction (41_write_byte.md R74). -/
def statusAtBranch (s : State) : Byte := if s.bc = 0 then 0x80#8 else s.st

/-- The events an instruction stands for: itself, or the WR_BYTE and RD_BYTE events of a controller call whose
transport succeeds (44_controller_peer.md R94 to R96). -/
def eventsOf : Instr → List Instr
  | .wrByte b => [.wrByte b]
  | .rdByte => [.rdByte]
  | .process => [.process]
  | .init => [.init]
  | .crc8Step _ _ => []
  | .crc8 _ _ => []
  | .cWrite _ a data n inj =>
    (le32 n ++ le32 a ++ payload data n ++ [frameChecksum n a (payload data n) inj]).map .wrByte ++
      [.rdByte]
  | .cRead _ a _ n => (le32 n ++ le32 a).map .wrByte ++ List.replicate (n.toNat + 2) .rdByte
  | .cReadStatus _ =>
    [.wrByte 1#8, .wrByte 0#8, .wrByte 0#8, .wrByte 0#8, .wrByte 0#8, .wrByte 0#8, .wrByte 0#8,
      .wrByte 0#8, .rdByte, .rdByte, .rdByte]

/-- The flags the header of a transfer of `n` bytes at `a` sets (41_write_byte.md R75, R76). -/
def headerFlags (c : Config) (n a : U32) : Byte :=
  (if c.backupEn = true ∧ c.bkSize < n.toNat then 0x02#8 else 0#8) |||
    (if c.memSize ≤ a.toNat + n.toNat then 0x01#8 else 0#8)

/-- Carry-less product over GF(2) of the polynomial of `q` with the polynomial `p`, in 16 bits. -/
def polyMul (q : Byte) (p : BitVec 16) : BitVec 16 :=
  (List.range 8).foldl (fun acc i => if q.getLsbD i then acc ^^^ (p <<< i) else acc) 0#16

/-- The machine's run over event words: `k` steps from `s` with `ws` delivered and nothing after them. -/
def runWords (ws : List EvWord) (s : State) : Host.Outcome State Fault Refusal :=
  Host.Core.run Sys2Proof.core ws.length { s with inputs := ws.map Input.word }

/-- The byte on `rd_data` after that run. -/
def emitted (ws : List EvWord) (s : State) : Option Byte :=
  match runWords ws s with
  | .next t => t.rdData
  | .fault _ => none
  | .refused _ => none

/-! ## Event words -/

/-- The vectors V-E1 to V-E6 of 95_test_vectors.md §2.7. -/
def Obligations.SpecWordsDecode : Prop :=
  decode 0x000#10 = .ok (.wrByte 0x00#8) ∧ decode 0x0FF#10 = .ok (.wrByte 0xFF#8) ∧
  decode 0x100#10 = .ok .rdByte ∧ decode 0x200#10 = .ok .process ∧ decode 0x300#10 = .ok .init ∧
  decode 0x101#10 = .error (.reserved 1#2 0x01#8) ∧
  decode 0x2FF#10 = .error (.reserved 2#2 0xFF#8) ∧
  decode 0x380#10 = .error (.reserved 3#2 0x80#8)

/-- R58: the opcode map by match and mask. -/
def Obligations.OpcodeMapByMatchAndMask : Prop :=
  ∀ w : EvWord,
    (w &&& 0x300#10 = 0#10 → decode w = .ok (.wrByte (w.setWidth 8))) ∧
    (∀ b : Byte, decode w = .ok (.wrByte b) ↔ w = b.setWidth 10) ∧
    (decode w = .ok .rdByte ↔ w &&& 0x3FF#10 = 0x100#10) ∧
    (decode w = .ok .process ↔ w &&& 0x3FF#10 = 0x200#10) ∧
    (decode w = .ok .init ↔ w &&& 0x3FF#10 = 0x300#10)

/-- R59: a step refuses exactly the reserved words, whatever the state. -/
def Obligations.ReservedWordsAreRefused : Prop :=
  ∀ (s : State) (w : EvWord) (rest : List Input), s.inputs = .word w :: rest →
    ((256 ≤ w.toNat ∧ w.toNat % 256 ≠ 0) ↔ step s = .refused (.reservedWord w)) ∧
    (¬ (256 ≤ w.toNat ∧ w.toNat % 256 ≠ 0) → ∀ r, step s ≠ .refused r)

/-- R67: the four pseudo-instructions expand to their events, `10 + n` of them. -/
def Obligations.PseudoInstructionsExpand : Prop :=
  (∀ (n a : U32) (ds : List Byte), ds.length = n.toNat →
    decodeStream (wframeWords n a ds false) =
      .ok ((le32 n ++ le32 a ++ ds ++ [crc8 (le32 n ++ le32 a ++ ds) 0#8]).map .wrByte ++ [.rdByte]) ∧
    decodeStream (wframeWords n a ds true) =
      .ok ((le32 n ++ le32 a ++ ds ++
        [BitVec.ofNat 8 (((crc8 (le32 n ++ le32 a ++ ds) 0#8).toNat + 1) % 256)]).map .wrByte ++ [.rdByte]) ∧
    (wframeWords n a ds false).length = 10 + n.toNat ∧
    (wframeWords n a ds true).length = 10 + n.toNat) ∧
  (∀ n a : U32,
    decodeStream (rframeWords n a) =
      .ok ((le32 n ++ le32 a).map .wrByte ++ List.replicate (n.toNat + 2) .rdByte) ∧
    (rframeWords n a).length = 10 + n.toNat) ∧
  sreadWords = rframeWords 1#32 0#32

/-- Decode and encode agree: the encoding of every well-formed instruction decodes to the events it stands for, event
words and event instructions correspond one to one, and the streams of C_WRITE and C_READ keep address, size, payload and
injection (R58, R67). -/
def Obligations.EventStreamsRoundTrip : Prop :=
  (∀ i : Instr, i.wellFormed = true → decodeStream (encode i) = .ok (eventsOf i)) ∧
  (∀ (i : Instr) (w : EvWord), eventWord i = some w ↔ decode w = .ok i) ∧
  (∀ (i : Instr) (w : EvWord), eventWord i = some w → encode i = [w]) ∧
  (∀ (p p' : PeerHandle) (a a' : U32) (d d' : List Byte) (n n' : U32) (j j' : Bool),
    encode (.cWrite p a d n j) = encode (.cWrite p' a' d' n' j') →
      a = a' ∧ n = n' ∧ payload d n = payload d' n' ∧ j = j') ∧
  (∀ (p p' : PeerHandle) (a a' : U32) (b b' : List Byte) (n n' : U32),
    encode (.cRead p a b n) = encode (.cRead p' a' b' n') → a = a' ∧ n = n')

/-- R44: the header fields are little-endian, byte `k` at bits `[8k+7 : 8k]`. -/
def Obligations.HeaderFieldsLittleEndian : Prop :=
  ∀ v : U32,
    (∀ (k : Nat) (b : Byte), k < 4 →
      (setLane v k b).toNat / 256 ^ k % 256 = b.toNat ∧
      ∀ j, j < 4 → j ≠ k → (setLane v k b).toNat / 256 ^ j % 256 = v.toNat / 256 ^ j % 256) ∧
    (le32 v).map BitVec.toNat =
      [v.toNat % 256, v.toNat / 256 % 256, v.toNat / 256 ^ 2 % 256, v.toNat / 256 ^ 3 % 256]

/-! ## The CRC-8 unit -/

/-- R68: CRC8_STEP completes with the value of the pseudocode, and changes nothing but the unit's output. -/
def Obligations.Crc8StepValue : Prop :=
  ∀ (s : State) (c b : Byte), exec (.crc8Step c b) s = .next { s with
    crcOut := some ((fun x : Byte =>
      if x.getLsbD 7 then ((x <<< 1) &&& 0xFF#8) ^^^ 0x07#8 else (x <<< 1) &&& 0xFF#8)^[8] (c ^^^ b)) }

/-- R69: CRC8 completes with the fold, and changes nothing but the unit's output. -/
def Obligations.Crc8Value : Prop :=
  ∀ (s : State) (buf : List Byte) (start : Byte),
    exec (.crc8 buf start) s = .next { s with crcOut := some (buf.foldl crcStep start) } ∧
    crc8 [] start = start ∧
    ∀ b, crc8 (buf ++ [b]) start = crcStep (crc8 buf start) b

/-- R70: the step is the remainder, modulo x^8 + x^2 + x + 1, of the 8-bit sum shifted up by 8. -/
def Obligations.CrcStepIsPolynomialRemainder : Prop :=
  ∀ c b : Byte, ∃ q : Byte,
    ((c ^^^ b).setWidth 16 <<< 8) = polyMul q 0x107#16 ^^^ (crcStep c b).setWidth 16

/-- R71: the incremental law, and the running register `CRC` after bytes folded one at a time. -/
def Obligations.CrcIncrementalLaw : Prop :=
  (∀ (p q : List Byte) (s : Byte), crc8 q (crc8 p s) = crc8 (p ++ q) s) ∧
  (∀ (p : List Byte) (s : State), s.crc = 0#8 →
    (p.foldl (fun t b => t.fold b) s).crc = crc8 p 0#8)

/-- R72: the residue law. -/
def Obligations.CrcResidueLaw : Prop :=
  (∀ c b : Byte, crcStep c b = 0#8 ↔ b = c) ∧ Function.Bijective (crcStep 0#8) ∧
  ∀ m : List Byte, crc8 (m ++ [crc8 m 0#8]) 0#8 = 0#8

/-! ## The status register's primitives -/

/-- R26: SetFlag clears `Ok`, keeps every other flag, and changes nothing when the flag is set. -/
def Obligations.SetFlagAccumulates : Prop :=
  ∀ (s : State) (f : ErrFlag),
    s.recordError f = { s with st := (s.st &&& 0x7F#8) ||| flagCode f } ∧
    (s.recordError f).st.getLsbD 7 = false ∧
    (∀ i, i < 7 → s.st.getLsbD i = true → (s.recordError f).st.getLsbD i = true) ∧
    (s.recordError f).recordError f = s.recordError f

/-- R29, R25: AnyErr is the test of the five error flags, and `Busy` is not one. -/
def Obligations.AnyErrTestsTheFiveFlags : Prop :=
  ∀ s : State,
    (s.hasError = true ↔ s.st &&& 0x1F#8 ≠ 0#8) ∧
    (s.hasError = true ↔ ∃ f : ErrFlag, hasFlag s.st f = true) ∧
    (s.setBusy).hasError = false ∧ (s.setOk).hasError = false

/-! ## WR_BYTE -/

/-- R74: a WR_BYTE with `BC = 0` starts a transaction with `ST = 0x80`; an RD_BYTE there does not; none starts
while a restore is pending. -/
def Obligations.WriteStartsTransaction : Prop :=
  (∀ (s : State) (b : Byte), s.bc = 0 →
    exec (.wrByte b) s = exec (.wrByte b) { s with st := 0x80#8 } ∧
    ∃ t, exec (.wrByte b) s = .next t ∧ t.st = 0x80#8) ∧
  (∀ s : State, s.bc = 0 →
    ∃ t, exec .rdByte s = .next t ∧ t.st = (s.st &&& 0x7F#8) ||| 0x04#8) ∧
  (∀ s : State, s.Inv → s.pend = true → s.bc ≠ 0)

/-- R75: a WR_BYTE in the length phase. -/
def Obligations.WriteLengthByte : Prop :=
  ∀ (s : State) (b : Byte), s.bc < 4 →
    exec (.wrByte b) s = .next { s with
      bc := s.bc + 1
      len := setLane s.len s.bc b
      crc := crcStep s.crc b
      st := if s.bc = 3 ∧ s.cfg.backupEn = true ∧ s.cfg.bkSize < (setLane s.len s.bc b).toNat then
          (statusAtBranch s &&& 0x7F#8) ||| 0x02#8
        else statusAtBranch s
      rdData := none }

/-- R76: a WR_BYTE in the address phase. -/
def Obligations.WriteAddressByte : Prop :=
  ∀ (s : State) (b : Byte), 4 ≤ s.bc → s.bc < 8 →
    exec (.wrByte b) s = .next { s with
      bc := s.bc + 1
      addr := setLane s.addr (s.bc - 4) b
      crc := crcStep s.crc b
      st := if s.bc = 7 ∧ s.cfg.memSize ≤ (setLane s.addr (s.bc - 4) b).toNat + s.len.toNat then
          (s.st &&& 0x7F#8) ||| 0x01#8
        else s.st
      rdData := none }

/-- R77: a WR_BYTE in the data phase, every case of the pseudocode but the backup access at `BK_SIZE` (log 9,
`BackupAccessAtItsSizeFaults`). -/
def Obligations.WriteDataByte : Prop :=
  ∀ (s : State) (b : Byte), 8 ≤ s.bc → s.bc < 8 + s.len.toNat →
    let off := s.bc - 8
    let ea := s.addr.toNat + off
    let u : State := { s with bc := s.bc + 1, crc := crcStep s.crc b, rdData := none }
    (s.st &&& 0x1F#8 ≠ 0#8 → exec (.wrByte b) s = .next u) ∧
    (s.st &&& 0x1F#8 = 0#8 → s.cfg.memSize ≤ ea →
      exec (.wrByte b) s = .next { u with st := (s.st &&& 0x7F#8) ||| 0x01#8 }) ∧
    (s.st &&& 0x1F#8 = 0#8 → ea < s.cfg.memSize → s.cfg.backupEn = true → s.cfg.bkSize < off →
      exec (.wrByte b) s = .next { u with st := (s.st &&& 0x7F#8) ||| 0x02#8 }) ∧
    (s.st &&& 0x1F#8 = 0#8 → ea < s.cfg.memSize → s.cfg.backupEn = true → off < s.cfg.bkSize →
      exec (.wrByte b) s = .next { u with
        bk := Memory.write s.bk off (Memory.read s.mem ea), mem := Memory.write s.mem ea b }) ∧
    (s.st &&& 0x1F#8 = 0#8 → ea < s.cfg.memSize → s.cfg.backupEn = false →
      exec (.wrByte b) s = .next { u with mem := Memory.write s.mem ea b })

/-- The model's choice (log 9, allowed by R113 and 92 D27): the backup write at `off = BK_SIZE`, which no state
reached from INIT makes, faults. -/
def Obligations.BackupAccessAtItsSizeFaults : Prop :=
  ∀ (s : State) (b : Byte), 8 ≤ s.bc → s.bc < 8 + s.len.toNat → s.st &&& 0x1F#8 = 0#8 →
    s.addr.toNat + (s.bc - 8) < s.cfg.memSize → s.cfg.backupEn = true → s.bc - 8 = s.cfg.bkSize →
    exec (.wrByte b) s = .fault (.bkOutside s.cfg.bkSize)

/-- R38, R39, R77 byte by byte: the received byte stands at `EA`, the old byte at its offset in the backup, and
every other byte of both spaces reads as before. -/
def Obligations.WriteDataStoresAndSaves : Prop :=
  ∀ (s : State) (b : Byte), s.Inv → 8 ≤ s.bc → s.bc < 8 + s.len.toNat → s.st &&& 0x1F#8 = 0#8 →
    ∃ t, exec (.wrByte b) s = .next t ∧
      Memory.read t.mem (effectiveAddress s.addr s.bc) = b ∧
      (∀ a, a ≠ effectiveAddress s.addr s.bc → Memory.read t.mem a = Memory.read s.mem a) ∧
      (s.cfg.backupEn = true →
        Memory.read t.bk (dataOffset s.bc) = Memory.read s.mem (effectiveAddress s.addr s.bc) ∧
        ∀ o, o ≠ dataOffset s.bc → Memory.read t.bk o = Memory.read s.bk o) ∧
      (s.cfg.backupEn = false → t.bk = s.bk)

/-- R78: a WR_BYTE at the checksum position. -/
def Obligations.WriteChecksumByte : Prop :=
  ∀ (s : State) (b : Byte), s.bc = 8 + s.len.toNat →
    exec (.wrByte b) s = .next { s with
      bc := s.bc + 1
      st := if b ≠ s.crc then (s.st &&& 0x7F#8) ||| 0x10#8 else s.st
      rdData := none }

/-- R79: a WR_BYTE in the drain phase. -/
def Obligations.WriteDrainByte : Prop :=
  ∀ (s : State) (b : Byte), 8 + s.len.toNat < s.bc →
    exec (.wrByte b) s = .next { s with
      bc := s.bc + 1, st := (s.st &&& 0x7F#8) ||| 0x08#8, rdData := none }

/-- R80: `BC` increments by one in every branch. -/
def Obligations.WriteAlwaysAdvances : Prop :=
  (∀ (s t : State) (b : Byte), exec (.wrByte b) s = .next t → t.bc = s.bc + 1) ∧
  (∀ (s : State) (b : Byte), s.Inv → ∃ t, exec (.wrByte b) s = .next t ∧ t.bc = s.bc + 1)

/-- R73, the frame: what a WR_BYTE leaves alone, byte by byte for the two spaces. -/
def Obligations.WriteByteFrame : Prop :=
  ∀ (s t : State) (b : Byte), Memory.wf s.mem = true → Memory.wf s.bk = true →
    exec (.wrByte b) s = .next t →
    SameOutside s t ∧ t.pend = s.pend ∧ t.rdData = none ∧
    (4 ≤ s.bc → t.len = s.len) ∧
    (¬ (4 ≤ s.bc ∧ s.bc < 8) → t.addr = s.addr) ∧
    (8 + s.len.toNat ≤ s.bc → t.crc = s.crc) ∧
    (∀ a, ¬ (phase s.bc s.len = .data ∧ s.st &&& 0x1F#8 = 0#8 ∧ a = effectiveAddress s.addr s.bc) →
      Memory.read t.mem a = Memory.read s.mem a) ∧
    (∀ o, ¬ (phase s.bc s.len = .data ∧ s.st &&& 0x1F#8 = 0#8 ∧ s.cfg.backupEn = true ∧
        o = dataOffset s.bc) →
      Memory.read t.bk o = Memory.read s.bk o)

/-! ## RD_BYTE -/

/-- R82: an RD_BYTE before the header is complete. -/
def Obligations.ReadInHeader : Prop :=
  ∀ s : State, s.bc < 8 →
    exec .rdByte s = .next { s with
      bc := s.bc + 1, crc := crcStep s.crc 0x00#8, st := (s.st &&& 0x7F#8) ||| 0x04#8,
      rdData := some 0x00#8 }

/-- R83: an RD_BYTE in the data phase, in the pseudocode's order of tests. -/
def Obligations.ReadDataByte : Prop :=
  ∀ s : State, 8 ≤ s.bc → s.bc < 8 + s.len.toNat →
    let ea := s.addr.toNat + (s.bc - 8)
    let serve (v st : Byte) : State :=
      { s with bc := s.bc + 1, crc := crcStep s.crc v, st := st, rdData := some v }
    exec .rdByte s = .next (
      if s.cfg.memSize ≤ ea then serve 0x00#8 ((s.st &&& 0x7F#8) ||| 0x01#8)
      else if s.addr = 0#32 ∧ s.len = 1#32 then
        serve s.st (if s.st &&& 0x1F#8 = 0#8 then 0x80#8 else s.st)
      else if s.st &&& 0x1F#8 ≠ 0#8 then serve 0x00#8 s.st
      else serve (Memory.read s.mem ea) s.st)

/-- R84: a read of one byte at address 0 serves `ST` as it stands and reasserts `Ok` only when no error flag is set;
with `MEM_SIZE = 0` the range test comes first. -/
def Obligations.StatusReadServesStatus : Prop :=
  ∀ s : State, s.bc = 8 → s.addr = 0#32 → s.len = 1#32 →
    (0 < s.cfg.memSize →
      exec .rdByte s = .next { s with
        bc := 9, crc := crcStep s.crc s.st,
        st := if s.st &&& 0x1F#8 = 0#8 then 0x80#8 else s.st, rdData := some s.st }) ∧
    (s.cfg.memSize = 0 →
      exec .rdByte s = .next { s with
        bc := 9, crc := crcStep s.crc 0#8, st := (s.st &&& 0x7F#8) ||| 0x01#8, rdData := some 0#8 })

/-- R85, R88: the checksum byte is `CRC`, and it is not folded. -/
def Obligations.ReadChecksumByte : Prop :=
  ∀ s : State, s.bc = 8 + s.len.toNat →
    exec .rdByte s = .next { s with bc := s.bc + 1, rdData := some s.crc }

/-- R87: the final RD_BYTE arms the restore, ends the transaction, or leaves its reset to PROCESS. -/
def Obligations.ReadFinalByte : Prop :=
  ∀ s : State, 8 + s.len.toNat < s.bc →
    let arms := s.st &&& 0x10#8 ≠ 0#8 ∧ s.cfg.backupEn = true ∧ s.st &&& 0x07#8 = 0#8
    (arms → exec .rdByte s = .next { s with
      pend := true, st := 0x20#8, rdData := some 0x20#8, bc := s.bc + 1 }) ∧
    (¬ arms → s.pend = false → exec .rdByte s = .next { s with
      rdData := some s.st, bc := 0, len := 0#32, addr := 0#32, crc := 0#8 }) ∧
    (¬ arms → s.pend = true → exec .rdByte s = .next { s with
      rdData := some s.st, bc := s.bc + 1 })

/-- R86: outside the final branch an RD_BYTE advances `BC` by one. -/
def Obligations.ReadAdvancesBeforeFinal : Prop :=
  ∀ s : State, s.bc ≤ 8 + s.len.toNat → ∃ t, exec .rdByte s = .next t ∧ t.bc = s.bc + 1

/-- R81, R46: an RD_BYTE completes in every state, emits exactly one byte, and changes neither byte space. -/
def Obligations.ReadByteFrame : Prop :=
  ∀ s : State, ∃ t v, exec .rdByte s = .next t ∧ t.rdData = some v ∧
    t.mem = s.mem ∧ t.bk = s.bk ∧ SameOutside s t ∧
    (s.bc ≤ 8 + s.len.toNat → t.len = s.len ∧ t.addr = s.addr ∧ t.pend = s.pend) ∧
    (8 + s.len.toNat = s.bc → t.crc = s.crc ∧ t.st = s.st)

/-! ## PROCESS and INIT -/

/-- R90: PROCESS performs the pending restore; with none pending it changes nothing (the port `rd_data` is not
driven, log 4). -/
def Obligations.ProcessPerformsRestore : Prop :=
  (∀ s : State, s.Inv → s.pend = true → ∃ t, exec .process s = .next t ∧
    (∀ i, i < s.len.toNat → Memory.read t.mem (s.addr.toNat + i) = Memory.read s.bk i) ∧
    (∀ a, ¬ (s.addr.toNat ≤ a ∧ a < s.addr.toNat + s.len.toNat) →
      Memory.read t.mem a = Memory.read s.mem a) ∧
    t.bk = s.bk ∧ t.pend = false ∧ t.bc = 0 ∧ t.len = 0#32 ∧ t.addr = 0#32 ∧ t.crc = 0#8 ∧
    t.st = 0x80#8 ∧ t.rdData = none ∧ SameOutside s t) ∧
  (∀ s : State, s.pend = false → exec .process s = .next { s with rdData := none })

/-- R91: INIT from any state. -/
def Obligations.InitResetsTheRegisters : Prop :=
  ∀ s : State, exec .init s = .next { s with
    bc := 0, len := 0#32, addr := 0#32, crc := 0#8, st := 0x80#8, pend := false, rdData := none }

/-- The reset values of R35 (power-on is an INIT, R114); the configuration is the model's choice (log 1) and nothing
is said of it. -/
def Obligations.ResetRegisterValues : Prop :=
  State.reset.bc = 0 ∧ State.reset.len = 0#32 ∧ State.reset.addr = 0#32 ∧ State.reset.crc = 0#8 ∧
  State.reset.st = 0x80#8 ∧ State.reset.pend = false

/-! ## Invariants -/

/-- The invariant holds at reset. -/
def Obligations.ResetMeetsInvariant : Prop := State.reset.Inv

/-- Every step keeps the invariant: event words, operations, controller calls with any transport and any host
steps among their events, and host-application accesses. -/
def Obligations.StepKeepsInvariant : Prop :=
  ∀ s t : State, s.Inv → step s = .next t → t.Inv

/-- R30: the values of `ST` in every reachable state. -/
def Obligations.ReachableStatusValues : Prop :=
  ∀ s : State, Reachable s →
    (s.st = 0x80#8 ∨ (s.st ≠ 0#8 ∧ s.st &&& 0xE0#8 = 0#8) ∨ s.st = 0x20#8 ∨ s.st = 0x28#8) ∧
    (s.st.getLsbD 7 = true → s.st = 0x80#8) ∧ s.st ≠ 0x00#8

/-- R36: an idle block has cleared counters, so the byte-lane writes of the header are OR-accumulation. -/
def Obligations.ReachableIdleCountersAreZero : Prop :=
  ∀ s : State, Reachable s →
    (s.bc = 0 → s.pend = false → s.len = 0#32 ∧ s.addr = 0#32 ∧ s.crc = 0#8) ∧
    (∀ b : Byte, s.bc < 4 → setLane s.len s.bc b = s.len ||| (b.setWidth 32 <<< (8 * s.bc))) ∧
    (∀ b : Byte, 4 ≤ s.bc → s.bc < 8 →
      setLane s.addr (s.bc - 4) b = s.addr ||| (b.setWidth 32 <<< (8 * (s.bc - 4))))

/-- R37: what holds while a restore is pending. -/
def Obligations.ReachablePendingRestore : Prop :=
  ∀ s : State, Reachable s → s.pend = true →
    s.cfg.backupEn = true ∧ s.len.toNat ≤ s.cfg.bkSize ∧
    s.addr.toNat + s.len.toNat < s.cfg.memSize ∧
    9 + s.len.toNat ≤ s.bc ∧ phase s.bc s.len = .drain ∧ s.bc ≠ 0 ∧
    (s.st = 0x20#8 ∨ s.st = 0x28#8)

/-- R42, R43: no step, and no run of any length, from a state with the invariant makes the block access a byte outside
`MEM` or `BK`, and every reachable state has the invariant; a fault can only be the host application's own access (log
10). -/
def Obligations.BlockNeverLeavesItsBuffers : Prop :=
  (∀ s : State, s.Inv → ∀ f : Fault, step s = .fault f → f.ofBlock = false) ∧
  (∀ s : State, s.Inv → SafeRun s) ∧
  (∀ s : State, Reachable s → s.Inv)

/-- R99: from the invariant every event completes. -/
def Obligations.EventsNeverStop : Prop :=
  ∀ (s : State) (i : Instr), s.Inv → isEvent i = true → ∃ t, exec i s = .next t ∧ t.Inv

/-- Every well-formed controller call completes, whatever the transport does, when the host steps among its events
name bytes that exist. -/
def Obligations.ControllerCallsComplete : Prop :=
  ∀ (s : State) (i : Instr), s.Inv → s.hostStepsInside → isEvent i = false → i.wellFormed = true →
    ∃ t, exec i s = .next t ∧ t.Inv

/-- R32: no step changes the configuration. -/
def Obligations.ConfigurationNeverChanges : Prop :=
  ∀ s t : State, step s = .next t → t.cfg = s.cfg

/-- R89: among the events only the final RD_BYTE queues a restore, under R87's condition, and only PROCESS and INIT
take it out of the queue. -/
def Obligations.RestoreQueuedOnlyByFinalRead : Prop :=
  ∀ (s t : State) (i : Instr), isEvent i = true → exec i s = .next t →
    (s.pend = false → t.pend = true →
      i = .rdByte ∧ 8 + s.len.toNat < s.bc ∧ s.st &&& 0x10#8 ≠ 0#8 ∧ s.cfg.backupEn = true ∧
      s.st &&& 0x07#8 = 0#8 ∧ t.st = 0x20#8 ∧ t.len = s.len ∧ t.addr = s.addr) ∧
    (s.pend = true → t.pend = false → i = .process ∨ i = .init)

/-- R105: `ST` returns to `0x80` in four cases only. -/
def Obligations.OkReturnsInFourCases : Prop :=
  ∀ (s t : State) (i : Instr), isEvent i = true → exec i s = .next t →
    s.st ≠ 0x80#8 → t.st = 0x80#8 →
    (∃ b, i = .wrByte b ∧ s.bc = 0) ∨
    (i = .rdByte ∧ phase s.bc s.len = .data ∧ s.addr = 0#32 ∧ s.len = 1#32 ∧ s.st &&& 0x1F#8 = 0#8) ∨
    (i = .process ∧ s.pend = true) ∨ i = .init

/-! ## Hazards -/

/-- R118, R115: the busy window, and its end when the host does its duty. -/
def Obligations.BusyWindowSwallowsBytes : Prop :=
  (∀ s : State, s.Inv → s.pend = true →
    (∀ b : Byte, exec (.wrByte b) s = .next { s with bc := s.bc + 1, st := 0x28#8, rdData := none }) ∧
    exec .rdByte s = .next { s with bc := s.bc + 1, rdData := some s.st } ∧
    (s.st = 0x20#8 ∨ s.st = 0x28#8)) ∧
  (∀ s : State, s.Inv → s.pend = true → s.HostDuty →
    ∃ k t, Host.Core.run Sys2Proof.core k s = .next t ∧ t.pend = false)

/-- R118, program P3: a status read in the busy window returns `0x10` and changes only `ST` and `BC` of the block; its
eleven events are those of R95's pseudocode (log 14). -/
def Obligations.StatusPollWhileBusy : Prop :=
  ∀ (s : State) (p : PeerHandle), s.Inv → s.reliable → s.pend = true →
    exec (.cReadStatus p) s = .next { s with
      bc := s.bc + 11, st := 0x28#8, rdData := some 0x28#8, ctlStatus := some 0x10#8,
      transport := s.transport.drop 4 }

/-- R119: with no restore pending or about to be armed, RD_BYTE events alone bring the block back to `BC = 0`, in
`max(0, 9 + LEN - BC) + 1` events and not sooner. -/
def Obligations.ReadsAloneEndTheTransaction : Prop :=
  ∀ s : State, s.Inv → s.pend = false →
    ¬ (s.st &&& 0x10#8 ≠ 0#8 ∧ s.cfg.backupEn = true ∧ s.st &&& 0x07#8 = 0#8) →
    let k := 9 + s.len.toNat - s.bc + 1
    (∃ t, runWords (List.replicate k 0x100#10) s = .next t ∧ t.bc = 0 ∧ t.pend = false) ∧
    ∀ j, j < k → ∃ t, runWords (List.replicate j 0x100#10) s = .next t ∧ t.bc = s.bc + j

/-- R126: an unflagged data position lies below the last byte of the region, and no event changes that byte. -/
def Obligations.LastByteIsNeverReached : Prop :=
  (∀ s : State, s.Inv → 8 ≤ s.bc → s.bc < 8 + s.len.toNat → s.st &&& 0x1F#8 = 0#8 →
    effectiveAddress s.addr s.bc + 1 < s.cfg.memSize) ∧
  (∀ (s t : State) (i : Instr), s.Inv → isEvent i = true → exec i s = .next t →
    Memory.read t.mem (s.cfg.memSize - 1) = Memory.read s.mem (s.cfg.memSize - 1))

/-! ## The machine's step and the host application -/

/-- A step runs the decoded event word, an operation, or nothing (00_scope.md R6, 60_exceptions.md R112; the queue is
log 3). -/
def Obligations.StepRunsTheDeliveredInput : Prop :=
  ∀ (s : State) (rest : List Input),
    (∀ (w : EvWord) (i : Instr), s.inputs = .word w :: rest → decode w = .ok i →
      step s = exec i { s with inputs := rest }) ∧
    (∀ i : Instr, s.inputs = .op i :: rest → step s = exec i { s with inputs := rest }) ∧
    (s.inputs = [] → step s = .next s)

/-- R51: the host application's accesses to its buffers between events; outside them they fault (log 10). -/
def Obligations.ApplicationAccesses : Prop :=
  ∀ (s : State) (rest : List Input) (a : Nat) (v : Byte),
    (s.inputs = .app (.writeMem a v) :: rest → a < s.cfg.memSize →
      step s = .next { s with inputs := rest, mem := Memory.write s.mem a v }) ∧
    (s.inputs = .app (.readMem a) :: rest → a < s.cfg.memSize →
      step s = .next { s with inputs := rest, appOut := some (Memory.read s.mem a) }) ∧
    (s.inputs = .app (.writeBk a v) :: rest → s.cfg.backupEn = true → a < s.cfg.bkSize →
      step s = .next { s with inputs := rest, bk := Memory.write s.bk a v }) ∧
    (s.inputs = .app (.readBk a) :: rest → s.cfg.backupEn = true → a < s.cfg.bkSize →
      step s = .next { s with inputs := rest, appOut := some (Memory.read s.bk a) }) ∧
    (s.inputs = .app (.readMem a) :: rest → s.cfg.memSize ≤ a → step s = .fault (.appMemOutside a)) ∧
    (s.inputs = .app (.writeMem a v) :: rest → s.cfg.memSize ≤ a →
      step s = .fault (.appMemOutside a)) ∧
    (s.inputs = .app (.readBk a) :: rest → s.cfg.backupEn = false ∨ s.cfg.bkSize ≤ a →
      step s = .fault (.appBkOutside a)) ∧
    (s.inputs = .app (.writeBk a v) :: rest → s.cfg.backupEn = false ∨ s.cfg.bkSize ≤ a →
      step s = .fault (.appBkOutside a))

/-! ## The controller's procedures -/

/-- R94: on a reliable transport C_WRITE is its event stream, and returns the byte the last event emits. -/
def Obligations.WriteCallIsItsEventStream : Prop :=
  ∀ (s t : State) (p : PeerHandle) (a : U32) (data : List Byte) (n : U32) (inj : Bool),
    (Instr.cWrite p a data n inj).wellFormed = true → s.reliable →
    runWords (encode (.cWrite p a data n inj)) s = .next t →
    exec (.cWrite p a data n inj) s = .next { t with
      inputs := s.inputs, transport := s.transport.drop 2, ctlStatus := t.rdData }

/-- A correct write inside the bounds from a quiescent block (95_test_vectors.md W2, W8): `Ok`, the bytes stored (`data`,
or zeros when `data` is empty), the old bytes saved, everything else unchanged. -/
def Obligations.GoodWriteStoresItsData : Prop :=
  ∀ (s : State) (p : PeerHandle) (a : U32) (data : List Byte) (n : U32),
    s.Inv → s.quiescent → s.reliable → (Instr.cWrite p a data n false).wellFormed = true →
    a.toNat + n.toNat < s.cfg.memSize → (s.cfg.backupEn = true → n.toNat ≤ s.cfg.bkSize) →
    ∃ t, exec (.cWrite p a data n false) s = .next t ∧
      t.ctlStatus = some 0x80#8 ∧ t.st = 0x80#8 ∧ t.quiescent ∧
      (∀ i, i < n.toNat → Memory.read t.mem (a.toNat + i) =
        if data = [] then 0x00#8 else data.getD i 0#8) ∧
      (∀ x, ¬ (a.toNat ≤ x ∧ x < a.toNat + n.toNat) → Memory.read t.mem x = Memory.read s.mem x) ∧
      (s.cfg.backupEn = true →
        ∀ i, i < n.toNat → Memory.read t.bk i = Memory.read s.mem (a.toNat + i)) ∧
      (∀ o, n.toNat ≤ o → Memory.read t.bk o = Memory.read s.bk o) ∧
      (s.cfg.backupEn = false → t.bk = s.bk)

/-- A write outside the bounds or longer than the backup buffer (95_test_vectors.md W3, W5): the flags come back, and
neither space changes, with a bad checksum too. -/
def Obligations.RejectedWriteTouchesNothing : Prop :=
  ∀ (s : State) (p : PeerHandle) (a : U32) (data : List Byte) (n : U32) (inj : Bool),
    s.Inv → s.quiescent → s.reliable → (Instr.cWrite p a data n inj).wellFormed = true →
    headerFlags s.cfg n a ≠ 0#8 →
    ∃ t, exec (.cWrite p a data n inj) s = .next t ∧
      t.ctlStatus = some (headerFlags s.cfg n a ||| if inj then 0x10#8 else 0#8) ∧
      t.mem = s.mem ∧ t.bk = s.bk ∧ t.quiescent

/-- A corrupted write with backups on (95_test_vectors.md W4): `Busy`, then one PROCESS restores the memory exactly. -/
def Obligations.CorruptedWriteIsRestored : Prop :=
  ∀ (s : State) (p : PeerHandle) (a : U32) (data : List Byte) (n : U32),
    s.Inv → s.quiescent → s.reliable → (Instr.cWrite p a data n true).wellFormed = true →
    s.cfg.backupEn = true → headerFlags s.cfg n a = 0#8 →
    ∃ t u, exec (.cWrite p a data n true) s = .next t ∧ t.ctlStatus = some 0x20#8 ∧ t.pend = true ∧
      exec .process t = .next u ∧ u.mem = s.mem ∧ u.st = 0x80#8 ∧ u.quiescent

/-- R125: without backups the bytes of a corrupted write stay. -/
def Obligations.CorruptedWriteWithoutBackups : Prop :=
  ∀ (s : State) (p : PeerHandle) (a : U32) (data : List Byte) (n : U32),
    s.Inv → s.quiescent → s.reliable → (Instr.cWrite p a data n true).wellFormed = true →
    s.cfg.backupEn = false → headerFlags s.cfg n a = 0#8 →
    ∃ t, exec (.cWrite p a data n true) s = .next t ∧ t.ctlStatus = some 0x10#8 ∧ t.quiescent ∧
      (∀ i, i < n.toNat → Memory.read t.mem (a.toNat + i) =
        if data = [] then 0x00#8 else data.getD i 0#8) ∧
      (∀ x, ¬ (a.toNat ≤ x ∧ x < a.toNat + n.toNat) → Memory.read t.mem x = Memory.read s.mem x) ∧
      ∃ u, exec .process t = .next u ∧ u.mem = t.mem

/-- A correct read inside the bounds from a quiescent block (R95, 95_test_vectors.md W2): the memory's bytes and `Ok`. -/
def Obligations.ReadReturnsTheMemory : Prop :=
  ∀ (s : State) (p : PeerHandle) (a : U32) (buf : List Byte) (n : U32),
    s.Inv → s.quiescent → s.reliable → (Instr.cRead p a buf n).wellFormed = true →
    headerFlags s.cfg n a = 0#8 → ¬ (a = 0#32 ∧ n = 1#32) →
    ∃ t, exec (.cRead p a buf n) s = .next t ∧ t.ctlStatus = some 0x80#8 ∧
      t.ctlBuf = (List.range n.toNat).map (fun i => Memory.read s.mem (a.toNat + i)) ++
        buf.drop n.toNat ∧
      t.mem = s.mem ∧ t.bk = s.bk ∧ t.quiescent

/-- R127 and the bounds test of R76: a read that the header flags reads zeros and returns the flags. -/
def Obligations.FlaggedReadReturnsZeros : Prop :=
  ∀ (s : State) (p : PeerHandle) (a : U32) (buf : List Byte) (n : U32),
    s.Inv → s.quiescent → s.reliable → (Instr.cRead p a buf n).wellFormed = true →
    headerFlags s.cfg n a ≠ 0#8 → ¬ (a = 0#32 ∧ n = 1#32) →
    ∃ t, exec (.cRead p a buf n) s = .next t ∧ t.ctlStatus = some (headerFlags s.cfg n a) ∧
      t.ctlBuf = List.replicate n.toNat 0#8 ++ buf.drop n.toNat ∧
      t.mem = s.mem ∧ t.bk = s.bk ∧ t.quiescent

/-- R96, R84: C_READSTATUS is the read of one byte at address 0 into a scratch byte; from a quiescent block it returns
`0x80`, whatever an earlier transaction left in `ST`; and C_READ of one byte at address 0 puts `ST` in the caller's
buffer: `0x80`, or the flags of its own header, and 0 when there is no memory at all (92 D29). -/
def Obligations.StatusReadCall : Prop :=
  (∀ (s t : State) (p : PeerHandle), exec (.cRead p 0#32 [0#8] 1#32) s = .next t →
    exec (.cReadStatus p) s = .next { t with ctlBuf := s.ctlBuf }) ∧
  (∀ (s : State) (p : PeerHandle), s.Inv → s.quiescent → s.reliable → 1 < s.cfg.memSize →
    (s.cfg.backupEn = true → 1 ≤ s.cfg.bkSize) →
    ∃ t, exec (.cReadStatus p) s = .next t ∧ t.ctlStatus = some 0x80#8 ∧ t.st = 0x80#8 ∧
      t.quiescent ∧ t.mem = s.mem ∧ t.bk = s.bk) ∧
  (∀ (s : State) (p : PeerHandle) (buf : List Byte), s.Inv → s.quiescent → s.reliable → 1 ≤ buf.length →
    let flags := headerFlags s.cfg 1#32 0#32
    let status : Byte := if flags = 0#8 then 0x80#8 else flags
    ∃ t, exec (.cRead p 0#32 buf 1#32) s = .next t ∧ t.ctlStatus = some status ∧ t.st = status ∧
      t.ctlBuf = (if s.cfg.memSize = 0 then 0x00#8 else status) :: buf.drop 1 ∧
      t.quiescent ∧ t.mem = s.mem ∧ t.bk = s.bk)

/-- R93, R94, R95, R97, 92 D26: a failed transport primitive delivered the first events of its own, in number those that
`failAfter` says, after all of the primitives before it, and the call returns `0x00`; only the discarding read after a
checksum mismatch is ignored, and the call returns `0x10`. The contents of the caller's buffer after a failed read of the
data bytes are the model's choice (log 7). -/
def Obligations.TransportFailureReturnsZero : Prop :=
  ∀ (s t : State) (p : PeerHandle) (n a : U32) (k : Nat) (lv : List Byte) (cs : List Carriage),
    let fails : Carriage := { failAfter := some k, leaves := lv, between := [] }
    let header := (headerBytes n a).map wrWord
    let reads (m : Nat) : List EvWord := List.replicate m 0x100#10
    let back (v : Byte) : State :=
      { t with inputs := s.inputs, transport := cs, ctlStatus := some v }
    (∀ (data : List Byte) (inj : Bool), (Instr.cWrite p a data n inj).wellFormed = true →
      let frame := (writeFrame n a (payload data n) inj).map wrWord
      (s.transport = fails :: cs → runWords (frame.take k) s = .next t →
        exec (.cWrite p a data n inj) s = .next (back 0x00#8)) ∧
      (s.transport = Carriage.plain :: fails :: cs →
        runWords (frame ++ reads (min k 1)) s = .next t →
        exec (.cWrite p a data n inj) s = .next (back 0x00#8))) ∧
    (∀ buf : List Byte, (Instr.cRead p a buf n).wellFormed = true →
      let ds := (List.range n.toNat).map fun i => (emitted (header ++ reads (i + 1)) s).getD 0#8
      let check := (emitted (header ++ reads (n.toNat + 1)) s).getD 0#8
      (s.transport = fails :: cs → runWords (header.take k) s = .next t →
        exec (.cRead p a buf n) s = .next { back 0x00#8 with ctlBuf := buf }) ∧
      (s.transport = Carriage.plain :: fails :: cs →
        runWords (header ++ reads (min k n.toNat)) s = .next t →
        exec (.cRead p a buf n) s = .next { back 0x00#8 with
          ctlBuf := lv.take n.toNat ++ buf.drop (lv.take n.toNat).length }) ∧
      (s.transport = Carriage.plain :: Carriage.plain :: fails :: cs →
        runWords (header ++ reads (n.toNat + min k 1)) s = .next t →
        exec (.cRead p a buf n) s = .next { back 0x00#8 with ctlBuf := ds ++ buf.drop n.toNat }) ∧
      (s.transport = Carriage.plain :: Carriage.plain :: Carriage.plain :: fails :: cs →
        runWords (header ++ reads (n.toNat + 1 + min k 1)) s = .next t →
        exec (.cRead p a buf n) s = .next {
          back (if check = crc8 ds (crc8 (headerBytes n a) 0#8) then 0x00#8 else 0x10#8) with
          ctlBuf := ds ++ buf.drop n.toNat }))

/-- A call outside its contract is refused by name (R94, 92 D26, 93 F6; R95, log 11). -/
def Obligations.IllFormedCallsAreRefused : Prop :=
  (∀ (s : State) (p : PeerHandle) (a : U32) (data : List Byte) (n : U32) (inj : Bool),
    data ≠ [] → data.length < n.toNat → exec (.cWrite p a data n inj) s = .refused .dataTooShort) ∧
  (∀ (s : State) (p : PeerHandle) (a : U32) (buf : List Byte) (n : U32),
    buf.length < n.toNat → exec (.cRead p a buf n) s = .refused .bufferTooShort)
end

