-- ==== Sys2Proof/Laws/Memory.lean ====
section
/-! SUPPORT. The laws of a byte space: reading after writing, and the canonical form that writing keeps. -/

namespace Sys2Proof.Machine

@[simp] theorem Memory.read_nil (a : Nat) : Memory.read [] a = Memory.unlisted := rfl

@[simp] theorem Memory.wf_nil : Memory.wf [] = true := rfl

@[simp] theorem Memory.below_nil (n : Nat) : Memory.below [] n = true := rfl

theorem Memory.wf_cons {k : Nat} {v : Byte} {m : Memory} :
    Memory.wf ((k, v) :: m) = true ↔
      v ≠ Memory.unlisted ∧ (∀ c ∈ m, k < c.1) ∧ Memory.wf m = true := by
  simp [Memory.wf, and_assoc]

theorem Memory.below_iff {m : Memory} {n : Nat} :
    Memory.below m n = true ↔ ∀ c ∈ m, c.1 < n := by
  simp [Memory.below]

/-- An address below every listed one is unlisted. -/
theorem Memory.read_of_lt_all {m : Memory} {a : Nat} (h : ∀ c ∈ m, a < c.1) :
    Memory.read m a = Memory.unlisted := by
  cases m with
  | nil => rfl
  | cons c m => simp [Memory.read, h c (by simp)]

/-- An address not below the size of the space is unlisted. -/
theorem Memory.read_of_below {m : Memory} {n a : Nat} (h : Memory.below m n = true) (ha : n ≤ a) :
    Memory.read m a = Memory.unlisted := by
  induction m with
  | nil => rfl
  | cons c m ih =>
    rw [Memory.below_iff] at h
    have hc := h c (by simp)
    have := ih (Memory.below_iff.2 fun d hd => h d (by simp [hd]))
    simp only [Memory.read]
    rw [if_neg (by omega), if_neg (by omega), this]

theorem Memory.mem_cons_cell {a : Nat} {v : Byte} {m : Memory} {c : Host.Cell}
    (h : c ∈ Memory.cons a v m) : c = (a, v) ∨ c ∈ m := by
  unfold Memory.cons at h
  split at h <;> simp_all

theorem Memory.mem_write_cell {m : Memory} {a : Nat} {v : Byte} {c : Host.Cell}
    (h : c ∈ Memory.write m a v) : c = (a, v) ∨ c ∈ m := by
  induction m with
  | nil => exact Memory.mem_cons_cell h
  | cons d m ih =>
    simp only [Memory.write] at h
    split at h
    · exact Memory.mem_cons_cell h
    · split at h
      · rcases Memory.mem_cons_cell h with h | h <;> simp [h]
      · rcases List.mem_cons.1 h with h | h
        · simp [h]
        · rcases ih h with h | h <;> simp [h]

theorem Memory.wf_consCell {m : Memory} {a : Nat} {v : Byte} (hm : Memory.wf m = true)
    (ha : ∀ c ∈ m, a < c.1) : Memory.wf (Memory.cons a v m) = true := by
  unfold Memory.cons
  split
  · exact hm
  · exact Memory.wf_cons.2 ⟨by assumption, ha, hm⟩

/-- Writing keeps the canonical form. -/
theorem Memory.write_wf {m : Memory} (h : Memory.wf m = true) (a : Nat) (v : Byte) :
    Memory.wf (Memory.write m a v) = true := by
  induction m with
  | nil => exact Memory.wf_consCell rfl (by simp)
  | cons d m ih =>
    obtain ⟨hv, hlt, hm⟩ := Memory.wf_cons.1 h
    simp only [Memory.write]
    split
    · next hlt' =>
      refine Memory.wf_consCell h fun c hc => ?_
      rcases List.mem_cons.1 hc with rfl | hc
      · exact hlt'
      · exact hlt'.trans (hlt c hc)
    · split
      · next he => exact Memory.wf_consCell hm (he ▸ hlt)
      · refine Memory.wf_cons.2 ⟨hv, fun c hc => ?_, ih hm⟩
        rcases Memory.mem_write_cell hc with rfl | hc
        · show d.1 < a
          omega
        · exact hlt c hc

/-- Writing inside the space keeps every cell inside it. -/
theorem Memory.write_below {m : Memory} {n a : Nat} (h : Memory.below m n = true) (ha : a < n)
    (v : Byte) : Memory.below (Memory.write m a v) n = true := by
  rw [Memory.below_iff] at h ⊢
  intro c hc
  rcases Memory.mem_write_cell hc with rfl | hc
  · exact ha
  · exact h c hc

theorem Memory.read_consCell {m : Memory} {a x : Nat} {v : Byte} (ha : ∀ c ∈ m, a < c.1) :
    Memory.read (Memory.cons a v m) x = if x = a then v else Memory.read m x := by
  unfold Memory.cons
  split
  · next hv =>
    split
    · next hx => rw [hx, hv, Memory.read_of_lt_all ha]
    · rfl
  · simp only [Memory.read]
    by_cases hx : x < a
    · rw [if_pos hx, if_neg (by omega), Memory.read_of_lt_all fun c hc => hx.trans (ha c hc)]
    · rw [if_neg hx]

/-- One byte changes: the byte written reads as written, every other byte as before. -/
theorem Memory.read_write {m : Memory} (h : Memory.wf m = true) (a x : Nat) (v : Byte) :
    Memory.read (Memory.write m a v) x = if x = a then v else Memory.read m x := by
  induction m with
  | nil => exact Memory.read_consCell (by simp)
  | cons d m ih =>
    obtain ⟨hv, hlt, hm⟩ := Memory.wf_cons.1 h
    simp only [Memory.write]
    split
    · next hlt' =>
      refine Memory.read_consCell fun c hc => ?_
      rcases List.mem_cons.1 hc with rfl | hc
      · exact hlt'
      · exact hlt'.trans (hlt c hc)
    · split
      · next he =>
        rw [Memory.read_consCell (he ▸ hlt)]
        simp only [Memory.read]
        split
        · rfl
        · next hx =>
          by_cases hxd : x < d.1
          · rw [if_pos hxd, Memory.read_of_lt_all fun c hc => hxd.trans (hlt c hc)]
          · rw [if_neg hxd, if_neg (by omega)]
      · simp only [Memory.read, ih hm]
        repeat' split
        all_goals first | rfl | omega

@[simp] theorem Memory.read_write_same {m : Memory} (h : Memory.wf m = true) (a : Nat) (v : Byte) :
    Memory.read (Memory.write m a v) a = v := by
  simp [Memory.read_write h]

theorem Memory.read_write_other {m : Memory} (h : Memory.wf m = true) {a x : Nat} (hx : x ≠ a)
    (v : Byte) : Memory.read (Memory.write m a v) x = Memory.read m x := by
  simp [Memory.read_write h, hx]

/-- Equal memories are equal data: two canonical spaces that read alike are one list. -/
theorem Memory.ext_read {m m' : Memory} (h : Memory.wf m = true) (h' : Memory.wf m' = true)
    (he : ∀ a, Memory.read m a = Memory.read m' a) : m = m' := by
  induction m generalizing m' with
  | nil =>
    cases m' with
    | nil => rfl
    | cons d m' =>
      have := he d.1
      simp only [Memory.read, Nat.lt_irrefl, if_false, if_true] at this
      exact absurd this.symm (Memory.wf_cons.1 h').1
  | cons c m ih =>
    obtain ⟨hv, hlt, hm⟩ := Memory.wf_cons.1 h
    cases m' with
    | nil =>
      have := he c.1
      simp only [Memory.read, Nat.lt_irrefl, if_false, if_true] at this
      exact absurd this hv
    | cons d m' =>
      obtain ⟨hv', hlt', hm'⟩ := Memory.wf_cons.1 h'
      have hcd : c.1 = d.1 := by
        rcases Nat.lt_trichotomy c.1 d.1 with hl | hl | hl
        · have := he c.1
          simp only [Memory.read, Nat.lt_irrefl, if_false, if_true, if_pos hl] at this
          exact absurd this hv
        · exact hl
        · have := he d.1
          simp only [Memory.read, Nat.lt_irrefl, if_false, if_true, if_pos hl] at this
          exact absurd this.symm hv'
      have hval : c.2 = d.2 := by
        have := he c.1
        simpa only [Memory.read, Nat.lt_irrefl, if_false, if_true, hcd] using this
      have htail : m = m' := by
        refine ih hm hm' fun a => ?_
        by_cases ha : a ≤ c.1
        · rw [Memory.read_of_lt_all fun e he' => Nat.lt_of_le_of_lt ha (hlt e he'),
            Memory.read_of_lt_all fun e he' => Nat.lt_of_le_of_lt (hcd ▸ ha) (hlt' e he')]
        · have := he a
          simpa only [Memory.read, if_neg (show ¬ a < c.1 by omega), if_neg (show ¬ a = c.1 by omega),
            if_neg (show ¬ a < d.1 by omega), if_neg (show ¬ a = d.1 by omega)] using this
      rw [htail, Prod.ext hcd hval]

end Sys2Proof.Machine
end

