-- ==== Sys2Proof/Laws/State.lean ====
section
/-! SUPPORT. One lemma per field per update of the state, each true by definition. -/

namespace Sys2Proof.Machine

/-! ## fold -/

@[simp] theorem State.fold_cfg (b : Byte) (s : State) : (s.fold b).cfg = s.cfg := (rfl)
@[simp] theorem State.fold_bc (b : Byte) (s : State) : (s.fold b).bc = s.bc := (rfl)
@[simp] theorem State.fold_len (b : Byte) (s : State) : (s.fold b).len = s.len := (rfl)
@[simp] theorem State.fold_addr (b : Byte) (s : State) : (s.fold b).addr = s.addr := (rfl)
@[simp] theorem State.fold_crc (b : Byte) (s : State) : (s.fold b).crc = crcStep s.crc b := (rfl)
@[simp] theorem State.fold_st (b : Byte) (s : State) : (s.fold b).st = s.st := (rfl)
@[simp] theorem State.fold_pend (b : Byte) (s : State) : (s.fold b).pend = s.pend := (rfl)
@[simp] theorem State.fold_mem (b : Byte) (s : State) : (s.fold b).mem = s.mem := (rfl)
@[simp] theorem State.fold_bk (b : Byte) (s : State) : (s.fold b).bk = s.bk := (rfl)
@[simp] theorem State.fold_rdData (b : Byte) (s : State) : (s.fold b).rdData = s.rdData := (rfl)
@[simp] theorem State.fold_crcOut (b : Byte) (s : State) : (s.fold b).crcOut = s.crcOut := (rfl)
@[simp] theorem State.fold_appOut (b : Byte) (s : State) : (s.fold b).appOut = s.appOut := (rfl)
@[simp] theorem State.fold_ctlStatus (b : Byte) (s : State) : (s.fold b).ctlStatus = s.ctlStatus := (rfl)
@[simp] theorem State.fold_ctlBuf (b : Byte) (s : State) : (s.fold b).ctlBuf = s.ctlBuf := (rfl)
@[simp] theorem State.fold_inputs (b : Byte) (s : State) : (s.fold b).inputs = s.inputs := (rfl)
@[simp] theorem State.fold_transport (b : Byte) (s : State) : (s.fold b).transport = s.transport := (rfl)

/-! ## setLenLane -/

@[simp] theorem State.setLenLane_cfg (k : Nat) (b : Byte) (s : State) : (s.setLenLane k b).cfg = s.cfg := (rfl)
@[simp] theorem State.setLenLane_bc (k : Nat) (b : Byte) (s : State) : (s.setLenLane k b).bc = s.bc := (rfl)
@[simp] theorem State.setLenLane_len (k : Nat) (b : Byte) (s : State) : (s.setLenLane k b).len = setLane s.len k b := (rfl)
@[simp] theorem State.setLenLane_addr (k : Nat) (b : Byte) (s : State) : (s.setLenLane k b).addr = s.addr := (rfl)
@[simp] theorem State.setLenLane_crc (k : Nat) (b : Byte) (s : State) : (s.setLenLane k b).crc = s.crc := (rfl)
@[simp] theorem State.setLenLane_st (k : Nat) (b : Byte) (s : State) : (s.setLenLane k b).st = s.st := (rfl)
@[simp] theorem State.setLenLane_pend (k : Nat) (b : Byte) (s : State) : (s.setLenLane k b).pend = s.pend := (rfl)
@[simp] theorem State.setLenLane_mem (k : Nat) (b : Byte) (s : State) : (s.setLenLane k b).mem = s.mem := (rfl)
@[simp] theorem State.setLenLane_bk (k : Nat) (b : Byte) (s : State) : (s.setLenLane k b).bk = s.bk := (rfl)
@[simp] theorem State.setLenLane_rdData (k : Nat) (b : Byte) (s : State) : (s.setLenLane k b).rdData = s.rdData := (rfl)
@[simp] theorem State.setLenLane_crcOut (k : Nat) (b : Byte) (s : State) : (s.setLenLane k b).crcOut = s.crcOut := (rfl)
@[simp] theorem State.setLenLane_appOut (k : Nat) (b : Byte) (s : State) : (s.setLenLane k b).appOut = s.appOut := (rfl)
@[simp] theorem State.setLenLane_ctlStatus (k : Nat) (b : Byte) (s : State) : (s.setLenLane k b).ctlStatus = s.ctlStatus := (rfl)
@[simp] theorem State.setLenLane_ctlBuf (k : Nat) (b : Byte) (s : State) : (s.setLenLane k b).ctlBuf = s.ctlBuf := (rfl)
@[simp] theorem State.setLenLane_inputs (k : Nat) (b : Byte) (s : State) : (s.setLenLane k b).inputs = s.inputs := (rfl)
@[simp] theorem State.setLenLane_transport (k : Nat) (b : Byte) (s : State) : (s.setLenLane k b).transport = s.transport := (rfl)

/-! ## setAddrLane -/

@[simp] theorem State.setAddrLane_cfg (k : Nat) (b : Byte) (s : State) : (s.setAddrLane k b).cfg = s.cfg := (rfl)
@[simp] theorem State.setAddrLane_bc (k : Nat) (b : Byte) (s : State) : (s.setAddrLane k b).bc = s.bc := (rfl)
@[simp] theorem State.setAddrLane_len (k : Nat) (b : Byte) (s : State) : (s.setAddrLane k b).len = s.len := (rfl)
@[simp] theorem State.setAddrLane_addr (k : Nat) (b : Byte) (s : State) : (s.setAddrLane k b).addr = setLane s.addr k b := (rfl)
@[simp] theorem State.setAddrLane_crc (k : Nat) (b : Byte) (s : State) : (s.setAddrLane k b).crc = s.crc := (rfl)
@[simp] theorem State.setAddrLane_st (k : Nat) (b : Byte) (s : State) : (s.setAddrLane k b).st = s.st := (rfl)
@[simp] theorem State.setAddrLane_pend (k : Nat) (b : Byte) (s : State) : (s.setAddrLane k b).pend = s.pend := (rfl)
@[simp] theorem State.setAddrLane_mem (k : Nat) (b : Byte) (s : State) : (s.setAddrLane k b).mem = s.mem := (rfl)
@[simp] theorem State.setAddrLane_bk (k : Nat) (b : Byte) (s : State) : (s.setAddrLane k b).bk = s.bk := (rfl)
@[simp] theorem State.setAddrLane_rdData (k : Nat) (b : Byte) (s : State) : (s.setAddrLane k b).rdData = s.rdData := (rfl)
@[simp] theorem State.setAddrLane_crcOut (k : Nat) (b : Byte) (s : State) : (s.setAddrLane k b).crcOut = s.crcOut := (rfl)
@[simp] theorem State.setAddrLane_appOut (k : Nat) (b : Byte) (s : State) : (s.setAddrLane k b).appOut = s.appOut := (rfl)
@[simp] theorem State.setAddrLane_ctlStatus (k : Nat) (b : Byte) (s : State) : (s.setAddrLane k b).ctlStatus = s.ctlStatus := (rfl)
@[simp] theorem State.setAddrLane_ctlBuf (k : Nat) (b : Byte) (s : State) : (s.setAddrLane k b).ctlBuf = s.ctlBuf := (rfl)
@[simp] theorem State.setAddrLane_inputs (k : Nat) (b : Byte) (s : State) : (s.setAddrLane k b).inputs = s.inputs := (rfl)
@[simp] theorem State.setAddrLane_transport (k : Nat) (b : Byte) (s : State) : (s.setAddrLane k b).transport = s.transport := (rfl)

/-! ## advance -/

@[simp] theorem State.advance_cfg (s : State) : s.advance.cfg = s.cfg := (rfl)
@[simp] theorem State.advance_bc (s : State) : s.advance.bc = s.bc + 1 := (rfl)
@[simp] theorem State.advance_len (s : State) : s.advance.len = s.len := (rfl)
@[simp] theorem State.advance_addr (s : State) : s.advance.addr = s.addr := (rfl)
@[simp] theorem State.advance_crc (s : State) : s.advance.crc = s.crc := (rfl)
@[simp] theorem State.advance_st (s : State) : s.advance.st = s.st := (rfl)
@[simp] theorem State.advance_pend (s : State) : s.advance.pend = s.pend := (rfl)
@[simp] theorem State.advance_mem (s : State) : s.advance.mem = s.mem := (rfl)
@[simp] theorem State.advance_bk (s : State) : s.advance.bk = s.bk := (rfl)
@[simp] theorem State.advance_rdData (s : State) : s.advance.rdData = s.rdData := (rfl)
@[simp] theorem State.advance_crcOut (s : State) : s.advance.crcOut = s.crcOut := (rfl)
@[simp] theorem State.advance_appOut (s : State) : s.advance.appOut = s.appOut := (rfl)
@[simp] theorem State.advance_ctlStatus (s : State) : s.advance.ctlStatus = s.ctlStatus := (rfl)
@[simp] theorem State.advance_ctlBuf (s : State) : s.advance.ctlBuf = s.ctlBuf := (rfl)
@[simp] theorem State.advance_inputs (s : State) : s.advance.inputs = s.inputs := (rfl)
@[simp] theorem State.advance_transport (s : State) : s.advance.transport = s.transport := (rfl)

/-! ## clearCounters -/

@[simp] theorem State.clearCounters_cfg (s : State) : s.clearCounters.cfg = s.cfg := (rfl)
@[simp] theorem State.clearCounters_bc (s : State) : s.clearCounters.bc = 0 := (rfl)
@[simp] theorem State.clearCounters_len (s : State) : s.clearCounters.len = 0#32 := (rfl)
@[simp] theorem State.clearCounters_addr (s : State) : s.clearCounters.addr = 0#32 := (rfl)
@[simp] theorem State.clearCounters_crc (s : State) : s.clearCounters.crc = 0#8 := (rfl)
@[simp] theorem State.clearCounters_st (s : State) : s.clearCounters.st = s.st := (rfl)
@[simp] theorem State.clearCounters_pend (s : State) : s.clearCounters.pend = s.pend := (rfl)
@[simp] theorem State.clearCounters_mem (s : State) : s.clearCounters.mem = s.mem := (rfl)
@[simp] theorem State.clearCounters_bk (s : State) : s.clearCounters.bk = s.bk := (rfl)
@[simp] theorem State.clearCounters_rdData (s : State) : s.clearCounters.rdData = s.rdData := (rfl)
@[simp] theorem State.clearCounters_crcOut (s : State) : s.clearCounters.crcOut = s.crcOut := (rfl)
@[simp] theorem State.clearCounters_appOut (s : State) : s.clearCounters.appOut = s.appOut := (rfl)
@[simp] theorem State.clearCounters_ctlStatus (s : State) : s.clearCounters.ctlStatus = s.ctlStatus := (rfl)
@[simp] theorem State.clearCounters_ctlBuf (s : State) : s.clearCounters.ctlBuf = s.ctlBuf := (rfl)
@[simp] theorem State.clearCounters_inputs (s : State) : s.clearCounters.inputs = s.inputs := (rfl)
@[simp] theorem State.clearCounters_transport (s : State) : s.clearCounters.transport = s.transport := (rfl)

/-! ## emit -/

@[simp] theorem State.emit_cfg (v : Byte) (s : State) : (s.emit v).cfg = s.cfg := (rfl)
@[simp] theorem State.emit_bc (v : Byte) (s : State) : (s.emit v).bc = s.bc := (rfl)
@[simp] theorem State.emit_len (v : Byte) (s : State) : (s.emit v).len = s.len := (rfl)
@[simp] theorem State.emit_addr (v : Byte) (s : State) : (s.emit v).addr = s.addr := (rfl)
@[simp] theorem State.emit_crc (v : Byte) (s : State) : (s.emit v).crc = s.crc := (rfl)
@[simp] theorem State.emit_st (v : Byte) (s : State) : (s.emit v).st = s.st := (rfl)
@[simp] theorem State.emit_pend (v : Byte) (s : State) : (s.emit v).pend = s.pend := (rfl)
@[simp] theorem State.emit_mem (v : Byte) (s : State) : (s.emit v).mem = s.mem := (rfl)
@[simp] theorem State.emit_bk (v : Byte) (s : State) : (s.emit v).bk = s.bk := (rfl)
@[simp] theorem State.emit_rdData (v : Byte) (s : State) : (s.emit v).rdData = some v := (rfl)
@[simp] theorem State.emit_crcOut (v : Byte) (s : State) : (s.emit v).crcOut = s.crcOut := (rfl)
@[simp] theorem State.emit_appOut (v : Byte) (s : State) : (s.emit v).appOut = s.appOut := (rfl)
@[simp] theorem State.emit_ctlStatus (v : Byte) (s : State) : (s.emit v).ctlStatus = s.ctlStatus := (rfl)
@[simp] theorem State.emit_ctlBuf (v : Byte) (s : State) : (s.emit v).ctlBuf = s.ctlBuf := (rfl)
@[simp] theorem State.emit_inputs (v : Byte) (s : State) : (s.emit v).inputs = s.inputs := (rfl)
@[simp] theorem State.emit_transport (v : Byte) (s : State) : (s.emit v).transport = s.transport := (rfl)

/-! ## undriven -/

@[simp] theorem State.undriven_cfg (s : State) : s.undriven.cfg = s.cfg := (rfl)
@[simp] theorem State.undriven_bc (s : State) : s.undriven.bc = s.bc := (rfl)
@[simp] theorem State.undriven_len (s : State) : s.undriven.len = s.len := (rfl)
@[simp] theorem State.undriven_addr (s : State) : s.undriven.addr = s.addr := (rfl)
@[simp] theorem State.undriven_crc (s : State) : s.undriven.crc = s.crc := (rfl)
@[simp] theorem State.undriven_st (s : State) : s.undriven.st = s.st := (rfl)
@[simp] theorem State.undriven_pend (s : State) : s.undriven.pend = s.pend := (rfl)
@[simp] theorem State.undriven_mem (s : State) : s.undriven.mem = s.mem := (rfl)
@[simp] theorem State.undriven_bk (s : State) : s.undriven.bk = s.bk := (rfl)
@[simp] theorem State.undriven_rdData (s : State) : s.undriven.rdData = none := (rfl)
@[simp] theorem State.undriven_crcOut (s : State) : s.undriven.crcOut = s.crcOut := (rfl)
@[simp] theorem State.undriven_appOut (s : State) : s.undriven.appOut = s.appOut := (rfl)
@[simp] theorem State.undriven_ctlStatus (s : State) : s.undriven.ctlStatus = s.ctlStatus := (rfl)
@[simp] theorem State.undriven_ctlBuf (s : State) : s.undriven.ctlBuf = s.ctlBuf := (rfl)
@[simp] theorem State.undriven_inputs (s : State) : s.undriven.inputs = s.inputs := (rfl)
@[simp] theorem State.undriven_transport (s : State) : s.undriven.transport = s.transport := (rfl)

/-! ## recordError -/

@[simp] theorem State.recordError_cfg (f : ErrFlag) (s : State) : (s.recordError f).cfg = s.cfg := (rfl)
@[simp] theorem State.recordError_bc (f : ErrFlag) (s : State) : (s.recordError f).bc = s.bc := (rfl)
@[simp] theorem State.recordError_len (f : ErrFlag) (s : State) : (s.recordError f).len = s.len := (rfl)
@[simp] theorem State.recordError_addr (f : ErrFlag) (s : State) : (s.recordError f).addr = s.addr := (rfl)
@[simp] theorem State.recordError_crc (f : ErrFlag) (s : State) : (s.recordError f).crc = s.crc := (rfl)
@[simp] theorem State.recordError_st (f : ErrFlag) (s : State) : (s.recordError f).st = setFlag s.st f := (rfl)
@[simp] theorem State.recordError_pend (f : ErrFlag) (s : State) : (s.recordError f).pend = s.pend := (rfl)
@[simp] theorem State.recordError_mem (f : ErrFlag) (s : State) : (s.recordError f).mem = s.mem := (rfl)
@[simp] theorem State.recordError_bk (f : ErrFlag) (s : State) : (s.recordError f).bk = s.bk := (rfl)
@[simp] theorem State.recordError_rdData (f : ErrFlag) (s : State) : (s.recordError f).rdData = s.rdData := (rfl)
@[simp] theorem State.recordError_crcOut (f : ErrFlag) (s : State) : (s.recordError f).crcOut = s.crcOut := (rfl)
@[simp] theorem State.recordError_appOut (f : ErrFlag) (s : State) : (s.recordError f).appOut = s.appOut := (rfl)
@[simp] theorem State.recordError_ctlStatus (f : ErrFlag) (s : State) : (s.recordError f).ctlStatus = s.ctlStatus := (rfl)
@[simp] theorem State.recordError_ctlBuf (f : ErrFlag) (s : State) : (s.recordError f).ctlBuf = s.ctlBuf := (rfl)
@[simp] theorem State.recordError_inputs (f : ErrFlag) (s : State) : (s.recordError f).inputs = s.inputs := (rfl)
@[simp] theorem State.recordError_transport (f : ErrFlag) (s : State) : (s.recordError f).transport = s.transport := (rfl)

/-! ## setOk -/

@[simp] theorem State.setOk_cfg (s : State) : s.setOk.cfg = s.cfg := (rfl)
@[simp] theorem State.setOk_bc (s : State) : s.setOk.bc = s.bc := (rfl)
@[simp] theorem State.setOk_len (s : State) : s.setOk.len = s.len := (rfl)
@[simp] theorem State.setOk_addr (s : State) : s.setOk.addr = s.addr := (rfl)
@[simp] theorem State.setOk_crc (s : State) : s.setOk.crc = s.crc := (rfl)
@[simp] theorem State.setOk_st (s : State) : s.setOk.st = 0x80#8 := (rfl)
@[simp] theorem State.setOk_pend (s : State) : s.setOk.pend = s.pend := (rfl)
@[simp] theorem State.setOk_mem (s : State) : s.setOk.mem = s.mem := (rfl)
@[simp] theorem State.setOk_bk (s : State) : s.setOk.bk = s.bk := (rfl)
@[simp] theorem State.setOk_rdData (s : State) : s.setOk.rdData = s.rdData := (rfl)
@[simp] theorem State.setOk_crcOut (s : State) : s.setOk.crcOut = s.crcOut := (rfl)
@[simp] theorem State.setOk_appOut (s : State) : s.setOk.appOut = s.appOut := (rfl)
@[simp] theorem State.setOk_ctlStatus (s : State) : s.setOk.ctlStatus = s.ctlStatus := (rfl)
@[simp] theorem State.setOk_ctlBuf (s : State) : s.setOk.ctlBuf = s.ctlBuf := (rfl)
@[simp] theorem State.setOk_inputs (s : State) : s.setOk.inputs = s.inputs := (rfl)
@[simp] theorem State.setOk_transport (s : State) : s.setOk.transport = s.transport := (rfl)

/-! ## setBusy -/

@[simp] theorem State.setBusy_cfg (s : State) : s.setBusy.cfg = s.cfg := (rfl)
@[simp] theorem State.setBusy_bc (s : State) : s.setBusy.bc = s.bc := (rfl)
@[simp] theorem State.setBusy_len (s : State) : s.setBusy.len = s.len := (rfl)
@[simp] theorem State.setBusy_addr (s : State) : s.setBusy.addr = s.addr := (rfl)
@[simp] theorem State.setBusy_crc (s : State) : s.setBusy.crc = s.crc := (rfl)
@[simp] theorem State.setBusy_st (s : State) : s.setBusy.st = 0x20#8 := (rfl)
@[simp] theorem State.setBusy_pend (s : State) : s.setBusy.pend = s.pend := (rfl)
@[simp] theorem State.setBusy_mem (s : State) : s.setBusy.mem = s.mem := (rfl)
@[simp] theorem State.setBusy_bk (s : State) : s.setBusy.bk = s.bk := (rfl)
@[simp] theorem State.setBusy_rdData (s : State) : s.setBusy.rdData = s.rdData := (rfl)
@[simp] theorem State.setBusy_crcOut (s : State) : s.setBusy.crcOut = s.crcOut := (rfl)
@[simp] theorem State.setBusy_appOut (s : State) : s.setBusy.appOut = s.appOut := (rfl)
@[simp] theorem State.setBusy_ctlStatus (s : State) : s.setBusy.ctlStatus = s.ctlStatus := (rfl)
@[simp] theorem State.setBusy_ctlBuf (s : State) : s.setBusy.ctlBuf = s.ctlBuf := (rfl)
@[simp] theorem State.setBusy_inputs (s : State) : s.setBusy.inputs = s.inputs := (rfl)
@[simp] theorem State.setBusy_transport (s : State) : s.setBusy.transport = s.transport := (rfl)

/-! ## armRestore -/

@[simp] theorem State.armRestore_cfg (s : State) : s.armRestore.cfg = s.cfg := (rfl)
@[simp] theorem State.armRestore_bc (s : State) : s.armRestore.bc = s.bc := (rfl)
@[simp] theorem State.armRestore_len (s : State) : s.armRestore.len = s.len := (rfl)
@[simp] theorem State.armRestore_addr (s : State) : s.armRestore.addr = s.addr := (rfl)
@[simp] theorem State.armRestore_crc (s : State) : s.armRestore.crc = s.crc := (rfl)
@[simp] theorem State.armRestore_st (s : State) : s.armRestore.st = 0x20#8 := (rfl)
@[simp] theorem State.armRestore_pend (s : State) : s.armRestore.pend = true := (rfl)
@[simp] theorem State.armRestore_mem (s : State) : s.armRestore.mem = s.mem := (rfl)
@[simp] theorem State.armRestore_bk (s : State) : s.armRestore.bk = s.bk := (rfl)
@[simp] theorem State.armRestore_rdData (s : State) : s.armRestore.rdData = s.rdData := (rfl)
@[simp] theorem State.armRestore_crcOut (s : State) : s.armRestore.crcOut = s.crcOut := (rfl)
@[simp] theorem State.armRestore_appOut (s : State) : s.armRestore.appOut = s.appOut := (rfl)
@[simp] theorem State.armRestore_ctlStatus (s : State) : s.armRestore.ctlStatus = s.ctlStatus := (rfl)
@[simp] theorem State.armRestore_ctlBuf (s : State) : s.armRestore.ctlBuf = s.ctlBuf := (rfl)
@[simp] theorem State.armRestore_inputs (s : State) : s.armRestore.inputs = s.inputs := (rfl)
@[simp] theorem State.armRestore_transport (s : State) : s.armRestore.transport = s.transport := (rfl)

/-! ## finishRestore -/

@[simp] theorem State.finishRestore_cfg (s : State) : s.finishRestore.cfg = s.cfg := (rfl)
@[simp] theorem State.finishRestore_bc (s : State) : s.finishRestore.bc = 0 := (rfl)
@[simp] theorem State.finishRestore_len (s : State) : s.finishRestore.len = 0#32 := (rfl)
@[simp] theorem State.finishRestore_addr (s : State) : s.finishRestore.addr = 0#32 := (rfl)
@[simp] theorem State.finishRestore_crc (s : State) : s.finishRestore.crc = 0#8 := (rfl)
@[simp] theorem State.finishRestore_st (s : State) : s.finishRestore.st = 0x80#8 := (rfl)
@[simp] theorem State.finishRestore_pend (s : State) : s.finishRestore.pend = false := (rfl)
@[simp] theorem State.finishRestore_mem (s : State) : s.finishRestore.mem = s.mem := (rfl)
@[simp] theorem State.finishRestore_bk (s : State) : s.finishRestore.bk = s.bk := (rfl)
@[simp] theorem State.finishRestore_rdData (s : State) : s.finishRestore.rdData = s.rdData := (rfl)
@[simp] theorem State.finishRestore_crcOut (s : State) : s.finishRestore.crcOut = s.crcOut := (rfl)
@[simp] theorem State.finishRestore_appOut (s : State) : s.finishRestore.appOut = s.appOut := (rfl)
@[simp] theorem State.finishRestore_ctlStatus (s : State) : s.finishRestore.ctlStatus = s.ctlStatus := (rfl)
@[simp] theorem State.finishRestore_ctlBuf (s : State) : s.finishRestore.ctlBuf = s.ctlBuf := (rfl)
@[simp] theorem State.finishRestore_inputs (s : State) : s.finishRestore.inputs = s.inputs := (rfl)
@[simp] theorem State.finishRestore_transport (s : State) : s.finishRestore.transport = s.transport := (rfl)

/-! ## initEvent -/

@[simp] theorem State.initEvent_cfg (s : State) : s.initEvent.cfg = s.cfg := (rfl)
@[simp] theorem State.initEvent_bc (s : State) : s.initEvent.bc = 0 := (rfl)
@[simp] theorem State.initEvent_len (s : State) : s.initEvent.len = 0#32 := (rfl)
@[simp] theorem State.initEvent_addr (s : State) : s.initEvent.addr = 0#32 := (rfl)
@[simp] theorem State.initEvent_crc (s : State) : s.initEvent.crc = 0#8 := (rfl)
@[simp] theorem State.initEvent_st (s : State) : s.initEvent.st = 0x80#8 := (rfl)
@[simp] theorem State.initEvent_pend (s : State) : s.initEvent.pend = false := (rfl)
@[simp] theorem State.initEvent_mem (s : State) : s.initEvent.mem = s.mem := (rfl)
@[simp] theorem State.initEvent_bk (s : State) : s.initEvent.bk = s.bk := (rfl)
@[simp] theorem State.initEvent_rdData (s : State) : s.initEvent.rdData = none := (rfl)
@[simp] theorem State.initEvent_crcOut (s : State) : s.initEvent.crcOut = s.crcOut := (rfl)
@[simp] theorem State.initEvent_appOut (s : State) : s.initEvent.appOut = s.appOut := (rfl)
@[simp] theorem State.initEvent_ctlStatus (s : State) : s.initEvent.ctlStatus = s.ctlStatus := (rfl)
@[simp] theorem State.initEvent_ctlBuf (s : State) : s.initEvent.ctlBuf = s.ctlBuf := (rfl)
@[simp] theorem State.initEvent_inputs (s : State) : s.initEvent.inputs = s.inputs := (rfl)
@[simp] theorem State.initEvent_transport (s : State) : s.initEvent.transport = s.transport := (rfl)

/-! ## popCarriage -/

@[simp] theorem State.popCarriage_cfg (s : State) : s.popCarriage.cfg = s.cfg := (rfl)
@[simp] theorem State.popCarriage_bc (s : State) : s.popCarriage.bc = s.bc := (rfl)
@[simp] theorem State.popCarriage_len (s : State) : s.popCarriage.len = s.len := (rfl)
@[simp] theorem State.popCarriage_addr (s : State) : s.popCarriage.addr = s.addr := (rfl)
@[simp] theorem State.popCarriage_crc (s : State) : s.popCarriage.crc = s.crc := (rfl)
@[simp] theorem State.popCarriage_st (s : State) : s.popCarriage.st = s.st := (rfl)
@[simp] theorem State.popCarriage_pend (s : State) : s.popCarriage.pend = s.pend := (rfl)
@[simp] theorem State.popCarriage_mem (s : State) : s.popCarriage.mem = s.mem := (rfl)
@[simp] theorem State.popCarriage_bk (s : State) : s.popCarriage.bk = s.bk := (rfl)
@[simp] theorem State.popCarriage_rdData (s : State) : s.popCarriage.rdData = s.rdData := (rfl)
@[simp] theorem State.popCarriage_crcOut (s : State) : s.popCarriage.crcOut = s.crcOut := (rfl)
@[simp] theorem State.popCarriage_appOut (s : State) : s.popCarriage.appOut = s.appOut := (rfl)
@[simp] theorem State.popCarriage_ctlStatus (s : State) : s.popCarriage.ctlStatus = s.ctlStatus := (rfl)
@[simp] theorem State.popCarriage_ctlBuf (s : State) : s.popCarriage.ctlBuf = s.ctlBuf := (rfl)
@[simp] theorem State.popCarriage_inputs (s : State) : s.popCarriage.inputs = s.inputs := (rfl)
@[simp] theorem State.popCarriage_transport (s : State) : s.popCarriage.transport = s.transport.tail := (rfl)

/-! ## ctlReturn -/

@[simp] theorem State.ctlReturn_cfg (v : Byte) (s : State) : (s.ctlReturn v).cfg = s.cfg := (rfl)
@[simp] theorem State.ctlReturn_bc (v : Byte) (s : State) : (s.ctlReturn v).bc = s.bc := (rfl)
@[simp] theorem State.ctlReturn_len (v : Byte) (s : State) : (s.ctlReturn v).len = s.len := (rfl)
@[simp] theorem State.ctlReturn_addr (v : Byte) (s : State) : (s.ctlReturn v).addr = s.addr := (rfl)
@[simp] theorem State.ctlReturn_crc (v : Byte) (s : State) : (s.ctlReturn v).crc = s.crc := (rfl)
@[simp] theorem State.ctlReturn_st (v : Byte) (s : State) : (s.ctlReturn v).st = s.st := (rfl)
@[simp] theorem State.ctlReturn_pend (v : Byte) (s : State) : (s.ctlReturn v).pend = s.pend := (rfl)
@[simp] theorem State.ctlReturn_mem (v : Byte) (s : State) : (s.ctlReturn v).mem = s.mem := (rfl)
@[simp] theorem State.ctlReturn_bk (v : Byte) (s : State) : (s.ctlReturn v).bk = s.bk := (rfl)
@[simp] theorem State.ctlReturn_rdData (v : Byte) (s : State) : (s.ctlReturn v).rdData = s.rdData := (rfl)
@[simp] theorem State.ctlReturn_crcOut (v : Byte) (s : State) : (s.ctlReturn v).crcOut = s.crcOut := (rfl)
@[simp] theorem State.ctlReturn_appOut (v : Byte) (s : State) : (s.ctlReturn v).appOut = s.appOut := (rfl)
@[simp] theorem State.ctlReturn_ctlStatus (v : Byte) (s : State) : (s.ctlReturn v).ctlStatus = some v := (rfl)
@[simp] theorem State.ctlReturn_ctlBuf (v : Byte) (s : State) : (s.ctlReturn v).ctlBuf = s.ctlBuf := (rfl)
@[simp] theorem State.ctlReturn_inputs (v : Byte) (s : State) : (s.ctlReturn v).inputs = s.inputs := (rfl)
@[simp] theorem State.ctlReturn_transport (v : Byte) (s : State) : (s.ctlReturn v).transport = s.transport := (rfl)

end Sys2Proof.Machine
end

