-- ==== Sys2Proof/Laws/Values.lean ====
section
/-! SUPPORT. Lemmas about values: the flag computations, the phases, the byte lanes and the CRC step. -/

namespace Sys2Proof.Machine

/-! ## Flags -/

theorem anyErr_setFlag (st : Byte) (f : ErrFlag) : anyErr (setFlag st f) = true := by
  revert st; cases f <;> decide

theorem setFlag_ok_or_same (st : Byte) (f : ErrFlag) :
    setFlag st f &&& 0x7F#8 = setFlag st f := by
  revert st; cases f <;> decide

/-- A mask that was clear of flags after `SetFlag` was clear of them before. -/
theorem and_eq_zero_of_setFlag {st m : Byte} {f : ErrFlag} (hm : m &&& 0x7F#8 = m)
    (h : setFlag st f &&& m = 0#8) : st &&& m = 0#8 ∧ flagCode f &&& m = 0#8 := by
  have key : ∀ i, i < 8 → (st &&& m).getLsbD i = false ∧ (flagCode f &&& m).getLsbD i = false := by
    intro i hi
    have h1 := congrArg (fun v : Byte => v.getLsbD i) h
    have h2 := congrArg (fun v : Byte => v.getLsbD i) hm
    simp only [setFlag, BitVec.getLsbD_and, BitVec.getLsbD_or, BitVec.getLsbD_zero] at h1 h2 ⊢
    revert h1 h2
    cases m.getLsbD i <;> cases st.getLsbD i <;> cases (flagCode f).getLsbD i <;>
      cases (0x7F#8).getLsbD i <;> simp
  constructor
  · exact BitVec.eq_of_getLsbD_eq fun i hi => by simpa using (key i hi).1
  · exact BitVec.eq_of_getLsbD_eq fun i hi => by simpa using (key i hi).2

/-! ## Phases -/

theorem phase_length {bc : Nat} {len : U32} (h : bc < 4) : phase bc len = .length := if_pos h

theorem phase_address {bc : Nat} {len : U32} (h : 4 ≤ bc) (h' : bc < 8) : phase bc len = .address := by
  rw [phase, if_neg (by omega), if_pos h']

theorem phase_data {bc : Nat} {len : U32} (h : 8 ≤ bc) (h' : bc < 8 + len.toNat) :
    phase bc len = .data := by
  rw [phase, if_neg (by omega), if_neg (by omega), if_pos h']

theorem phase_checksum {bc : Nat} {len : U32} (h : bc = 8 + len.toNat) : phase bc len = .checksum := by
  rw [phase, if_neg (by omega), if_neg (by omega), if_neg (by omega), if_pos h]

theorem phase_drain {bc : Nat} {len : U32} (h : 8 + len.toNat < bc) : phase bc len = .drain := by
  rw [phase, if_neg (by omega), if_neg (by omega), if_neg (by omega), if_neg (by omega)]

/-! ## Byte lanes -/

theorem lane_getLsbD (v : U32) (k i : Nat) (hi : i < 8) :
    (lane v k).getLsbD i = v.getLsbD (8 * k + i) := by
  simp [lane, hi]

theorem setLane_getLsbD (v : U32) (k : Nat) (b : Byte) (i : Nat) (hi : i < 32) :
    (setLane v k b).getLsbD i =
      if 8 * k ≤ i ∧ i < 8 * k + 8 then b.getLsbD (i - 8 * k) else v.getLsbD i := by
  have hff : ∀ j, (0xFF#32).getLsbD j = decide (j < 8) := by
    intro j
    by_cases hj : j < 32
    · revert j; decide
    · rw [BitVec.getLsbD_of_ge _ _ (by omega)]; simp; omega
  simp only [setLane, BitVec.getLsbD_or, BitVec.getLsbD_and, BitVec.getLsbD_not,
    BitVec.getLsbD_shiftLeft, BitVec.getLsbD_setWidth, hff]
  by_cases h1 : i < 8 * k
  · simp [h1, hi]
  · by_cases h2 : i < 8 * k + 8
    · have : i - 8 * k < 32 := by omega
      have h3 : i - 8 * k < 8 := by omega
      simp [h1, h2, hi, this, h3]
    · have h3 : ¬ i - 8 * k < 8 := by omega
      simp [h1, h2, hi, h3, BitVec.getLsbD_of_ge b (i - 8 * k) (by omega)]

/-- The lane written reads as written. -/
theorem lane_setLane_same (v : U32) {k : Nat} (hk : k < 4) (b : Byte) : lane (setLane v k b) k = b := by
  apply BitVec.eq_of_getLsbD_eq
  intro i hi
  rw [lane_getLsbD _ _ _ hi, setLane_getLsbD _ _ _ _ (by omega), if_pos (by omega)]
  congr 1; omega

/-- Every other lane reads as before. -/
theorem lane_setLane_other (v : U32) {j k : Nat} (hj : j < 4) (hjk : j ≠ k) (b : Byte) :
    lane (setLane v k b) j = lane v j := by
  apply BitVec.eq_of_getLsbD_eq
  intro i hi
  rw [lane_getLsbD _ _ _ hi, setLane_getLsbD _ _ _ _ (by omega), if_neg (by omega),
    lane_getLsbD _ _ _ hi]

/-- A 32-bit value is its four lanes. -/
theorem eq_of_lanes {v w : U32} (h : ∀ k, k < 4 → lane v k = lane w k) : v = w := by
  apply BitVec.eq_of_getLsbD_eq
  intro i hi
  have := congrArg (BitVec.getLsbD · (i % 8)) (h (i / 8) (by omega))
  rw [lane_getLsbD _ _ _ (by omega), lane_getLsbD _ _ _ (by omega)] at this
  rwa [show 8 * (i / 8) + i % 8 = i by omega] at this

@[simp] theorem lane_zero (k : Nat) : lane 0#32 k = 0#8 := by simp [lane]

/-! ## The CRC-8 unit -/

@[simp] theorem crc8_nil (s : Byte) : crc8 [] s = s := rfl

@[simp] theorem crc8_cons (b : Byte) (bs : List Byte) (s : Byte) :
    crc8 (b :: bs) s = crc8 bs (crcStep s b) := rfl

/-- One iteration is linear over GF(2). -/
theorem crcShift_xor (x y : Byte) : crcShift (x ^^^ y) = crcShift x ^^^ crcShift y := by
  unfold crcShift
  rw [BitVec.getLsbD_xor, BitVec.shiftLeft_xor_distrib]
  generalize x <<< 1 = p
  generalize y <<< 1 = q
  cases x.getLsbD 7 <;> cases y.getLsbD 7 <;> simp only [Bool.xor_false, Bool.xor_true, Bool.not_true,
    Bool.not_false, if_true, if_false, Bool.false_eq_true]
  · ac_rfl
  · ac_rfl
  · have h : p ^^^ 7#8 ^^^ (q ^^^ 7#8) = (p ^^^ q) ^^^ (7#8 ^^^ 7#8) := by ac_rfl
    rw [h, BitVec.xor_self, BitVec.xor_zero]

theorem crcShifts_xor (n : Nat) (x y : Byte) :
    crcShifts n (x ^^^ y) = crcShifts n x ^^^ crcShifts n y := by
  induction n generalizing x y with
  | zero => rfl
  | succ n ih => simp only [crcShifts, crcShift_xor, ih]

end Sys2Proof.Machine
end

