-- ==== Sys2Proof/Laws/Ops.lean ====
section
/-! SUPPORT. What each shared operation can do, said once, and the branch that each phase selects. -/

namespace Sys2Proof.Machine

/-! ## Outcomes -/

theorem outcomeOf_eq_next {r : Except Fault State} {t : State} : outcomeOf r = .next t ↔ r = .ok t := by
  cases r <;> simp [outcomeOf]

theorem outcomeOf_eq_fault {r : Except Fault State} {f : Fault} :
    outcomeOf r = .fault f ↔ r = .error f := by
  cases r <;> simp [outcomeOf]

theorem outcomeOf_ne_refused {r : Except Fault State} {e : Refusal} : outcomeOf r ≠ .refused e := by
  cases r <;> simp [outcomeOf]

/-- A sequence that answers a value had a first part that did. -/
theorem bind_eq_ok {α β : Type} {x : Except Fault α} {f : α → Except Fault β} {b : β} :
    (x >>= f) = .ok b ↔ ∃ a, x = .ok a ∧ f a = .ok b := by
  cases x <;> simp [bind, Except.bind]

theorem bind_eq_error {α β : Type} {x : Except Fault α} {f : α → Except Fault β} {e : Fault} :
    (x >>= f) = .error e ↔ x = .error e ∨ ∃ a, x = .ok a ∧ f a = .error e := by
  cases x <;> simp [bind, Except.bind]

@[simp] theorem ok_bind {α β : Type} (a : α) (f : α → Except Fault β) :
    ((Except.ok a : Except Fault α) >>= f) = f a := rfl

@[simp] theorem error_bind {α β : Type} (e : Fault) (f : α → Except Fault β) :
    ((Except.error e : Except Fault α) >>= f) = .error e := rfl

@[simp] theorem pure_eq_ok {α : Type} (a : α) : (pure a : Except Fault α) = .ok a := rfl

/-! ## Byte accesses -/

theorem memRead_eq {a : Nat} {s : State} (h : a < s.cfg.memSize) :
    s.memRead a = .ok (Memory.read s.mem a) := if_pos h

theorem memWrite_eq {a : Nat} {v : Byte} {s : State} (h : a < s.cfg.memSize) :
    s.memWrite a v = .ok { s with mem := Memory.write s.mem a v } := if_pos h

theorem bkRead_eq {o : Nat} {s : State} (h : o < backupSize s.cfg) :
    s.bkRead o = .ok (Memory.read s.bk o) := if_pos h

theorem bkWrite_eq {o : Nat} {v : Byte} {s : State} (h : o < backupSize s.cfg) :
    s.bkWrite o v = .ok { s with bk := Memory.write s.bk o v } := if_pos h

theorem backupSize_on {c : Config} (h : c.backupEn = true) : backupSize c = c.bkSize := if_pos h

theorem backupSize_off {c : Config} (h : c.backupEn = false) : backupSize c = 0 := by
  simp [backupSize, h]

/-- The byte applied with backups on: the old byte saved, the new one stored. -/
theorem applyData_on {b : Byte} {off ea : Nat} {s : State} (he : s.cfg.backupEn = true)
    (ho : off < s.cfg.bkSize) (ha : ea < s.cfg.memSize) :
    s.applyData b off ea = .ok { s with
      bk := Memory.write s.bk off (Memory.read s.mem ea), mem := Memory.write s.mem ea b } := by
  have ho' : off < backupSize s.cfg := by rwa [backupSize_on he]
  rw [State.applyData, if_pos he, memRead_eq ha, ok_bind, bkWrite_eq ho', ok_bind]
  exact if_pos ha

theorem applyData_off {b : Byte} {off ea : Nat} {s : State} (he : s.cfg.backupEn = false)
    (ha : ea < s.cfg.memSize) :
    s.applyData b off ea = .ok { s with mem := Memory.write s.mem ea b } := by
  rw [State.applyData, if_neg (by simp [he]), memWrite_eq ha]

/-! ## The restore's copy -/

/-- The bytes of `m` from `base + i` on replaced by `n` bytes of `bk` from `i` on. -/
def copied (bk : Memory) (base : Nat) : Nat → Nat → Memory → Memory
  | 0, _, m => m
  | n + 1, i, m => copied bk base n (i + 1) (Memory.write m (base + i) (Memory.read bk i))

/-- The copy inside both spaces goes through, and changes `MEM` only. -/
theorem copyBack_eq {n i : Nat} {s : State} (hb : i + n ≤ backupSize s.cfg)
    (hm : s.addr.toNat + i + n ≤ s.cfg.memSize) :
    s.copyBack n i = .ok { s with mem := copied s.bk s.addr.toNat n i s.mem } := by
  induction n generalizing i s with
  | zero => rfl
  | succ n ih =>
    rw [State.copyBack, bkRead_eq (by omega), ok_bind, memWrite_eq (by omega), ok_bind,
      ih (by simpa using (by omega : i + 1 + n ≤ backupSize s.cfg))
        (by simpa using (by omega : s.addr.toNat + (i + 1) + n ≤ s.cfg.memSize))]
    rfl

theorem copied_wf {bk : Memory} {base n i : Nat} {m : Memory} (h : Memory.wf m = true) :
    Memory.wf (copied bk base n i m) = true := by
  induction n generalizing i m with
  | zero => exact h
  | succ n ih => exact ih (Memory.write_wf h _ _)

theorem copied_below {bk : Memory} {base n i size : Nat} {m : Memory}
    (h : Memory.below m size = true) (hs : base + i + n ≤ size) :
    Memory.below (copied bk base n i m) size = true := by
  induction n generalizing i m with
  | zero => exact h
  | succ n ih => exact ih (Memory.write_below h (by omega) _) (by omega)

/-- The byte at `a` after the copy: the backup's byte inside the range, the old byte outside it. -/
theorem read_copied {bk : Memory} {base n i a : Nat} {m : Memory} (h : Memory.wf m = true) :
    Memory.read (copied bk base n i m) a =
      if base + i ≤ a ∧ a < base + i + n then Memory.read bk (a - base) else Memory.read m a := by
  induction n generalizing i m with
  | zero => rw [if_neg (by omega)]; rfl
  | succ n ih =>
    rw [copied, ih (Memory.write_wf h _ _), Memory.read_write h]
    by_cases h1 : a = base + i
    · subst h1
      rw [if_neg (by omega), if_pos rfl, if_pos (by omega)]
      congr 1; omega
    · by_cases h2 : base + (i + 1) ≤ a ∧ a < base + (i + 1) + n
      · rw [if_pos h2, if_pos (by omega)]
      · rw [if_neg h2, if_neg h1, if_neg (by omega)]

/-! ## The branch each phase selects -/

@[simp] theorem State.txStart_cfg (s : State) : s.txStart.cfg = s.cfg := by
  unfold State.txStart; split <;> rfl
@[simp] theorem State.txStart_bc (s : State) : s.txStart.bc = s.bc := by
  unfold State.txStart; split <;> rfl
@[simp] theorem State.txStart_len (s : State) : s.txStart.len = s.len := by
  unfold State.txStart; split <;> rfl
@[simp] theorem State.txStart_addr (s : State) : s.txStart.addr = s.addr := by
  unfold State.txStart; split <;> rfl
@[simp] theorem State.txStart_crc (s : State) : s.txStart.crc = s.crc := by
  unfold State.txStart; split <;> rfl
@[simp] theorem State.txStart_pend (s : State) : s.txStart.pend = s.pend := by
  unfold State.txStart; split <;> rfl
@[simp] theorem State.txStart_mem (s : State) : s.txStart.mem = s.mem := by
  unfold State.txStart; split <;> rfl
@[simp] theorem State.txStart_bk (s : State) : s.txStart.bk = s.bk := by
  unfold State.txStart; split <;> rfl
@[simp] theorem State.txStart_rdData (s : State) : s.txStart.rdData = s.rdData := by
  unfold State.txStart; split <;> rfl
@[simp] theorem State.txStart_crcOut (s : State) : s.txStart.crcOut = s.crcOut := by
  unfold State.txStart; split <;> rfl
@[simp] theorem State.txStart_appOut (s : State) : s.txStart.appOut = s.appOut := by
  unfold State.txStart; split <;> rfl
@[simp] theorem State.txStart_ctlStatus (s : State) : s.txStart.ctlStatus = s.ctlStatus := by
  unfold State.txStart; split <;> rfl
@[simp] theorem State.txStart_ctlBuf (s : State) : s.txStart.ctlBuf = s.ctlBuf := by
  unfold State.txStart; split <;> rfl
@[simp] theorem State.txStart_inputs (s : State) : s.txStart.inputs = s.inputs := by
  unfold State.txStart; split <;> rfl
@[simp] theorem State.txStart_transport (s : State) : s.txStart.transport = s.transport := by
  unfold State.txStart; split <;> rfl

theorem State.txStart_eq (s : State) :
    s.txStart = { s with st := if s.bc = 0 then 0x80#8 else s.st } := by
  unfold State.txStart; split <;> rfl

/-- The length branch as one update. -/
theorem wrLength_eq (b : Byte) (s : State) : s.wrLength b = { s with
    len := setLane s.len s.bc b, crc := crcStep s.crc b,
    st := if s.bc = 3 ∧ s.cfg.backupEn = true ∧ s.cfg.bkSize < (setLane s.len s.bc b).toNat then
      setFlag s.st .backupBufferOverflow else s.st } := by
  simp only [State.wrLength]
  by_cases h : s.bc = 3 ∧ s.cfg.backupEn = true ∧ s.cfg.bkSize < (setLane s.len s.bc b).toNat
  · rw [if_pos h]; exact if_pos h
  · rw [if_neg h]; exact if_neg h

/-- The address branch as one update. -/
theorem wrAddress_eq (b : Byte) (s : State) : s.wrAddress b = { s with
    addr := setLane s.addr (s.bc - 4) b, crc := crcStep s.crc b,
    st := if s.bc = 7 ∧ s.cfg.memSize ≤ transferEnd (setLane s.addr (s.bc - 4) b) s.len then
      setFlag s.st .memoryOutOfRange else s.st } := by
  simp only [State.wrAddress]
  by_cases h : s.bc = 7 ∧ s.cfg.memSize ≤ transferEnd (setLane s.addr (s.bc - 4) b) s.len
  · rw [if_pos h]; exact if_pos h
  · rw [if_neg h]; exact if_neg h

/-- The checksum branch as one update. -/
theorem wrChecksum_eq (b : Byte) (s : State) : s.wrChecksum b = { s with
    st := if b = s.crc then s.st else setFlag s.st .dataCorrupted } := by
  unfold State.wrChecksum
  by_cases h : b = s.crc <;> simp [h, State.recordError]

theorem wrEvent_length {s : State} (b : Byte) (h : s.bc < 4) :
    s.wrEvent b = .ok (s.undriven.txStart.wrLength b).advance := by
  simp [State.wrEvent, State.wrBranch, phase_length h]

theorem wrEvent_address {s : State} (b : Byte) (h : 4 ≤ s.bc) (h' : s.bc < 8) :
    s.wrEvent b = .ok (s.undriven.wrAddress b).advance := by
  have h0 : s.undriven.txStart = s.undriven := if_neg (by simp; omega)
  simp [State.wrEvent, State.wrBranch, h0, phase_address h h']

theorem wrEvent_data {s : State} (b : Byte) (h : 8 ≤ s.bc) (h' : s.bc < 8 + s.len.toNat) :
    s.wrEvent b = s.undriven.wrData b >>= fun t => .ok t.advance := by
  have h0 : s.undriven.txStart = s.undriven := if_neg (by simp; omega)
  simp [State.wrEvent, State.wrBranch, h0, phase_data h h']

theorem wrEvent_checksum {s : State} (b : Byte) (h : s.bc = 8 + s.len.toNat) :
    s.wrEvent b = .ok (s.undriven.wrChecksum b).advance := by
  have h0 : s.undriven.txStart = s.undriven := if_neg (by simp; omega)
  simp [State.wrEvent, State.wrBranch, h0, phase_checksum h]

theorem wrEvent_drain {s : State} (b : Byte) (h : 8 + s.len.toNat < s.bc) :
    s.wrEvent b = .ok s.undriven.wrDrain.advance := by
  have h0 : s.undriven.txStart = s.undriven := if_neg (by simp; omega)
  simp [State.wrEvent, State.wrBranch, h0, phase_drain h]

theorem rdEvent_header {s : State} (h : s.bc < 8) : s.rdEvent = .ok s.rdHeader.advance := by
  by_cases h4 : s.bc < 4
  · simp [State.rdEvent, phase_length h4]
  · simp [State.rdEvent, phase_address (by omega : 4 ≤ s.bc) h]

theorem rdEvent_data {s : State} (h : 8 ≤ s.bc) (h' : s.bc < 8 + s.len.toNat) :
    s.rdEvent = s.serveData >>= fun t => .ok t.advance := by
  simp [State.rdEvent, phase_data h h']

theorem rdEvent_checksum {s : State} (h : s.bc = 8 + s.len.toNat) :
    s.rdEvent = .ok s.rdChecksum.advance := by
  simp [State.rdEvent, phase_checksum h]

theorem rdEvent_drain {s : State} (h : 8 + s.len.toNat < s.bc) : s.rdEvent = .ok s.rdFinal := by
  simp [State.rdEvent, phase_drain h]

/-! ## The value a data byte serves -/

theorem rdValue_outside {s : State} (h : s.cfg.memSize ≤ effectiveAddress s.addr s.bc) :
    s.rdValue = .ok (0#8, s.recordError .memoryOutOfRange) := by
  simp [State.rdValue, h]

theorem rdValue_status {s : State} (h : effectiveAddress s.addr s.bc < s.cfg.memSize)
    (ha : s.addr = 0#32) (hl : s.len = 1#32) : s.rdValue = .ok (s.st, s.statusClear) := by
  simp only [State.rdValue]
  rw [if_neg (by omega), if_pos ⟨ha, hl⟩]

theorem rdValue_error {s : State} (h : effectiveAddress s.addr s.bc < s.cfg.memSize)
    (hs : ¬ (s.addr = 0#32 ∧ s.len = 1#32)) (he : s.hasError = true) :
    s.rdValue = .ok (0#8, s) := by
  simp only [State.rdValue]
  rw [if_neg (by omega), if_neg hs, if_pos he]

theorem rdValue_memory {s : State} (h : effectiveAddress s.addr s.bc < s.cfg.memSize)
    (hs : ¬ (s.addr = 0#32 ∧ s.len = 1#32)) (he : s.hasError = false) :
    s.rdValue = .ok (Memory.read s.mem (effectiveAddress s.addr s.bc), s) := by
  simp only [State.rdValue]
  rw [if_neg (by omega), if_neg hs, if_neg (by simp [he]), memRead_eq h, ok_bind, pure_eq_ok]

/-- Serving a data byte never faults, and changes no more than `ST`: a flag added, or `Ok` reasserted
when no error flag was set. -/
theorem rdValue_cases (s : State) : ∃ v t, s.rdValue = .ok (v, t) ∧
    (t = s ∨ t = s.recordError .memoryOutOfRange ∨ (s.hasError = false ∧ t = s.setOk)) := by
  by_cases h : s.cfg.memSize ≤ effectiveAddress s.addr s.bc
  · exact ⟨_, _, rdValue_outside h, .inr (.inl rfl)⟩
  · have h := Nat.not_le.1 h
    by_cases hs : s.addr = 0#32 ∧ s.len = 1#32
    · refine ⟨_, _, rdValue_status h hs.1 hs.2, ?_⟩
      unfold State.statusClear
      split
      · exact .inl rfl
      · exact .inr (.inr ⟨by simp_all, rfl⟩)
    · by_cases he : s.hasError = true
      · exact ⟨_, _, rdValue_error h hs he, .inl rfl⟩
      · exact ⟨_, _, rdValue_memory h hs (by simpa using he), .inl rfl⟩

end Sys2Proof.Machine
end

