-- ==== Sys2Proof/Laws/Invariant.lean ====
section
/-! SUPPORT. Each event, taken alone, keeps the invariant and cannot fault from it. -/

namespace Sys2Proof.Machine

/-! ## Legal status values -/

/-- A status value without `Busy`. -/
def statusIdle (st : Byte) : Prop := st = 0x80#8 ∨ (st ≠ 0#8 ∧ st &&& 0xE0#8 = 0#8)

theorem statusIdle_setFlag {st : Byte} (f : ErrFlag) (h : statusIdle st) :
    statusIdle (setFlag st f) := by
  unfold statusIdle at *; revert st; cases f <;> decide

theorem statusIdle.legal {st : Byte} (h : statusIdle st) : statusLegal st := by
  rcases h with h | h
  · exact .inl h
  · exact .inr (.inl h)

theorem statusIdle.not_busy {st : Byte} (h : statusIdle st) : ¬ (st = 0x20#8 ∨ st = 0x28#8) := by
  unfold statusIdle at h; revert st; decide

theorem statusIdle_ok : statusIdle 0x80#8 := .inl rfl

theorem setFlag_busy {st : Byte} (h : st = 0x20#8 ∨ st = 0x28#8) :
    setFlag st .invalidWrite = 0x28#8 := by
  rcases h with rfl | rfl <;> rfl

theorem anyErr_false_iff {st : Byte} : anyErr st = false ↔ st &&& 0x1F#8 = 0#8 := by
  simp [anyErr, errMask]

/-- Clear of all error flags, so clear of these two. -/
theorem clear_bbo_ird_of_anyErr {st : Byte} (h : anyErr st = false) :
    st &&& 0x06#8 = 0#8 ∧ st &&& 0x05#8 = 0#8 := by
  revert st; decide

theorem State.Inv.idleStatus {s : State} (h : s.Inv) (hp : s.pend = false) : statusIdle s.st := by
  have hb := h.busy
  rw [hp] at hb
  rcases h.status with h1 | h1 | h1 | h1
  · exact .inl h1
  · exact .inr h1
  · exact absurd (hb.2 (.inl h1)) (by simp)
  · exact absurd (hb.2 (.inr h1)) (by simp)

/-- Before the drain phase no restore is pending (10_state.md R37 (d)). -/
theorem State.Inv.notPending {s : State} (h : s.Inv) (hb : s.bc < 9 + s.len.toNat) :
    s.pend = false := by
  cases hp : s.pend with
  | false => rfl
  | true => have := (h.pending hp).2.2.2; omega

/-- The invariant without the byte spaces and the parameters: what the registers satisfy. -/
theorem State.Inv.of_registers {s t : State} (h : s.Inv) (hc : t.cfg = s.cfg)
    (hm : Memory.wf t.mem = true ∧ Memory.below t.mem s.cfg.memSize = true)
    (hbk : Memory.wf t.bk = true ∧ Memory.below t.bk (backupSize s.cfg) = true)
    (status : statusLegal t.st) (busy : t.pend = true ↔ t.st = 0x20#8 ∨ t.st = 0x28#8)
    (idle : t.bc = 0 → t.pend = false → t.len = 0#32 ∧ t.addr = 0#32 ∧ t.crc = 0#8)
    (lenLanes : ∀ k, t.bc ≤ k → k < 4 → lane t.len k = 0#8)
    (addrLanes : ∀ k, t.bc ≤ k + 4 → k < 4 → lane t.addr k = 0#8)
    (backupChecked : t.pend = false → 4 ≤ t.bc → s.cfg.backupEn = true → t.st &&& 0x06#8 = 0#8 →
      t.len.toNat ≤ s.cfg.bkSize)
    (boundsChecked : t.pend = false → 8 ≤ t.bc → t.st &&& 0x05#8 = 0#8 →
      transferEnd t.addr t.len < s.cfg.memSize)
    (pending : t.pend = true → s.cfg.backupEn = true ∧ t.len.toNat ≤ s.cfg.bkSize ∧
      transferEnd t.addr t.len < s.cfg.memSize ∧ 9 + t.len.toNat ≤ t.bc) : t.Inv where
  config := by rw [hc]; exact h.config
  memCanonical := hm.1
  memInside := by rw [hc]; exact hm.2
  bkCanonical := hbk.1
  bkInside := by rw [hc]; exact hbk.2
  status := status
  busy := busy
  idle := idle
  lenLanes := lenLanes
  addrLanes := addrLanes
  backupChecked := by rw [hc]; exact backupChecked
  boundsChecked := by rw [hc]; exact boundsChecked
  pending := by rw [hc]; exact pending

theorem State.Inv.mem {s : State} (h : s.Inv) :
    Memory.wf s.mem = true ∧ Memory.below s.mem s.cfg.memSize = true := ⟨h.memCanonical, h.memInside⟩

theorem State.Inv.bk {s : State} (h : s.Inv) :
    Memory.wf s.bk = true ∧ Memory.below s.bk (backupSize s.cfg) = true := ⟨h.bkCanonical, h.bkInside⟩

/-- Registers at their INIT values satisfy everything. -/
theorem State.Inv.of_cleared {s t : State} (h : s.Inv) (hc : t.cfg = s.cfg)
    (hm : Memory.wf t.mem = true ∧ Memory.below t.mem s.cfg.memSize = true)
    (hbk : Memory.wf t.bk = true ∧ Memory.below t.bk (backupSize s.cfg) = true)
    (hst : statusIdle t.st) (hp : t.pend = false) (hb : t.bc = 0) (hl : t.len = 0#32)
    (ha : t.addr = 0#32) (hcr : t.crc = 0#8) : t.Inv := by
  refine h.of_registers hc hm hbk hst.legal ?_ (fun _ _ => ⟨hl, ha, hcr⟩) ?_ ?_ ?_ ?_ ?_
  · rw [hp]; exact ⟨fun h => absurd h (by simp), fun h => absurd h hst.not_busy⟩
  · intros; simp [hl]
  · intros; simp [ha]
  · intro _ h; omega
  · intro _ h; omega
  · rw [hp]; simp

/-- A change of `CRC`, `ST` and `BC` past the header, with no flag lost, keeps the invariant. -/
theorem State.Inv.of_advance {s t : State} (h : s.Inv) (hp : s.pend = false) (h8 : 8 ≤ s.bc)
    (hc : t.cfg = s.cfg)
    (hm : Memory.wf t.mem = true ∧ Memory.below t.mem s.cfg.memSize = true)
    (hbk : Memory.wf t.bk = true ∧ Memory.below t.bk (backupSize s.cfg) = true)
    (hpt : t.pend = false) (hb : t.bc = s.bc + 1) (hl : t.len = s.len) (ha : t.addr = s.addr)
    (hst : t.st = s.st ∨ (∃ f, t.st = setFlag s.st f) ∨ (anyErr s.st = false ∧ t.st = 0x80#8)) :
    t.Inv := by
  have hi := h.idleStatus hp
  have hit : statusIdle t.st := by
    rcases hst with e | ⟨f, e⟩ | ⟨-, e⟩ <;> rw [e]
    · exact hi
    · exact statusIdle_setFlag f hi
    · exact statusIdle_ok
  have hclear : ∀ m : Byte, m &&& 0x7F#8 = m → (anyErr s.st = false → s.st &&& m = 0#8) →
      t.st &&& m = 0#8 → s.st &&& m = 0#8 := by
    intro m hm hn ht
    rcases hst with e | ⟨f, e⟩ | ⟨he, -⟩
    · rwa [e] at ht
    · rw [e] at ht; exact (and_eq_zero_of_setFlag hm ht).1
    · exact hn he
  refine h.of_registers hc hm hbk hit.legal ?_ ?_ ?_ ?_ ?_ ?_ ?_
  · rw [hpt]; exact ⟨fun h => absurd h (by simp), fun h => absurd h hit.not_busy⟩
  · omega
  · intros; omega
  · intros; omega
  · intro _ _ he hz
    rw [hl]
    exact h.backupChecked hp (by omega) he (hclear _ rfl (fun e => (clear_bbo_ird_of_anyErr e).1) hz)
  · intro _ _ hz
    rw [hl, ha]
    exact h.boundsChecked hp h8 (hclear _ rfl (fun e => (clear_bbo_ird_of_anyErr e).2) hz)
  · rw [hpt]; simp

/-! ## WR_BYTE -/

theorem inv_wrLength {s : State} (h : s.Inv) (b : Byte) (hb : s.bc < 4) :
    (s.undriven.txStart.wrLength b).advance.Inv := by
  have hp := h.notPending (by omega)
  have hi : statusIdle (s.undriven.txStart).st := by
    rw [State.txStart_eq]
    simp only [State.undriven_bc, State.undriven_st]
    by_cases h0 : s.bc = 0
    · rw [if_pos h0]; exact statusIdle_ok
    · rw [if_neg h0]; exact h.idleStatus hp
  have key : ∀ t : State, t.cfg = s.cfg → t.mem = s.mem → t.bk = s.bk → statusIdle t.st →
      t.pend = false → t.bc = s.bc + 1 → t.len = setLane s.len s.bc b → t.addr = s.addr →
      (s.bc = 3 → s.cfg.backupEn = true → t.st &&& 0x06#8 = 0#8 → t.len.toNat ≤ s.cfg.bkSize) →
      t.Inv := by
    intro t hc hm hbk hst hpt hbt hl ha hchk
    refine h.of_registers hc (hm ▸ h.mem) (hbk ▸ h.bk) hst.legal ?_ (by omega) ?_ ?_ ?_ (by omega) ?_
    · rw [hpt]; exact ⟨fun h => absurd h (by simp), fun h => absurd h hst.not_busy⟩
    · intro k hk hk4
      rw [hl, lane_setLane_other _ hk4 (by omega)]
      exact h.lenLanes k (by omega) hk4
    · intro k _ hk4
      rw [ha]; exact h.addrLanes k (by omega) hk4
    · intro _ h4 he hz
      exact hchk (by omega) he hz
    · rw [hpt]; simp
  unfold State.wrLength
  simp only [State.undriven_bc, State.txStart_bc]
  split
  · apply key <;> simp [hp, statusIdle_setFlag _ hi]
    intro _ _ hz
    exact absurd (and_eq_zero_of_setFlag (m := 0x06#8) rfl hz).2 (by decide)
  · next hn =>
    apply key <;> simp [hp, hi]
    intro h3 he _
    by_contra hlt
    exact hn ⟨h3, by simpa using he, by simpa using hlt⟩

theorem inv_wrAddress {s : State} (h : s.Inv) (b : Byte) (h4 : 4 ≤ s.bc) (h8 : s.bc < 8) :
    (s.undriven.wrAddress b).advance.Inv := by
  have hp := h.notPending (by omega)
  have hi := h.idleStatus hp
  have key : ∀ t : State, t.cfg = s.cfg → t.mem = s.mem → t.bk = s.bk → statusIdle t.st →
      t.pend = false → t.bc = s.bc + 1 → t.len = s.len → t.addr = setLane s.addr (s.bc - 4) b →
      (∀ m : Byte, m &&& 0x7F#8 = m → t.st &&& m = 0#8 → s.st &&& m = 0#8) →
      (s.bc = 7 → t.st &&& 0x05#8 = 0#8 → transferEnd t.addr t.len < s.cfg.memSize) →
      t.Inv := by
    intro t hc hm hbk hst hpt hbt hl ha hclear hchk
    refine h.of_registers hc (hm ▸ h.mem) (hbk ▸ h.bk) hst.legal ?_ (by omega) ?_ ?_ ?_ ?_ ?_
    · rw [hpt]; exact ⟨fun h => absurd h (by simp), fun h => absurd h hst.not_busy⟩
    · intros; omega
    · intro k hk hk4
      rw [ha, lane_setLane_other _ hk4 (by omega)]
      exact h.addrLanes k (by omega) hk4
    · intro _ _ he hz
      rw [hl]
      exact h.backupChecked hp h4 he (hclear _ rfl hz)
    · intro _ h8' hz
      exact hchk (by omega) hz
    · rw [hpt]; simp
  unfold State.wrAddress
  simp only [State.undriven_bc]
  by_cases hn : s.bc = 7 ∧ (State.fold b (State.setAddrLane (s.bc - 4) b s.undriven)).cfg.memSize ≤
      transferEnd (State.fold b (State.setAddrLane (s.bc - 4) b s.undriven)).addr
        (State.fold b (State.setAddrLane (s.bc - 4) b s.undriven)).len
  · rw [if_pos hn]
    apply key <;> simp [hp, statusIdle_setFlag _ hi]
    · intro m hm hz; exact (and_eq_zero_of_setFlag hm hz).1
    · intro _ hz
      exact absurd (and_eq_zero_of_setFlag (m := 0x05#8) rfl hz).2 (by decide)
  · rw [if_neg hn]
    apply key <;> simp [hp, hi]
    intro h7 _
    by_contra hlt
    exact hn ⟨h7, by simpa using hlt⟩

/-- In the data phase with no error flag, the transfer lies inside both buffers (41_write_byte.md R77, its corner case). -/
theorem State.Inv.dataInside {s : State} (h : s.Inv) (h8 : 8 ≤ s.bc) (hd : s.bc < 8 + s.len.toNat)
    (he : anyErr s.st = false) :
    effectiveAddress s.addr s.bc < s.cfg.memSize ∧
      (s.cfg.backupEn = true → dataOffset s.bc < s.cfg.bkSize) := by
  have hp := h.notPending (by omega)
  obtain ⟨hb, hm⟩ := clear_bbo_ird_of_anyErr he
  constructor
  · have := h.boundsChecked hp h8 hm
    simp only [transferEnd] at this
    simp only [effectiveAddress, dataOffset]
    omega
  · intro hen
    have := h.backupChecked hp (by omega) hen hb
    simp only [dataOffset]
    omega

/-- A data byte from the invariant: dropped when a flag is set, otherwise applied with the old byte saved. -/
theorem wrData_eq {s : State} (h : s.Inv) (b : Byte) (h8 : 8 ≤ s.bc) (hd : s.bc < 8 + s.len.toNat) :
    s.wrData b = .ok (
      if anyErr s.st then s.fold b
      else if s.cfg.backupEn then
        { s.fold b with
          bk := Memory.write s.bk (dataOffset s.bc) (Memory.read s.mem (effectiveAddress s.addr s.bc)),
          mem := Memory.write s.mem (effectiveAddress s.addr s.bc) b }
      else { s.fold b with mem := Memory.write s.mem (effectiveAddress s.addr s.bc) b }) := by
  unfold State.wrData
  simp only [State.hasError, State.fold_st]
  by_cases he : anyErr s.st = true
  · rw [if_pos he, if_pos he]
  · have he' : anyErr s.st = false := by simpa using he
    obtain ⟨hm, hb⟩ := h.dataInside h8 hd he'
    have hb' : ¬ ((s.fold b).cfg.backupEn = true ∧ (s.fold b).cfg.bkSize < dataOffset s.bc) :=
      fun hh => absurd hh.2 (Nat.not_lt.2 (Nat.le_of_lt (hb hh.1)))
    have hm' : ¬ (s.fold b).cfg.memSize ≤ effectiveAddress s.addr s.bc := Nat.not_le.2 hm
    rw [if_neg he, if_neg he, if_neg hm', if_neg hb']
    by_cases hen : s.cfg.backupEn = true
    · rw [if_pos hen, applyData_on (s := s.fold b) hen (hb hen) hm]
      rfl
    · rw [if_neg hen, applyData_off (s := s.fold b) (Bool.eq_false_iff.2 hen) hm]
      rfl

theorem State.undriven_inv {s : State} (h : s.Inv) : s.undriven.Inv :=
  ⟨h.config, h.memCanonical, h.memInside, h.bkCanonical, h.bkInside, h.status, h.busy, h.idle,
    h.lenLanes, h.addrLanes, h.backupChecked, h.boundsChecked, h.pending⟩

theorem inv_wrData {s : State} (h : s.Inv) (b : Byte) (h8 : 8 ≤ s.bc) (hd : s.bc < 8 + s.len.toNat) :
    ∃ t, s.wrData b = .ok t ∧ t.advance.Inv := by
  have hp := h.notPending (by omega)
  refine ⟨_, wrData_eq h b h8 hd, ?_⟩
  split
  · exact h.of_advance hp h8 rfl h.mem h.bk hp rfl rfl rfl (.inl rfl)
  · next he =>
    have he' : anyErr s.st = false := by simpa using he
    obtain ⟨hm, hb⟩ := h.dataInside h8 hd he'
    split
    · next hen =>
      refine h.of_advance hp h8 rfl ?_ ?_ hp rfl rfl rfl (.inl rfl)
      · exact ⟨Memory.write_wf h.memCanonical _ _, Memory.write_below h.memInside hm _⟩
      · refine ⟨Memory.write_wf h.bkCanonical _ _, Memory.write_below h.bkInside ?_ _⟩
        rw [backupSize_on hen]; exact hb hen
    · exact h.of_advance hp h8 rfl
        ⟨Memory.write_wf h.memCanonical _ _, Memory.write_below h.memInside hm _⟩ h.bk hp rfl rfl rfl
        (.inl rfl)

theorem inv_wrDrain {s : State} (h : s.Inv) (hd : 8 + s.len.toNat < s.bc) :
    s.undriven.wrDrain.advance.Inv := by
  cases hp : s.pend with
  | false =>
    exact h.of_advance hp (by omega) rfl h.mem h.bk hp rfl rfl rfl (.inr (.inl ⟨_, rfl⟩))
  | true =>
    have hst := setFlag_busy (h.busy.1 hp)
    obtain ⟨p1, p2, p3, p4⟩ := h.pending hp
    refine h.of_registers rfl h.mem h.bk ?_ ?_ ?_ ?_ ?_ ?_ ?_ ?_ <;>
      simp [State.wrDrain, hst, hp, statusLegal, p1, p2, p3]
    · intros; omega
    · intros; omega
    · omega

theorem inv_wrEvent {s : State} (h : s.Inv) (b : Byte) : ∃ t, s.wrEvent b = .ok t ∧ t.Inv := by
  by_cases h4 : s.bc < 4
  · exact ⟨_, wrEvent_length b h4, inv_wrLength h b h4⟩
  by_cases h8 : s.bc < 8
  · exact ⟨_, wrEvent_address b (by omega) h8, inv_wrAddress h b (by omega) h8⟩
  by_cases hd : s.bc < 8 + s.len.toNat
  · obtain ⟨t, ht, hi⟩ := inv_wrData (State.undriven_inv h) b (by simpa using h8) (by simpa using hd)
    exact ⟨t.advance, by rw [wrEvent_data b (by omega) hd, ht, ok_bind], hi⟩
  by_cases hc : s.bc = 8 + s.len.toNat
  · refine ⟨_, wrEvent_checksum b hc, ?_⟩
    have hp := h.notPending (by omega)
    unfold State.wrChecksum
    split
    · exact h.of_advance hp (by omega) rfl h.mem h.bk hp rfl rfl rfl (.inr (.inl ⟨_, rfl⟩))
    · exact h.of_advance hp (by omega) rfl h.mem h.bk hp rfl rfl rfl (.inl rfl)
  · exact ⟨_, wrEvent_drain b (by omega), inv_wrDrain h (by omega)⟩

/-! ## RD_BYTE -/

theorem inv_rdHeader {s : State} (h : s.Inv) (hb : s.bc < 8) : s.rdHeader.advance.Inv := by
  have hp := h.notPending (by omega)
  have hi := statusIdle_setFlag .invalidRead (h.idleStatus hp)
  have hst : s.rdHeader.advance.st = setFlag s.st .invalidRead := rfl
  refine h.of_registers rfl h.mem h.bk hi.legal ?_ (fun hz => absurd hz (Nat.succ_ne_zero _))
    (fun k hk => h.lenLanes k (Nat.le_of_succ_le hk)) (fun k hk => h.addrLanes k (Nat.le_of_succ_le hk))
    ?_ ?_ ?_
  · exact ⟨fun hq => absurd (hp.symm.trans hq) (by simp), fun hq => absurd hq hi.not_busy⟩
  · intro _ _ _ hz
    exact absurd (and_eq_zero_of_setFlag (m := 0x06#8) rfl hz).2 (by decide)
  · intro _ _ hz
    exact absurd (and_eq_zero_of_setFlag (m := 0x05#8) rfl hz).2 (by decide)
  · intro hq; exact absurd (hp.symm.trans hq) (by simp)

theorem inv_rdData {s : State} (h : s.Inv) (h8 : 8 ≤ s.bc) (hd : s.bc < 8 + s.len.toNat) :
    ∃ t, s.serveData = .ok t ∧ t.advance.Inv := by
  have hp := h.notPending (by omega)
  obtain ⟨v, t, hv, ht⟩ := rdValue_cases s
  refine ⟨(t.fold v).emit v, by rw [State.serveData, hv]; rfl, ?_⟩
  rcases ht with rfl | rfl | ⟨he, rfl⟩
  · exact h.of_advance hp h8 rfl h.mem h.bk hp rfl rfl rfl (.inl rfl)
  · exact h.of_advance hp h8 rfl h.mem h.bk hp rfl rfl rfl (.inr (.inl ⟨_, rfl⟩))
  · exact h.of_advance hp h8 rfl h.mem h.bk hp rfl rfl rfl (.inr (.inr ⟨he, rfl⟩))

theorem armsRestore_false_of_busy {s : State} (h : s.st = 0x20#8 ∨ s.st = 0x28#8) :
    s.armsRestore = false := by
  unfold State.armsRestore
  rcases h with h | h <;> rw [h] <;> simp [hasFlag, flagCode]

theorem armsRestore_iff {s : State} : s.armsRestore = true ↔
    s.st &&& 0x10#8 ≠ 0#8 ∧ s.cfg.backupEn = true ∧ s.st &&& 0x07#8 = 0#8 := by
  simp [State.armsRestore, hasFlag, flagCode, blocksRestore, noRestoreMask, and_assoc]

theorem inv_rdFinal {s : State} (h : s.Inv) (hd : 8 + s.len.toNat < s.bc) : s.rdFinal.Inv := by
  unfold State.rdFinal
  cases ha : s.armsRestore with
  | true =>
    obtain ⟨hdc, hen, hz⟩ := armsRestore_iff.1 ha
    have hp : s.pend = false := by
      cases hp : s.pend with
      | false => rfl
      | true => rw [armsRestore_false_of_busy (h.busy.1 hp)] at ha; cases ha
    have hz2 : s.st &&& 0x06#8 = 0#8 ∧ s.st &&& 0x05#8 = 0#8 := by
      generalize s.st = st at hz; revert st; decide
    have p2 := h.backupChecked hp (by omega) hen hz2.1
    have p3 := h.boundsChecked hp (by omega) hz2.2
    refine h.of_registers rfl h.mem h.bk ?_ ?_ ?_ ?_ ?_ ?_ ?_ ?_ <;>
      simp [State.endTransaction, statusLegal, hen, p2, p3]
    · intros; omega
    · intros; omega
    · omega
  | false =>
    cases hp : s.pend with
    | false =>
      have : ((s.emit s.st).endTransaction) = (s.emit s.st).clearCounters := by
        simp [State.endTransaction, hp]
      simp only [Bool.false_eq_true, if_false, this]
      exact h.of_cleared rfl h.mem h.bk (h.idleStatus hp) hp rfl rfl rfl rfl
    | true =>
      obtain ⟨p1, p2, p3, p4⟩ := h.pending hp
      have : ((s.emit s.st).endTransaction) = (s.emit s.st).advance := by
        simp [State.endTransaction, hp]
      simp only [Bool.false_eq_true, if_false, this]
      refine h.of_registers rfl h.mem h.bk ?_ ?_ ?_ ?_ ?_ ?_ ?_ ?_ <;>
        simp [hp, p1, p2, p3, h.status, h.busy.1 hp]
      · intros; omega
      · intros; omega
      · omega

theorem inv_rdEvent {s : State} (h : s.Inv) : ∃ t, s.rdEvent = .ok t ∧ t.Inv := by
  by_cases h8 : s.bc < 8
  · exact ⟨_, rdEvent_header h8, inv_rdHeader h h8⟩
  by_cases hd : s.bc < 8 + s.len.toNat
  · obtain ⟨t, ht, hi⟩ := inv_rdData h (by omega) hd
    exact ⟨t.advance, by rw [rdEvent_data (by omega) hd, ht, ok_bind], hi⟩
  by_cases hc : s.bc = 8 + s.len.toNat
  · have hp := h.notPending (by omega)
    exact ⟨_, rdEvent_checksum hc,
      h.of_advance hp (by omega) rfl h.mem h.bk hp rfl rfl rfl (.inl rfl)⟩
  · exact ⟨_, rdEvent_drain (by omega), inv_rdFinal h (by omega)⟩

/-! ## PROCESS, INIT and the host application -/

/-- PROCESS from the invariant with a restore pending. -/
theorem processEvent_pending {s : State} (h : s.Inv) (hp : s.pend = true) :
    s.processEvent = .ok
      { s.undriven with mem := copied s.bk s.addr.toNat s.len.toNat 0 s.mem }.finishRestore := by
  obtain ⟨p1, p2, p3, p4⟩ := h.pending hp
  simp only [transferEnd] at p3
  have hc : s.undriven.copyBack s.len.toNat 0 =
      .ok { s.undriven with mem := copied s.bk s.addr.toNat s.len.toNat 0 s.mem } := by
    refine copyBack_eq ?_ ?_
    · rw [State.undriven_cfg, backupSize_on p1]; omega
    · simp only [State.undriven_cfg, State.undriven_addr]; omega
  rw [State.processEvent, if_pos hp, hc, ok_bind, pure_eq_ok]

theorem processEvent_idle {s : State} (hp : s.pend = false) : s.processEvent = .ok s.undriven := by
  rw [State.processEvent, if_neg (by simp [hp])]

theorem inv_processEvent {s : State} (h : s.Inv) : ∃ t, s.processEvent = .ok t ∧ t.Inv := by
  cases hp : s.pend with
  | false => exact ⟨_, processEvent_idle hp, State.undriven_inv h⟩
  | true =>
    have p3 := (h.pending hp).2.2.1
    simp only [transferEnd] at p3
    refine ⟨_, processEvent_pending h hp, h.of_cleared rfl
      ⟨copied_wf h.memCanonical, copied_below h.memInside (by omega)⟩ h.bk statusIdle_ok rfl rfl rfl
      rfl rfl⟩

theorem inv_initEvent {s : State} (h : s.Inv) : s.initEvent.Inv :=
  h.of_cleared rfl h.mem h.bk statusIdle_ok rfl rfl rfl rfl rfl

/-- The invariant speaks of the registers, the byte spaces and the parameters only. -/
theorem State.Inv.congr {s t : State} (h : s.Inv) (hc : t.cfg = s.cfg) (hb : t.bc = s.bc)
    (hl : t.len = s.len) (ha : t.addr = s.addr) (hcr : t.crc = s.crc) (hs : t.st = s.st)
    (hp : t.pend = s.pend)
    (hm : Memory.wf t.mem = true ∧ Memory.below t.mem s.cfg.memSize = true)
    (hk : Memory.wf t.bk = true ∧ Memory.below t.bk (backupSize s.cfg) = true) : t.Inv := by
  refine h.of_registers hc hm hk ?_ ?_ ?_ ?_ ?_ ?_ ?_ ?_ <;> simp only [hb, hl, ha, hcr, hs, hp]
  · exact h.status
  · exact h.busy
  · exact h.idle
  · exact h.lenLanes
  · exact h.addrLanes
  · exact h.backupChecked
  · exact h.boundsChecked
  · exact h.pending

theorem inv_appAccess {s t : State} (h : s.Inv) {x : AppAccess} (hx : s.appAccess x = .ok t) :
    t.Inv := by
  cases x with
  | readMem a =>
    simp only [State.appAccess] at hx
    split at hx <;> cases hx
    exact h.congr rfl rfl rfl rfl rfl rfl rfl h.mem h.bk
  | writeMem a v =>
    simp only [State.appAccess] at hx
    split at hx <;> cases hx
    exact h.congr rfl rfl rfl rfl rfl rfl rfl
      ⟨Memory.write_wf h.memCanonical _ _, Memory.write_below h.memInside (by assumption) _⟩ h.bk
  | readBk o =>
    simp only [State.appAccess] at hx
    split at hx <;> cases hx
    exact h.congr rfl rfl rfl rfl rfl rfl rfl h.mem h.bk
  | writeBk o v =>
    simp only [State.appAccess] at hx
    split at hx <;> cases hx
    exact h.congr rfl rfl rfl rfl rfl rfl rfl h.mem
      ⟨Memory.write_wf h.bkCanonical _ _, Memory.write_below h.bkInside (by assumption) _⟩

end Sys2Proof.Machine
end

