-- ==== Sys2Proof/Laws/Outside.lean ====
section
/-! SUPPORT. What the events and the host application's steps leave to the other agents. -/

namespace Sys2Proof.Machine

theorem SameOutside.refl (s : State) : SameOutside s s := ⟨rfl, rfl, rfl, rfl, rfl, rfl, rfl⟩

theorem SameOutside.trans {s t u : State} (h : SameOutside s t) (h' : SameOutside t u) :
    SameOutside s u :=
  ⟨h'.cfg.trans h.cfg, h'.crcOut.trans h.crcOut, h'.appOut.trans h.appOut,
    h'.ctlStatus.trans h.ctlStatus, h'.ctlBuf.trans h.ctlBuf, h'.inputs.trans h.inputs,
    h'.transport.trans h.transport⟩

theorem wrLength_outside (b : Byte) (s : State) : SameOutside s (s.wrLength b) := by
  rw [wrLength_eq]; exact ⟨rfl, rfl, rfl, rfl, rfl, rfl, rfl⟩

theorem wrAddress_outside (b : Byte) (s : State) : SameOutside s (s.wrAddress b) := by
  rw [wrAddress_eq]; exact ⟨rfl, rfl, rfl, rfl, rfl, rfl, rfl⟩

theorem wrChecksum_outside (b : Byte) (s : State) : SameOutside s (s.wrChecksum b) := by
  rw [wrChecksum_eq]; exact ⟨rfl, rfl, rfl, rfl, rfl, rfl, rfl⟩

theorem txStart_outside (s : State) : SameOutside s s.txStart := by
  rw [State.txStart_eq]; exact ⟨rfl, rfl, rfl, rfl, rfl, rfl, rfl⟩

theorem memWrite_outside {a : Nat} {v : Byte} {s t : State} (h : s.memWrite a v = .ok t) :
    SameOutside s t := by
  unfold State.memWrite at h; split at h <;> cases h; exact ⟨rfl, rfl, rfl, rfl, rfl, rfl, rfl⟩

theorem bkWrite_outside {o : Nat} {v : Byte} {s t : State} (h : s.bkWrite o v = .ok t) :
    SameOutside s t := by
  unfold State.bkWrite at h; split at h <;> cases h; exact ⟨rfl, rfl, rfl, rfl, rfl, rfl, rfl⟩

theorem applyData_outside {b : Byte} {off ea : Nat} {s t : State} (h : s.applyData b off ea = .ok t) :
    SameOutside s t := by
  unfold State.applyData at h
  split at h
  · obtain ⟨old, -, h⟩ := bind_eq_ok.1 h
    obtain ⟨u, hu, h⟩ := bind_eq_ok.1 h
    exact (bkWrite_outside hu).trans (memWrite_outside h)
  · exact memWrite_outside h

theorem wrData_outside {b : Byte} {s t : State} (h : s.wrData b = .ok t) : SameOutside s t := by
  unfold State.wrData at h
  simp only at h
  split at h
  · cases h; exact ⟨rfl, rfl, rfl, rfl, rfl, rfl, rfl⟩
  · split at h
    · cases h; exact ⟨rfl, rfl, rfl, rfl, rfl, rfl, rfl⟩
    · split at h
      · cases h; exact ⟨rfl, rfl, rfl, rfl, rfl, rfl, rfl⟩
      · have h1 : SameOutside s (s.fold b) := ⟨rfl, rfl, rfl, rfl, rfl, rfl, rfl⟩
        exact h1.trans (applyData_outside h)

theorem wrBranch_outside {b : Byte} {s t : State} (h : s.wrBranch b = .ok t) : SameOutside s t := by
  unfold State.wrBranch at h
  split at h
  · cases h; exact wrLength_outside b s
  · cases h; exact wrAddress_outside b s
  · exact wrData_outside h
  · cases h; exact wrChecksum_outside b s
  · cases h; exact ⟨rfl, rfl, rfl, rfl, rfl, rfl, rfl⟩

theorem wrEvent_outside {b : Byte} {s t : State} (h : s.wrEvent b = .ok t) : SameOutside s t := by
  obtain ⟨u, hu, h⟩ := bind_eq_ok.1 h
  cases h
  have h1 : SameOutside s s.undriven := ⟨rfl, rfl, rfl, rfl, rfl, rfl, rfl⟩
  have h2 : SameOutside u u.advance := ⟨rfl, rfl, rfl, rfl, rfl, rfl, rfl⟩
  exact ((h1.trans (txStart_outside _)).trans (wrBranch_outside hu)).trans h2

theorem serveData_outside {s t : State} (h : s.serveData = .ok t) :
    SameOutside s t ∧ t.bc = s.bc ∧ t.len = s.len ∧ t.addr = s.addr ∧ t.pend = s.pend ∧
      t.mem = s.mem ∧ t.bk = s.bk := by
  obtain ⟨v, u, hv, hu⟩ := rdValue_cases s
  rw [State.serveData, hv] at h
  cases h
  rcases hu with rfl | rfl | ⟨-, rfl⟩ <;>
    exact ⟨⟨rfl, rfl, rfl, rfl, rfl, rfl, rfl⟩, rfl, rfl, rfl, rfl, rfl, rfl⟩

/-- RD_BYTE reads `MEM` and never writes `MEM` or `BK` (42_read_byte.md R81). -/
theorem rdEvent_outside {s t : State} (h : s.rdEvent = .ok t) :
    SameOutside s t ∧ t.mem = s.mem ∧ t.bk = s.bk := by
  by_cases h8 : s.bc < 8
  · rw [rdEvent_header h8] at h; cases h
    exact ⟨⟨rfl, rfl, rfl, rfl, rfl, rfl, rfl⟩, rfl, rfl⟩
  by_cases hd : s.bc < 8 + s.len.toNat
  · rw [rdEvent_data (by omega) hd] at h
    obtain ⟨u, hu, h⟩ := bind_eq_ok.1 h
    cases h
    obtain ⟨ho, -, -, -, -, hm, hb⟩ := serveData_outside hu
    exact ⟨ho.trans ⟨rfl, rfl, rfl, rfl, rfl, rfl, rfl⟩, hm, hb⟩
  by_cases hc : s.bc = 8 + s.len.toNat
  · rw [rdEvent_checksum hc] at h; cases h
    exact ⟨⟨rfl, rfl, rfl, rfl, rfl, rfl, rfl⟩, rfl, rfl⟩
  · rw [rdEvent_drain (by omega)] at h; cases h
    unfold State.rdFinal State.endTransaction
    cases s.armsRestore <;> simp only [Bool.false_eq_true, if_true, if_false] <;> split <;>
      exact ⟨⟨rfl, rfl, rfl, rfl, rfl, rfl, rfl⟩, rfl, rfl⟩

theorem copyBack_outside {n i : Nat} {s t : State} (h : s.copyBack n i = .ok t) :
    SameOutside s t := by
  induction n generalizing i s with
  | zero => cases h; exact SameOutside.refl _
  | succ n ih =>
    obtain ⟨v, -, h⟩ := bind_eq_ok.1 h
    obtain ⟨u, hu, h⟩ := bind_eq_ok.1 h
    exact (memWrite_outside hu).trans (ih h)

theorem processEvent_outside {s t : State} (h : s.processEvent = .ok t) : SameOutside s t := by
  unfold State.processEvent at h
  split at h
  · obtain ⟨u, hu, h⟩ := bind_eq_ok.1 h
    cases h
    have h1 : SameOutside s s.undriven := ⟨rfl, rfl, rfl, rfl, rfl, rfl, rfl⟩
    exact (h1.trans (copyBack_outside hu)).trans ⟨rfl, rfl, rfl, rfl, rfl, rfl, rfl⟩
  · cases h; exact ⟨rfl, rfl, rfl, rfl, rfl, rfl, rfl⟩

theorem initEvent_outside (s : State) : SameOutside s s.initEvent :=
  ⟨rfl, rfl, rfl, rfl, rfl, rfl, rfl⟩

theorem appAccess_cfg {x : AppAccess} {s t : State} (h : s.appAccess x = .ok t) :
    t.cfg = s.cfg ∧ t.transport = s.transport ∧ t.inputs = s.inputs := by
  cases x <;> simp only [State.appAccess] at h <;> split at h <;> cases h <;> exact ⟨rfl, rfl, rfl⟩

/-- An access to a byte that exists goes through. -/
theorem appAccess_inside {x : AppAccess} {s : State} (h : x.inside s.cfg = true) :
    ∃ t, s.appAccess x = .ok t := by
  cases x <;> simp only [AppAccess.inside, decide_eq_true_eq] at h <;> simp [State.appAccess, h]

theorem appAccess_error {x : AppAccess} {s : State} {f : Fault} (h : s.appAccess x = .error f) :
    f.ofBlock = false := by
  cases x <;> simp only [State.appAccess] at h <;> split at h <;> cases h <;> rfl

theorem hostAct_cfg {x : HostAct} {s t : State} (h : s.hostAct x = .ok t) :
    t.cfg = s.cfg ∧ t.transport = s.transport ∧ t.inputs = s.inputs := by
  cases x with
  | process => have := processEvent_outside h; exact ⟨this.cfg, this.transport, this.inputs⟩
  | init => cases h; exact ⟨rfl, rfl, rfl⟩
  | access x => exact appAccess_cfg h

theorem hostActs_cfg {xs : List HostAct} {s t : State} (h : s.hostActs xs = .ok t) :
    t.cfg = s.cfg ∧ t.transport = s.transport ∧ t.inputs = s.inputs := by
  induction xs generalizing s with
  | nil => cases h; exact ⟨rfl, rfl, rfl⟩
  | cons x xs ih =>
    obtain ⟨u, hu, h⟩ := bind_eq_ok.1 h
    obtain ⟨h1, h2, h3⟩ := hostAct_cfg hu
    obtain ⟨h4, h5, h6⟩ := ih h
    exact ⟨h4.trans h1, h5.trans h2, h6.trans h3⟩

/-- A host step from the invariant keeps it, or faults by an access of the host application's own. -/
theorem hostAct_inv {x : HostAct} {s : State} (h : s.Inv) :
    (∃ t, s.hostAct x = .ok t ∧ t.Inv) ∨
      (∃ f, s.hostAct x = .error f ∧ f.ofBlock = false ∧ HostAct.inside s.cfg x = false) := by
  cases x with
  | process => exact .inl (inv_processEvent h)
  | init => exact .inl ⟨_, rfl, inv_initEvent h⟩
  | access x =>
    cases hx : s.appAccess x with
    | ok t => exact .inl ⟨t, hx, inv_appAccess h hx⟩
    | error f =>
      refine .inr ⟨f, hx, appAccess_error hx, ?_⟩
      cases hi : x.inside s.cfg with
      | false => exact hi
      | true => obtain ⟨t, ht⟩ := appAccess_inside hi; rw [ht] at hx; cases hx

theorem hostActs_inv {xs : List HostAct} {s : State} (h : s.Inv) :
    (∃ t, s.hostActs xs = .ok t ∧ t.Inv) ∨
      (∃ f, s.hostActs xs = .error f ∧ f.ofBlock = false ∧
        ∃ x ∈ xs, HostAct.inside s.cfg x = false) := by
  induction xs generalizing s with
  | nil => exact .inl ⟨s, rfl, h⟩
  | cons x xs ih =>
    rcases hostAct_inv (x := x) h with ⟨u, hu, hi⟩ | ⟨f, hf, ho, hx⟩
    · have hc := (hostAct_cfg hu).1
      rcases ih hi with ⟨t, ht, hti⟩ | ⟨f, hf, ho, y, hy, hyi⟩
      · exact .inl ⟨t, by rw [State.hostActs, hu, ok_bind, ht], hti⟩
      · exact .inr ⟨f, by rw [State.hostActs, hu, ok_bind, hf], ho, y, by simp [hy], hc ▸ hyi⟩
    · exact .inr ⟨f, by rw [State.hostActs, hf, error_bind], ho, x, by simp, hx⟩

end Sys2Proof.Machine
end

