-- ==== Sys2Proof/Laws/Controller.lean ====
section
/-! SUPPORT. The controller's calls, event by event: from the invariant they go through and keep it, unless a host
step among their events names a byte that does not exist. -/

namespace Sys2Proof.Machine

/-- A computation answers a state that keeps the invariant, the parameters `C` and no more than the transport `T`; or
it faults by a host step of `T` that lies outside the buffers. -/
def Keeps {α : Type} (C : Config) (T : List Carriage) (proj : α → State) (r : Except Fault α) : Prop :=
  (∃ a, r = .ok a ∧ (proj a).Inv ∧ (proj a).cfg = C ∧ (proj a).transport ⊆ T) ∨
    (∃ f, r = .error f ∧ f.ofBlock = false ∧
      ∃ c ∈ T, ∃ acts ∈ c.between, ∃ x ∈ acts, HostAct.inside C x = false)

theorem Keeps.ok {α : Type} {C : Config} {T : List Carriage} {proj : α → State} {a : α}
    (h : (proj a).Inv) (hc : (proj a).cfg = C) (ht : (proj a).transport ⊆ T) :
    Keeps C T proj (.ok a) := .inl ⟨a, rfl, h, hc, ht⟩

theorem Keeps.bind {α β : Type} {C : Config} {T : List Carriage} {proj : α → State} {proj' : β → State}
    {r : Except Fault α} {f : α → Except Fault β} (h : Keeps C T proj r)
    (hf : ∀ a, (proj a).Inv → (proj a).cfg = C → (proj a).transport ⊆ T → Keeps C T proj' (f a)) :
    Keeps C T proj' (r >>= f) := by
  rcases h with ⟨a, rfl, h1, h2, h3⟩ | ⟨e, rfl, h1, h2⟩
  · exact hf a h1 h2 h3
  · exact .inr ⟨e, rfl, h1, h2⟩

/-- With every host step inside the buffers, the computation answers. -/
theorem Keeps.completes {α : Type} {C : Config} {T : List Carriage} {proj : α → State}
    {r : Except Fault α} (h : Keeps C T proj r)
    (hT : ∀ c ∈ T, ∀ acts ∈ c.between, ∀ x ∈ acts, HostAct.inside C x = true) :
    ∃ a, r = .ok a ∧ (proj a).Inv := by
  rcases h with ⟨a, rfl, h1, -, -⟩ | ⟨e, rfl, -, c, hc, acts, ha, x, hx, hi⟩
  · exact ⟨a, rfl, h1⟩
  · rw [hT c hc acts ha x hx] at hi; cases hi

theorem Keeps.inv {α : Type} {C : Config} {T : List Carriage} {proj : α → State}
    {r : Except Fault α} {a : α} (h : Keeps C T proj r) (ha : r = .ok a) :
    (proj a).Inv ∧ (proj a).cfg = C := by
  rcases h with ⟨b, hb, h1, h2, -⟩ | ⟨e, he, -⟩
  · rw [ha] at hb; cases hb; exact ⟨h1, h2⟩
  · rw [ha] at he; cases he

theorem Keeps.fault {α : Type} {C : Config} {T : List Carriage} {proj : α → State}
    {r : Except Fault α} {f : Fault} (h : Keeps C T proj r) (hf : r = .error f) :
    f.ofBlock = false := by
  rcases h with ⟨b, hb, -⟩ | ⟨e, he, ho, -⟩
  · rw [hf] at hb; cases hb
  · rw [hf] at he; cases he; exact ho

theorem keeps_hostActs {s : State} {C : Config} {T : List Carriage} {c : Carriage}
    {xs : List HostAct} (h : s.Inv) (hC : s.cfg = C) (hT : s.transport ⊆ T) (hc : c ∈ T)
    (hxs : xs ∈ c.between) : Keeps C T id (s.hostActs xs) := by
  rcases hostActs_inv (xs := xs) h with ⟨t, ht, hi⟩ | ⟨f, hf, ho, x, hx, hi⟩
  · obtain ⟨h1, h2, -⟩ := hostActs_cfg ht
    exact .inl ⟨t, ht, hi, h1.trans hC, h2 ▸ hT⟩
  · exact .inr ⟨f, hf, ho, c, hc, xs, hxs, x, hx, hC ▸ hi⟩

/-- The host steps before the next event: an entry of the carriage, or none. -/
theorem keeps_hostActs_head {s : State} {C : Config} {T : List Carriage} {c : Carriage}
    {acts : List (List HostAct)} (h : s.Inv) (hC : s.cfg = C) (hT : s.transport ⊆ T)
    (ha : acts ≠ [] → c ∈ T ∧ acts ⊆ c.between) : Keeps C T id (s.hostActs (acts.headD [])) := by
  cases acts with
  | nil => exact .ok (proj := id) h hC hT
  | cons xs rest =>
    obtain ⟨h1, h2⟩ := ha (by simp)
    exact keeps_hostActs h hC hT h1 (h2 (by simp))

theorem keeps_wrEvent {s : State} {C : Config} {T : List Carriage} (b : Byte) (h : s.Inv)
    (hC : s.cfg = C) (hT : s.transport ⊆ T) : Keeps C T id (s.wrEvent b) := by
  obtain ⟨t, ht, hi⟩ := inv_wrEvent h b
  have ho := wrEvent_outside ht
  rw [ht]
  exact .ok (proj := id) hi (ho.cfg.trans hC) (ho.transport ▸ hT)

theorem keeps_rdEvent {s : State} {C : Config} {T : List Carriage} (h : s.Inv)
    (hC : s.cfg = C) (hT : s.transport ⊆ T) : Keeps C T id s.rdEvent := by
  obtain ⟨t, ht, hi⟩ := inv_rdEvent h
  have ho := (rdEvent_outside ht).1
  rw [ht]
  exact .ok (proj := id) hi (ho.cfg.trans hC) (ho.transport ▸ hT)

theorem keeps_deliverWrites {C : Config} {T : List Carriage} {c : Carriage} (bs : List Byte)
    {acts : List (List HostAct)} {s : State} (h : s.Inv) (hC : s.cfg = C) (hT : s.transport ⊆ T)
    (ha : acts ≠ [] → c ∈ T ∧ acts ⊆ c.between) : Keeps C T id (s.deliverWrites bs acts) := by
  induction bs generalizing acts s with
  | nil => exact .ok (proj := id) h hC hT
  | cons b bs ih =>
    refine (keeps_hostActs_head h hC hT ha).bind fun s1 h1 c1 t1 => ?_
    refine (keeps_wrEvent b h1 c1 t1).bind fun s2 h2 c2 t2 => ?_
    refine ih h2 c2 t2 fun hne => ?_
    cases acts with
    | nil => exact absurd rfl hne
    | cons xs rest =>
      obtain ⟨i1, i2⟩ := ha (by simp)
      exact ⟨i1, fun y hy => i2 (by simp at hy; simp [hy])⟩

theorem keeps_deliverReads {C : Config} {T : List Carriage} {c : Carriage} (m : Nat)
    {acts : List (List HostAct)} {s : State} (h : s.Inv) (hC : s.cfg = C) (hT : s.transport ⊆ T)
    (ha : acts ≠ [] → c ∈ T ∧ acts ⊆ c.between) :
    Keeps C T Prod.snd (s.deliverReads m acts) := by
  induction m generalizing acts s with
  | zero => exact .ok (proj := Prod.snd) h hC hT
  | succ m ih =>
    refine (keeps_hostActs_head h hC hT ha).bind fun s1 h1 c1 t1 => ?_
    refine (keeps_rdEvent h1 c1 t1).bind fun s2 h2 c2 t2 => ?_
    refine (ih h2 c2 t2 fun hne => ?_).bind fun p hp cp tp => .ok (proj := Prod.snd) hp cp tp
    cases acts with
    | nil => exact absurd rfl hne
    | cons xs rest =>
      obtain ⟨i1, i2⟩ := ha (by simp)
      exact ⟨i1, fun y hy => i2 (by simp at hy; simp [hy])⟩

theorem popCarriage_inv {s : State} (h : s.Inv) : s.popCarriage.Inv :=
  h.congr rfl rfl rfl rfl rfl rfl rfl h.mem h.bk

theorem popCarriage_transport {s : State} {T : List Carriage} (hT : s.transport ⊆ T) :
    s.popCarriage.transport ⊆ T := fun _ hc => hT (List.mem_of_mem_tail hc)

theorem nextCarriage_between {s : State} {T : List Carriage} (hT : s.transport ⊆ T) :
    s.nextCarriage.between ≠ [] → s.nextCarriage ∈ T ∧
      s.nextCarriage.between ⊆ s.nextCarriage.between := by
  intro hne
  refine ⟨hT ?_, List.Subset.refl _⟩
  unfold State.nextCarriage at hne ⊢
  cases hs : s.transport with
  | nil => rw [hs] at hne; exact absurd rfl hne
  | cons c cs => simp

theorem keeps_writeBytes {s : State} {C : Config} {T : List Carriage} (p : PeerHandle)
    (bs : List Byte) (h : s.Inv) (hC : s.cfg = C) (hT : s.transport ⊆ T) :
    Keeps C T Prod.snd (s.writeBytes p bs) := by
  have key : ∀ ds, Keeps C T id (s.popCarriage.deliverWrites ds s.nextCarriage.between) := fun ds =>
    keeps_deliverWrites (c := s.nextCarriage) ds (popCarriage_inv h) hC (popCarriage_transport hT)
      (nextCarriage_between hT)
  unfold State.writeBytes
  simp only
  split
  · exact (key bs).bind fun t h1 c1 t1 => .ok (proj := Prod.snd) h1 c1 t1
  · exact (key _).bind fun t h1 c1 t1 => .ok (proj := Prod.snd) h1 c1 t1

theorem keeps_readBytes {s : State} {C : Config} {T : List Carriage} (p : PeerHandle)
    (m : Nat) (h : s.Inv) (hC : s.cfg = C) (hT : s.transport ⊆ T) :
    Keeps C T Prod.snd (s.readBytes p m) := by
  have key : ∀ k, Keeps C T Prod.snd (s.popCarriage.deliverReads k s.nextCarriage.between) := fun k =>
    keeps_deliverReads (c := s.nextCarriage) k (popCarriage_inv h) hC (popCarriage_transport hT)
      (nextCarriage_between hT)
  unfold State.readBytes
  simp only
  split
  · exact (key m).bind fun t h1 c1 t1 => .ok (proj := Prod.snd) h1 c1 t1
  · exact (key _).bind fun t h1 c1 t1 => .ok (proj := Prod.snd) h1 c1 t1

/-- The controller's own result fields carry nothing of the block. -/
theorem ctlReturn_inv {s : State} (h : s.Inv) (v : Byte) : (s.ctlReturn v).Inv :=
  h.congr rfl rfl rfl rfl rfl rfl rfl h.mem h.bk

theorem ctlBuf_inv {s : State} (h : s.Inv) (l : List Byte) : State.Inv { s with ctlBuf := l } :=
  h.congr rfl rfl rfl rfl rfl rfl rfl h.mem h.bk

theorem keeps_ctlReturn {s : State} {C : Config} {T : List Carriage} (v : Byte) (h : s.Inv)
    (hC : s.cfg = C) (hT : s.transport ⊆ T) : Keeps C T id (.ok (s.ctlReturn v)) :=
  .ok (proj := id) (ctlReturn_inv h v) hC hT

theorem keeps_returnStatusByte {s : State} {C : Config} {T : List Carriage} (p : PeerHandle)
    (h : s.Inv) (hC : s.cfg = C) (hT : s.transport ⊆ T) : Keeps C T id (s.returnStatusByte p) := by
  refine (keeps_readBytes p 1 h hC hT).bind fun r h1 c1 t1 => ?_
  obtain ⟨_ | vs, s1⟩ := r <;> exact keeps_ctlReturn _ h1 c1 t1

theorem keeps_controllerWrite {s : State} {C : Config} {T : List Carriage} (p : PeerHandle) (a : U32)
    (data : List Byte) (n : U32) (inj : Bool) (h : s.Inv) (hC : s.cfg = C) (hT : s.transport ⊆ T) :
    Keeps C T id (s.controllerWrite p a data n inj) := by
  refine (keeps_writeBytes p _ h hC hT).bind fun r h1 c1 t1 => ?_
  obtain ⟨_ | _, s1⟩ := r
  · exact keeps_ctlReturn _ h1 c1 t1
  · exact keeps_returnStatusByte p h1 c1 t1

theorem keeps_readTail {s : State} {C : Config} {T : List Carriage} (p : PeerHandle) (n a : U32)
    (ds : List Byte) (h : s.Inv) (hC : s.cfg = C) (hT : s.transport ⊆ T) :
    Keeps C T id (s.readTail p n a ds) := by
  refine (keeps_readBytes p 1 h hC hT).bind fun r h1 c1 t1 => ?_
  obtain ⟨_ | cs, s1⟩ := r
  · exact keeps_ctlReturn _ h1 c1 t1
  · simp only
    split
    · exact (keeps_readBytes p 1 h1 c1 t1).bind fun q h2 c2 t2 => keeps_ctlReturn _ h2 c2 t2
    · exact keeps_returnStatusByte p h1 c1 t1

theorem keeps_controllerRead {s : State} {C : Config} {T : List Carriage} (p : PeerHandle) (a : U32)
    (buf : List Byte) (n : U32) (h : s.Inv) (hC : s.cfg = C) (hT : s.transport ⊆ T) :
    Keeps C T id (s.controllerRead p a buf n) := by
  refine (keeps_writeBytes p _ h hC hT).bind fun r h1 c1 t1 => ?_
  obtain ⟨_ | _, s1⟩ := r
  · exact .ok (proj := id) (ctlBuf_inv (ctlReturn_inv h1 _) _) c1 t1
  · refine (keeps_readBytes p _ h1 c1 t1).bind fun q h2 c2 t2 => ?_
    obtain ⟨_ | ds, s2⟩ := q
    · exact .ok (proj := id) (ctlBuf_inv (ctlReturn_inv h2 _) _) c2 t2
    · exact (keeps_readTail p n a ds h2 c2 t2).bind fun s3 h3 c3 t3 =>
        .ok (proj := id) (ctlBuf_inv h3 _) c3 t3

end Sys2Proof.Machine
end

