-- ==== Sys2Proof/Laws/PerInstr.lean ====
section
/-! SUPPORT. Statements made once per instruction. -/

namespace Sys2Proof

theorem opField_joinFields (op : BitVec 2) (d : Byte) : opField (joinFields op d) = op := by
  apply BitVec.eq_of_getLsbD_eq
  intro i hi
  simp only [opField, joinFields, BitVec.getLsbD_extractLsb', BitVec.getLsbD_append, hi, decide_true,
    Bool.true_and]
  rw [if_neg (by omega), Nat.add_sub_cancel_left]

theorem dataField_joinFields (op : BitVec 2) (d : Byte) : dataField (joinFields op d) = d := by
  apply BitVec.eq_of_getLsbD_eq
  intro i hi
  simp only [dataField, joinFields, BitVec.getLsbD_extractLsb', BitVec.getLsbD_append, hi, decide_true,
    Bool.true_and, Nat.zero_add, if_true]

namespace Laws.RoundTrip

/-- The event word of an instruction, where it has one, decodes to it (30_encoding.md R57, R58). -/
def Statement (i : Instr) : Prop := ∀ w, eventWord i = some w → decode w = .ok i

theorem wrByte (b : Byte) : Statement (.wrByte b) := by
  intro w h
  cases h
  simp [decode, opField_joinFields, dataField_joinFields]

theorem rdByte : Statement .rdByte := by intro w h; cases h; rfl

theorem process : Statement .process := by intro w h; cases h; rfl

theorem init : Statement .init := by intro w h; cases h; rfl

theorem crc8Step (c b : Byte) : Statement (.crc8Step c b) := by intro w h; cases h

theorem crc8 (buf : List Byte) (start : Byte) : Statement (.crc8 buf start) := by intro w h; cases h

theorem cWrite (peer : PeerHandle) (a : U32) (data : List Byte) (n : U32) (inj : Bool) :
    Statement (.cWrite peer a data n inj) := by intro w h; cases h

theorem cRead (peer : PeerHandle) (a : U32) (buf : List Byte) (n : U32) :
    Statement (.cRead peer a buf n) := by intro w h; cases h

theorem cReadStatus (peer : PeerHandle) : Statement (.cReadStatus peer) := by intro w h; cases h

end Laws.RoundTrip

end Sys2Proof
end

