-- ==== Sys2Proof/Tests/Slice0.lean ====
section
/-! SUPPORT. Tests. The expected values are those of spec/95_test_vectors.md, named by their ids there, or are written out
from the rule named; the witnesses show states and operands that meet the hypotheses of the statements. -/

open Sys2Proof Sys2Proof.Machine

namespace Sys2Proof.Tests

/-! ## Helpers -/

/-- A block in the notation `BC / LEN / ADDR / CRC / ST / PEND` of 95_test_vectors.md. -/
def block (cfg : Config) (bc : Nat) (len addr : U32) (crc st : Byte) (pend : Bool) (mem bk : Memory) : State :=
  { State.launch cfg mem bk with bc := bc, len := len, addr := addr, crc := crc, st := st, pend := pend }

/-- The registers in that notation, as numbers. -/
def registers (s : State) : List Nat :=
  [s.bc, s.len.toNat, s.addr.toNat, s.crc.toNat, s.st.toNat, if s.pend then 1 else 0]

/-- What `f` sees in the next state, if there is one. -/
def after {α : Type} (f : State → α) : Host.Outcome State Fault Refusal → Option α
  | .next t => some (f t)
  | .fault _ => none
  | .refused _ => none

/-- The refusal, if the outcome is one. -/
def refusal : Host.Outcome State Fault Refusal → Option Refusal
  | .next _ => none
  | .fault _ => none
  | .refused r => some r

/-- The fault, if the outcome is one. -/
def faulted : Host.Outcome State Fault Refusal → Option Fault
  | .next _ => none
  | .fault f => some f
  | .refused _ => none

/-- A peer. -/
def peer : PeerHandle := { id := 7 }

/-- `MEM[5..8] = [1, 2, 3, 4]`, the scenario of W4 and W7. -/
def scenarioMem : Memory := [(5, 1#8), (6, 2#8), (7, 3#8), (8, 4#8)]

/-- `MEM[5..8] = [9, 9, 9, 9]`. -/
def overwrittenMem : Memory := [(5, 9#8), (6, 9#8), (7, 9#8), (8, 9#8)]

/-- `BK[0..3] = [1, 2, 3, 4]`. -/
def savedBk : Memory := [(0, 1#8), (1, 2#8), (2, 3#8), (3, 4#8)]

/-! ## Decoding: words written bit by bit from 30_encoding.md R57, R58 -/

theorem test_decode_wr : decode 0b00_1010_0101#10 = .ok (.wrByte 0xA5#8) := by decide
theorem test_decode_rd : decode 0b01_0000_0000#10 = .ok .rdByte := by decide
theorem test_decode_process : decode 0b10_0000_0000#10 = .ok .process := by decide
theorem test_decode_init : decode 0b11_0000_0000#10 = .ok .init := by decide

/-- V-E6. -/
theorem test_decode_reserved :
    [0x101#10, 0x2FF#10, 0x380#10].map (fun w => decode w |>.isOk) = [false, false, false] := by decide

/-- R67: the word streams of the pseudo-instructions, `WFRAME.BAD 4, 5, 9, 9, 9, 9` from program P2 and `SREAD`. -/
theorem test_wframe_bad_words : wframeWords 4#32 5#32 [9#8, 9#8, 9#8, 9#8] true =
    [0x004#10, 0x000#10, 0x000#10, 0x000#10, 0x005#10, 0x000#10, 0x000#10, 0x000#10,
      0x009#10, 0x009#10, 0x009#10, 0x009#10, 0x033#10, 0x100#10] := by decide +kernel
theorem test_sread_words : sreadWords =
    [0x001#10, 0x000#10, 0x000#10, 0x000#10, 0x000#10, 0x000#10, 0x000#10, 0x000#10,
      0x100#10, 0x100#10, 0x100#10] := by decide

/-- The stream of a host procedure is its encoding: `C_WRITE`, `C_READ`, `C_READSTATUS` (R94 to R96); the CRC-8 unit's
operations have no word (R61). -/
theorem test_encode_calls :
    encode (.cWrite peer 3#32 [] 0#32 false) = [0x000#10, 0x000#10, 0x000#10, 0x000#10, 0x003#10, 0x000#10,
      0x000#10, 0x000#10, 0x03A#10, 0x100#10] ∧
    encode (.cRead peer 3#32 [] 0#32) = [0x000#10, 0x000#10, 0x000#10, 0x000#10, 0x003#10, 0x000#10,
      0x000#10, 0x000#10, 0x100#10, 0x100#10] ∧
    encode (.cReadStatus peer) = sreadWords ∧ encode (.crc8 [1#8] 0#8) = [] ∧
    encode (.crc8Step 1#8 2#8) = [] := by decide +kernel

/-- The table's numbering: ten bits in two bytes. -/
theorem test_decode_table_word :
    [decodeTableWord 16 0x0A5, decodeTableWord 16 0x100, decodeTableWord 16 0x101, decodeTableWord 16 0x400] =
      [some (.wrByte 0xA5#8), some .rdByte, none, none] := by decide

/-! ## Text form (30_encoding.md R66, R67) -/

theorem test_text_lines : assemble "go: wr 0x1f ; c\n\n RD\nProcess\nINIT".toList =
    some [.word 0x01F#10, .word 0x100#10, .word 0x200#10, .word 0x300#10] := by decide
theorem test_text_app : assemble "APP MEM[5] <- 0x10\nAPP read MEM[6]".toList =
    some [.app (.writeMem 5 0x10#8), .app (.readMem 6)] := by decide
theorem test_text_refused :
    ["WR 256", "WR", "RD 1", "NOP", "WFRAME 2, 0, 1", "WR 999: RD", ": RD"].map (fun t => assemble t.toList) =
      [none, none, none, none, none, none, none] := by decide

/-! ## WellFormed: ill-formed terms are refused (R94, R95) -/

theorem test_ill_formed_write : (Instr.cWrite peer 0#32 [1#8] 2#32 false).wellFormed = false := by decide
theorem test_ill_formed_read : (Instr.cRead peer 0#32 [1#8] 2#32).wellFormed = false := by decide
theorem test_well_formed : (Instr.cWrite peer 0#32 [] 2#32 false).wellFormed = true ∧
    (Instr.cWrite peer 0#32 [1#8, 2#8] 2#32 true).wellFormed = true ∧
    (Instr.cRead peer 0#32 [1#8, 2#8] 2#32).wellFormed = true := by decide
theorem test_ill_formed_write_refused :
    refusal (exec (.cWrite peer 0#32 [1#8] 2#32 false) State.reset) = some .dataTooShort := by decide
theorem test_ill_formed_read_refused :
    refusal (exec (.cRead peer 0#32 [1#8] 2#32) State.reset) = some .bufferTooShort := by decide

/-! ## The CRC-8 unit -/

/-- The step table of 95_test_vectors.md §2.1, `T[x] = CrcStep(0, x)`. -/
theorem test_crc_table : ((List.range 256).map fun x => (crcStep 0#8 (BitVec.ofNat 8 x)).toNat) =
    [0x00, 0x07, 0x0E, 0x09, 0x1C, 0x1B, 0x12, 0x15, 0x38, 0x3F, 0x36, 0x31, 0x24, 0x23, 0x2A, 0x2D] ++
    [0x70, 0x77, 0x7E, 0x79, 0x6C, 0x6B, 0x62, 0x65, 0x48, 0x4F, 0x46, 0x41, 0x54, 0x53, 0x5A, 0x5D] ++
    [0xE0, 0xE7, 0xEE, 0xE9, 0xFC, 0xFB, 0xF2, 0xF5, 0xD8, 0xDF, 0xD6, 0xD1, 0xC4, 0xC3, 0xCA, 0xCD] ++
    [0x90, 0x97, 0x9E, 0x99, 0x8C, 0x8B, 0x82, 0x85, 0xA8, 0xAF, 0xA6, 0xA1, 0xB4, 0xB3, 0xBA, 0xBD] ++
    [0xC7, 0xC0, 0xC9, 0xCE, 0xDB, 0xDC, 0xD5, 0xD2, 0xFF, 0xF8, 0xF1, 0xF6, 0xE3, 0xE4, 0xED, 0xEA] ++
    [0xB7, 0xB0, 0xB9, 0xBE, 0xAB, 0xAC, 0xA5, 0xA2, 0x8F, 0x88, 0x81, 0x86, 0x93, 0x94, 0x9D, 0x9A] ++
    [0x27, 0x20, 0x29, 0x2E, 0x3B, 0x3C, 0x35, 0x32, 0x1F, 0x18, 0x11, 0x16, 0x03, 0x04, 0x0D, 0x0A] ++
    [0x57, 0x50, 0x59, 0x5E, 0x4B, 0x4C, 0x45, 0x42, 0x6F, 0x68, 0x61, 0x66, 0x73, 0x74, 0x7D, 0x7A] ++
    [0x89, 0x8E, 0x87, 0x80, 0x95, 0x92, 0x9B, 0x9C, 0xB1, 0xB6, 0xBF, 0xB8, 0xAD, 0xAA, 0xA3, 0xA4] ++
    [0xF9, 0xFE, 0xF7, 0xF0, 0xE5, 0xE2, 0xEB, 0xEC, 0xC1, 0xC6, 0xCF, 0xC8, 0xDD, 0xDA, 0xD3, 0xD4] ++
    [0x69, 0x6E, 0x67, 0x60, 0x75, 0x72, 0x7B, 0x7C, 0x51, 0x56, 0x5F, 0x58, 0x4D, 0x4A, 0x43, 0x44] ++
    [0x19, 0x1E, 0x17, 0x10, 0x05, 0x02, 0x0B, 0x0C, 0x21, 0x26, 0x2F, 0x28, 0x3D, 0x3A, 0x33, 0x34] ++
    [0x4E, 0x49, 0x40, 0x47, 0x52, 0x55, 0x5C, 0x5B, 0x76, 0x71, 0x78, 0x7F, 0x6A, 0x6D, 0x64, 0x63] ++
    [0x3E, 0x39, 0x30, 0x37, 0x22, 0x25, 0x2C, 0x2B, 0x06, 0x01, 0x08, 0x0F, 0x1A, 0x1D, 0x14, 0x13] ++
    [0xAE, 0xA9, 0xA0, 0xA7, 0xB2, 0xB5, 0xBC, 0xBB, 0x96, 0x91, 0x98, 0x9F, 0x8A, 0x8D, 0x84, 0x83] ++
    [0xDE, 0xD9, 0xD0, 0xD7, 0xC2, 0xC5, 0xCC, 0xCB, 0xE6, 0xE1, 0xE8, 0xEF, 0xFA, 0xFD, 0xF4, 0xF3] := by decide +kernel

/-- V-C6, V-C5. -/
theorem test_crc8_step : after (·.crcOut) (exec (.crc8Step 0x12#8 0x34#8) State.reset) = some (some 0xF2#8) ∧
    after (·.crcOut) (exec (.crc8Step 0xFF#8 0xFF#8) State.reset) = some (some 0x00#8) := by decide

/-- V-C15: the nine ASCII digits. -/
theorem test_crc8 : after (·.crcOut)
    (exec (.crc8 [0x31#8, 0x32#8, 0x33#8, 0x34#8, 0x35#8, 0x36#8, 0x37#8, 0x38#8, 0x39#8] 0#8) State.reset) =
      some (some 0xF4#8) := by decide +kernel

/-- V-C13. -/
theorem test_crc8_empty : after (·.crcOut) (exec (.crc8 [] 0x5A#8) State.reset) = some (some 0x5A#8) := by decide

/-! ## The events -/

/-- V-W12: the old byte is saved, then the new one written. -/
theorem test_wr_data : after (fun t => (registers t, t.mem, t.bk))
    (exec (.wrByte 0x09#8) (block Config.scenario 8 4#32 5#32 0x02#8 0x80#8 false [(5, 1#8)] [])) =
      some ([9, 4, 5, 0x31, 0x80, 0], [(5, 9#8)], [(0, 1#8)]) := by decide

/-- V-W7: `ADDR + LEN = MEM_SIZE` is flagged. -/
theorem test_wr_address_bound : after registers
    (exec (.wrByte 0x00#8) (block Config.scenario 7 4#32 60#32 0x12#8 0x80#8 false [] [])) =
      some [8, 4, 60, 0x7E, 0x01, 0] := by decide

/-- V-R16: the restore is armed. -/
theorem test_rd_arms : after (fun t => (t.rdData, registers t))
    (exec .rdByte (block Config.scenario 13 4#32 5#32 0x32#8 0x10#8 false [] [])) =
      some (some 0x20#8, [14, 4, 5, 0x32, 0x20, 1]) := by decide

/-- V-R8: out of range with `IRD` set. -/
theorem test_rd_out_of_range : after (fun t => (t.rdData, registers t))
    (exec .rdByte (block Config.scenario 12 8#32 60#32 0x11#8 0x04#8 false [] [])) =
      some (some 0x00#8, [13, 8, 60, 0x77, 0x05, 0]) := by decide

/-- V-P1. -/
theorem test_process : after (fun t => (registers t, t.mem))
    (exec .process (block Config.scenario 14 4#32 5#32 0x32#8 0x20#8 true overwrittenMem savedBk)) =
      some ([0, 0, 0, 0, 0x80, 0], scenarioMem) := by decide

/-- V-P4. -/
theorem test_process_idle : after registers
    (exec .process (block Config.scenario 5 4#32 5#32 0x94#8 0x80#8 false [] [])) =
      some [5, 4, 5, 0x94, 0x80, 0] := by decide

/-- V-I2: the pending restore is dropped, the memory stays. -/
theorem test_init : after (fun t => (registers t, t.mem))
    (exec .init (block Config.scenario 14 4#32 5#32 0x32#8 0x20#8 true overwrittenMem savedBk)) =
      some ([0, 0, 0, 0, 0x80, 0], overwrittenMem) := by decide

/-! ## The controller's calls -/

/-- V-H1. -/
theorem test_c_write_bad : after (fun t => (t.ctlStatus, registers t))
    (exec (.cWrite peer 5#32 [9#8, 9#8, 9#8, 9#8] 4#32 true) (State.launch Config.scenario scenarioMem [])) =
      some (some 0x20#8, [14, 4, 5, 0x32, 0x20, 1]) := by decide +kernel

/-- V-H13: the injected checksum is taken modulo 256. -/
theorem test_c_write_mod : after (fun t => (t.ctlStatus, registers t))
    (exec (.cWrite peer 0#32 [91#8] 1#32 true) State.reset) =
      some (some 0x20#8, [11, 1, 0, 0xFF, 0x20, 1]) := by decide +kernel

/-- V-H4. -/
theorem test_c_read : after (fun t => (t.ctlStatus, t.ctlBuf, registers t))
    (exec (.cRead peer 5#32 [0#8, 0#8, 0#8, 0#8] 4#32) (State.launch Config.scenario scenarioMem [])) =
      some (some 0x80#8, [1#8, 2#8, 3#8, 4#8], [0, 0, 0, 0, 0x80, 0]) := by decide +kernel

/-- V-H9, in part: a transfer out of bounds reads zeros and returns the flag. -/
theorem test_c_read_out_of_range : after (fun t => (t.ctlStatus, t.ctlBuf))
    (exec (.cRead peer 60#32 [1#8, 1#8, 1#8, 1#8, 1#8, 1#8, 1#8, 1#8] 8#32)
      (State.launch Config.scenario [(60, 60#8)] [])) =
      some (some 0x01#8, [0#8, 0#8, 0#8, 0#8, 0#8, 0#8, 0#8, 0#8]) := by decide +kernel

/-- V-H2: a status read while the restore is pending. -/
theorem test_c_read_status_busy : after (fun t => (t.ctlStatus, registers t))
    (exec (.cReadStatus peer) (block Config.scenario 14 4#32 5#32 0x32#8 0x20#8 true overwrittenMem savedBk)) =
      some (some 0x10#8, [25, 4, 5, 0x32, 0x28, 1]) := by decide +kernel

/-- V-H14: the write primitive fails after four events. -/
theorem test_transport_failure : after (fun t => (t.ctlStatus, t.bc, t.len))
    (exec (.cReadStatus peer)
      { State.reset with transport := [{ failAfter := some 4, leaves := [], between := [] }] }) =
      some (some 0x00#8, 4, 1#32) := by decide

/-- R47, R50: a PROCESS of the host application between two events of a status read ends the restore, and the rest of
the read runs from an idle block. -/
theorem test_host_step_inside_call : after (fun t => (t.bc, t.pend, t.mem))
    (exec (.cReadStatus peer)
      { block Config.scenario 14 4#32 5#32 0x32#8 0x20#8 true overwrittenMem savedBk with
        transport := [{ failAfter := some 1, leaves := [], between := [[.process]] }] }) =
      some (1, false, scenarioMem) := by decide

/-! ## The step -/

theorem test_step_word : after registers (step (State.reset.withFetchWord 16 0x004)) =
    some [1, 4, 0, 0x1C, 0x80, 0] := by decide
theorem test_step_reserved : refusal (step (State.reset.withFetchWord 16 0x101)) =
    some (.reservedWord 0x101#10) := by decide
theorem test_step_idle : after id (step State.reset) = some State.reset := by decide
theorem test_step_app : after (·.appOut)
    (step { State.launch Config.scenario scenarioMem [] with inputs := [.app (.readMem 8)] }) =
      some (some 4#8) := by decide
theorem test_step_app_fault : faulted (step { State.reset with inputs := [.app (.readMem 64)] }) =
    some (.appMemOutside 64) := by decide

/-! ## Witnesses of the statements' hypotheses -/

/-- The invariant from checks that a concrete state can be held against. -/
theorem inv_of_checks {s : State} (config : s.cfg.wf)
    (spaces : (Memory.wf s.mem && Memory.below s.mem s.cfg.memSize && Memory.wf s.bk &&
      Memory.below s.bk (backupSize s.cfg)) = true)
    (status : s.st = 0x80#8 ∨ (s.st ≠ 0#8 ∧ s.st &&& 0xE0#8 = 0#8) ∨ s.st = 0x20#8 ∨ s.st = 0x28#8)
    (busy : s.pend = true ↔ s.st = 0x20#8 ∨ s.st = 0x28#8)
    (idle : s.bc = 0 → s.pend = false → s.len = 0#32 ∧ s.addr = 0#32 ∧ s.crc = 0#8)
    (lanes : ∀ k, k < 4 → (s.bc ≤ k → lane s.len k = 0#8) ∧ (s.bc ≤ k + 4 → lane s.addr k = 0#8))
    (backup : s.pend = false → 4 ≤ s.bc → s.cfg.backupEn = true → s.st &&& 0x06#8 = 0#8 →
      s.len.toNat ≤ s.cfg.bkSize)
    (bounds : s.pend = false → 8 ≤ s.bc → s.st &&& 0x05#8 = 0#8 →
      transferEnd s.addr s.len < s.cfg.memSize)
    (pending : s.pend = true → s.cfg.backupEn = true ∧ s.len.toNat ≤ s.cfg.bkSize ∧
      transferEnd s.addr s.len < s.cfg.memSize ∧ 9 + s.len.toNat ≤ s.bc) : s.Inv := by
  simp only [Bool.and_eq_true] at spaces
  exact { config := config, memCanonical := spaces.1.1.1, memInside := spaces.1.1.2
          bkCanonical := spaces.1.2, bkInside := spaces.2, status := status, busy := busy, idle := idle
          lenLanes := fun k h hk => (lanes k hk).1 h, addrLanes := fun k h hk => (lanes k hk).2 h
          backupChecked := backup, boundsChecked := bounds, pending := pending }

/-- A write at its last data byte: `MEM_SIZE - 1` is the end of the transfer, `BK_SIZE` its length. -/
def lastData : State := block Config.scenario 23 16#32 47#32 0x11#8 0x80#8 false [(62, 5#8)] [(0, 6#8)]

/-- The same without a backup buffer. -/
def lastDataPlain : State := block Config.noBackup 23 16#32 47#32 0x11#8 0x80#8 false [(62, 5#8)] []

/-- A pending restore of `BK_SIZE` bytes that ends at `MEM_SIZE - 1`, at the earliest position. -/
def pendingEdge : State := block Config.scenario 25 16#32 47#32 0x11#8 0x20#8 true overwrittenMem savedBk

/-- The same after a drain byte. -/
def pendingDrained : State := { pendingEdge with bc := 26, st := 0x28#8 }

/-- A quiescent block with old flags, outputs and inputs. -/
def quietOld : State :=
  { block Config.scenario 0 0#32 0#32 0#8 0x13#8 false scenarioMem savedBk with
    rdData := some 0x13#8, inputs := [.word 0x100#10] }

/-- A quiescent block without a backup buffer. -/
def quietPlain : State := block Config.noBackup 0 0#32 0#32 0#8 0x10#8 false overwrittenMem []

/-- Three header bytes received. -/
def midLength : State := block Config.scenario 3 0x000010#32 0#32 0x77#8 0x80#8 false [] []

theorem witness_inv_lastData : lastData.Inv := by
  apply inv_of_checks <;> decide
theorem witness_inv_lastDataPlain : lastDataPlain.Inv := by
  apply inv_of_checks <;> decide
theorem witness_inv_pendingEdge : pendingEdge.Inv := by
  apply inv_of_checks <;> decide
theorem witness_inv_pendingDrained : pendingDrained.Inv := by
  apply inv_of_checks <;> decide
theorem witness_inv_quietOld : quietOld.Inv := by
  apply inv_of_checks <;> decide
theorem witness_inv_quietPlain : quietPlain.Inv := by
  apply inv_of_checks <;> decide
theorem witness_inv_midLength : midLength.Inv := by
  apply inv_of_checks <;> decide

theorem witness_launched : State.Launched { State.launch Config.scenario scenarioMem savedBk with
    inputs := [.op (.cWrite peer 5#32 [9#8, 9#8, 9#8, 9#8] 4#32 true)] } :=
  ⟨by decide, rfl, rfl, rfl, rfl, rfl, rfl, rfl, rfl, rfl, rfl⟩

theorem pend_reached {o : Host.Outcome State Fault Refusal} (h : after (·.pend) o = some true) :
    ∃ t, o = .next t ∧ t.pend = true := by
  cases o with
  | next t => exact ⟨t, rfl, Option.some.inj h⟩
  | fault _ => cases h
  | refused _ => cases h

/-- Reachable states exist, one of them with a restore pending (`ReachableStatusValues`,
`ReachablePendingRestore`). -/
theorem witness_reachable_pending : ∃ s : State, Reachable s ∧ s.pend = true := by
  obtain ⟨t, ht, hp⟩ := pend_reached (o := step { State.launch Config.scenario scenarioMem savedBk with
    inputs := [.op (.cWrite peer 5#32 [9#8, 9#8, 9#8, 9#8] 4#32 true)] }) (by decide +kernel)
  exact ⟨t, .step _ t (.launch _ witness_launched) ht, hp⟩

/-- Reachable states with `BC` at the first header position, idle, and at the first address position
(`ReachableIdleCountersAreZero`). -/
theorem witness_reachable_header : (∃ s : State, Reachable s ∧ s.bc = 0 ∧ s.pend = false) ∧
    ∃ s : State, Reachable s ∧ s.bc = 4 := by
  have key : ∀ o : Host.Outcome State Fault Refusal, after (·.bc) o = some 4 →
      ∃ t, o = .next t ∧ t.bc = 4 := by
    intro o h
    cases o with
    | next t => exact ⟨t, rfl, Option.some.inj h⟩
    | fault _ => cases h
    | refused _ => cases h
  refine ⟨⟨_, .launch _ witness_launched, rfl, rfl⟩, ?_⟩
  obtain ⟨t, ht, hb⟩ := key (step { State.reset with
    inputs := [.op (.cReadStatus peer)]
    transport := [{ failAfter := some 4, leaves := [], between := [] }] }) (by decide)
  exact ⟨t, .step _ t (.launch _ ⟨by decide, rfl, rfl, rfl, rfl, rfl, rfl, rfl, rfl, rfl, rfl⟩) ht, hb⟩

/-- A reachable state whose step faults, by the host application, and a state of the invariant where it does
(`BlockNeverLeavesItsBuffers`). -/
theorem witness_inv_fault : ∃ s : State, s.Inv ∧ step s = .fault (.appMemOutside 64) :=
  ⟨{ lastData with inputs := [.app (.readMem 64)] },
    witness_inv_lastData.congr rfl rfl rfl rfl rfl rfl rfl witness_inv_lastData.mem witness_inv_lastData.bk, rfl⟩

theorem witness_reachable_fault : ∃ s : State, Reachable s ∧ step s = .fault (.appMemOutside 64) :=
  ⟨{ State.reset with inputs := [.app (.readMem 64)] },
    .launch _ ⟨by decide, rfl, rfl, rfl, rfl, rfl, rfl, rfl, rfl, rfl, rfl⟩, rfl⟩

/-- `OpcodeMapByMatchAndMask`, `ReservedWordsAreRefused`. -/
theorem witness_words : (0x0FF#10 &&& 0x300#10 = 0#10) ∧
    (256 ≤ (0x101#10).toNat ∧ (0x101#10).toNat % 256 ≠ 0) ∧
    (∃ s : State, s.inputs = [.word 0x101#10]) ∧ ∃ s : State, s.inputs = [.word 0x0FF#10] :=
  ⟨by decide, by decide, ⟨State.reset.withFetchWord 16 0x101, rfl⟩,
    ⟨State.reset.withFetchWord 16 0x0FF, rfl⟩⟩

/-- `CrcIncrementalLaw`, `PseudoInstructionsExpand`, `EventStreamsRoundTrip`: the lengths agree, also at 0. -/
theorem witness_operands : State.reset.crc = 0#8 ∧ ([] : List Byte).length = (0#32).toNat ∧ [1#8, 2#8].length = (2#32).toNat ∧
    (Instr.cWrite peer 1#32 [1#8, 2#8, 3#8] 2#32 true).wellFormed = true ∧
    eventWord (.wrByte 0xFF#8) = some 0x0FF#10 ∧
    encode (.cRead peer 0#32 [0#8] 1#32) = encode (.cRead peer 0#32 [5#8, 6#8] 1#32) := by decide

/-- `WriteStartsTransaction`, `WriteLengthByte`, `WriteAddressByte`, `ReadInHeader`: both ends of each range. -/
theorem witness_header_positions : quietOld.bc = 0 ∧ quietOld.bc < 4 ∧ midLength.bc = 3 ∧
    (∃ s : State, 4 ≤ s.bc ∧ s.bc < 8 ∧ s.bc = 4) ∧ (∃ s : State, 4 ≤ s.bc ∧ s.bc < 8 ∧ s.bc = 7) :=
  ⟨rfl, by decide, rfl, ⟨{ midLength with bc := 4 }, by decide⟩, ⟨{ midLength with bc := 7 }, by decide⟩⟩

/-- `WriteDataByte`: its five clauses at the values where they meet. -/
theorem witness_write_data :
    (let s := { lastData with st := 0x08#8 };
      8 ≤ s.bc ∧ s.bc < 8 + s.len.toNat ∧ s.st &&& 0x1F#8 ≠ 0#8) ∧
    (let s := { lastData with addr := 49#32 };
      s.st &&& 0x1F#8 = 0#8 ∧ s.cfg.memSize ≤ s.addr.toNat + (s.bc - 8)) ∧
    (let s := { lastData with bc := 25, len := 18#32, addr := 46#32 };
      s.bc < 8 + s.len.toNat ∧ s.addr.toNat + (s.bc - 8) < s.cfg.memSize ∧ s.cfg.backupEn = true ∧
        s.cfg.bkSize < s.bc - 8) ∧
    (lastData.addr.toNat + (lastData.bc - 8) < lastData.cfg.memSize ∧ lastData.cfg.backupEn = true ∧
      lastData.bc - 8 < lastData.cfg.bkSize) ∧
    (lastDataPlain.st &&& 0x1F#8 = 0#8 ∧ lastDataPlain.cfg.backupEn = false ∧
      lastDataPlain.addr.toNat + (lastDataPlain.bc - 8) < lastDataPlain.cfg.memSize) := by decide

/-- `BackupAccessAtItsSizeFaults`. -/
theorem witness_backup_edge :
    let s := { lastData with bc := 24, len := 17#32, addr := 46#32 };
    8 ≤ s.bc ∧ s.bc < 8 + s.len.toNat ∧ s.st &&& 0x1F#8 = 0#8 ∧
      s.addr.toNat + (s.bc - 8) < s.cfg.memSize ∧ s.cfg.backupEn = true ∧ s.bc - 8 = s.cfg.bkSize := by
  decide

/-- `WriteDataStoresAndSaves`, `WriteAlwaysAdvances`, `WriteByteFrame`, `StepKeepsInvariant`, `EventsNeverStop`,
`LastByteIsNeverReached`. -/
theorem witness_stores : lastData.Inv ∧ lastDataPlain.Inv ∧ 8 ≤ lastData.bc ∧
    lastData.bc < 8 + lastData.len.toNat ∧ lastData.st &&& 0x1F#8 = 0#8 ∧ lastData.cfg.backupEn = true ∧
    lastDataPlain.cfg.backupEn = false ∧ phase lastData.bc lastData.len = .data :=
  ⟨witness_inv_lastData, witness_inv_lastDataPlain, by decide, by decide, by decide, rfl, rfl, rfl⟩
theorem witness_wr_next : (after (·.bc) (exec (.wrByte 1#8) lastData)).isSome = true ∧
    (after (·.bc) (step { lastData with inputs := [.word 0x001#10] })).isSome = true := by decide

/-- `WriteChecksumByte`, `WriteDrainByte`, `ReadChecksumByte`, `ReadAdvancesBeforeFinal`: at `LEN = 0` too. -/
theorem witness_past_data : (∃ s : State, s.bc = 8 + s.len.toNat ∧ s.len = 0#32) ∧
    (∃ s : State, 8 + s.len.toNat < s.bc ∧ s.len = 0#32 ∧ s.bc = 9) ∧
    ∃ s : State, s.bc ≤ 8 + s.len.toNat ∧ s.bc = 8 + s.len.toNat :=
  ⟨⟨{ midLength with bc := 8, len := 0#32 }, by decide⟩, ⟨{ midLength with bc := 9, len := 0#32 }, by decide⟩,
    ⟨{ midLength with bc := 24 }, by decide⟩⟩

/-- `ReadDataByte`, `StatusReadServesStatus`: a status read with and without memory. -/
theorem witness_status_read :
    (∃ s : State, s.bc = 8 ∧ s.addr = 0#32 ∧ s.len = 1#32 ∧ 0 < s.cfg.memSize ∧ s.bc < 8 + s.len.toNat) ∧
    ∃ s : State, s.bc = 8 ∧ s.addr = 0#32 ∧ s.len = 1#32 ∧ s.cfg.memSize = 0 :=
  ⟨⟨block Config.scenario 8 1#32 0#32 0x13#8 0x80#8 false [] [], by decide⟩,
    ⟨block { Config.noBackup with memSize := 0 } 8 1#32 0#32 0x13#8 0x01#8 false [] [], by decide⟩⟩

/-- `ReadFinalByte`, `RestoreQueuedOnlyByFinalRead`: the three cases, the first the arming. -/
theorem witness_final :
    (let s := { pendingEdge with st := 0x18#8, pend := false };
      8 + s.len.toNat < s.bc ∧ s.st &&& 0x10#8 ≠ 0#8 ∧ s.cfg.backupEn = true ∧ s.st &&& 0x07#8 = 0#8 ∧
        after (·.pend) (exec .rdByte s) = some true) ∧
    (let s := { pendingEdge with st := 0x11#8, pend := false };
      8 + s.len.toNat < s.bc ∧ s.st &&& 0x07#8 ≠ 0#8 ∧ s.pend = false) ∧
    (8 + pendingEdge.len.toNat < pendingEdge.bc ∧ pendingEdge.st &&& 0x10#8 = 0#8 ∧ pendingEdge.pend = true ∧
      after (·.pend) (exec .process pendingEdge) = some false) := by decide

/-- `WriteStartsTransaction` (third clause), `ProcessPerformsRestore`, `BusyWindowSwallowsBytes`, `StatusPollWhileBusy`:
a pending restore, with `ST` at both its values, on a reliable transport. -/
theorem witness_pending : pendingEdge.Inv ∧ pendingEdge.pend = true ∧ pendingEdge.reliable ∧
    pendingEdge.st = 0x20#8 ∧ pendingDrained.Inv ∧ pendingDrained.pend = true ∧ pendingDrained.st = 0x28#8 ∧
    quietOld.pend = false := by
  refine ⟨witness_inv_pendingEdge, rfl, ?_, rfl, witness_inv_pendingDrained, rfl, rfl, rfl⟩
  intro c h
  cases h

/-- `ControllerCallsComplete`: a transport that fails, with host steps among the events. -/
theorem witness_calls : ∃ s : State, s.Inv ∧ s.hostStepsInside ∧ s.transport ≠ [] ∧
    (Instr.cWrite peer 0#32 [] 2#32 false).wellFormed = true := by
  refine ⟨{ quietOld with transport := [{ failAfter := some 3, leaves := [1#8], between := [[.process,
    .access (.writeMem 63 1#8)], [.access (.readBk 15)]] }] }, ?_, ?_, by simp, by decide⟩
  · exact witness_inv_quietOld.congr rfl rfl rfl rfl rfl rfl rfl witness_inv_quietOld.mem
      witness_inv_quietOld.bk
  · intro c hc acts ha x hx
    rw [List.mem_singleton.1 hc] at ha
    have h : (acts.all fun x => HostAct.inside Config.scenario x) = true := by
      rcases List.mem_cons.1 ha with rfl | ha
      · decide
      · rw [List.mem_singleton.1 ha]; decide
    exact List.all_eq_true.1 h x hx

/-- `OkReturnsInFourCases`: each of the four. -/
theorem witness_ok_returns :
    after (·.st) (exec (.wrByte 0#8) quietOld) = some 0x80#8 ∧ quietOld.st ≠ 0x80#8 ∧
    (let s := block Config.scenario 8 1#32 0#32 0x13#8 0x20#8 false [] [];
      s.st ≠ 0x80#8 ∧ after (·.st) (exec .rdByte s) = some 0x80#8) ∧
    after (·.st) (exec .process pendingEdge) = some 0x80#8 ∧
    after (·.st) (exec .init quietOld) = some 0x80#8 := by decide

/-- `ReadsAloneEndTheTransaction`: in the middle of the header, and at the last position. -/
theorem witness_reads_alone : midLength.Inv ∧ midLength.pend = false ∧ midLength.st &&& 0x10#8 = 0#8 ∧
    (∃ s : State, s.Inv ∧ s.pend = false ∧ s.st &&& 0x07#8 ≠ 0#8 ∧ 9 + s.len.toNat = s.bc) :=
  ⟨witness_inv_midLength, rfl, by decide,
    ⟨{ midLength with bc := 25, st := 0x11#8 }, by apply inv_of_checks <;> decide, by decide⟩⟩

/-- `StepRunsTheDeliveredInput`: each kind of input. -/
theorem witness_inputs : (State.reset.withFetchWord 16 0x100).inputs = [.word 0x100#10] ∧
    decode 0x100#10 = .ok .rdByte ∧ (∃ s : State, s.inputs = [.op (.crc8 [] 0#8)]) :=
  ⟨rfl, rfl, ⟨{ State.reset with inputs := [.op (.crc8 [] 0#8)] }, rfl⟩⟩

/-- `s` with one access of the host application to come. -/
def accessing (s : State) (x : AppAccess) : State := { s with inputs := [.app x] }

/-- `ApplicationAccesses`: reads and writes of both spaces at the last byte, past it, and without a backup buffer. -/
theorem witness_accesses :
    (accessing State.reset (.writeMem 63 1#8)).inputs = [.app (.writeMem 63 1#8)] ∧
    63 < State.reset.cfg.memSize ∧ State.reset.cfg.memSize ≤ 64 ∧
    State.reset.cfg.backupEn = true ∧ 15 < State.reset.cfg.bkSize ∧ State.reset.cfg.bkSize ≤ 16 ∧
    quietPlain.cfg.backupEn = false ∧
    after (·.mem) (step (accessing State.reset (.writeMem 63 1#8))) = some [(63, 1#8)] ∧
    after (·.appOut) (step (accessing quietOld (.readMem 8))) = some (some 4#8) ∧
    after (·.bk) (step (accessing State.reset (.writeBk 15 1#8))) = some [(15, 1#8)] ∧
    after (·.appOut) (step (accessing quietOld (.readBk 3))) = some (some 4#8) := by decide
theorem witness_accesses_outside :
    [step (accessing State.reset (.readMem 64)), step (accessing State.reset (.writeMem 64 1#8)),
      step (accessing State.reset (.readBk 16)), step (accessing State.reset (.writeBk 16 1#8)),
      step (accessing quietPlain (.readBk 0)), step (accessing quietPlain (.writeBk 0 1#8))].map faulted =
    [some (.appMemOutside 64), some (.appMemOutside 64), some (.appBkOutside 16), some (.appBkOutside 16),
      some (.appBkOutside 0), some (.appBkOutside 0)] := by decide

/-- A pending restore, and then a PROCESS. -/
def pendingServed : State := { pendingEdge with inputs := [.word 0x200#10] }

theorem run_idle (t : State) (h : t.inputs = []) (k : Nat) : Host.Core.run Sys2Proof.core k t = .next t := by
  induction k with
  | zero => rfl
  | succ k ih =>
    have hs : Sys2Proof.core.step t = .next t := by show step t = .next t; unfold step; rw [h]
    simp only [Host.Core.run, hs]
    exact ih

/-- `BusyWindowSwallowsBytes` (second clause): a host that does its duty. -/
theorem witness_host_duty : pendingServed.Inv ∧ pendingServed.pend = true ∧ pendingServed.HostDuty := by
  refine ⟨witness_inv_pendingEdge.congr rfl rfl rfl rfl rfl rfl rfl witness_inv_pendingEdge.mem
    witness_inv_pendingEdge.bk, rfl, ?_⟩
  intro k t ht hp
  cases k with
  | zero => cases ht; exact ⟨0, _, rfl, .inl rfl⟩
  | succ k =>
    have key : ∀ o : Host.Outcome State Fault Refusal, after (fun u => (u.inputs, u.pend)) o = some ([], false) →
        ∃ u, o = .next u ∧ u.inputs = [] ∧ u.pend = false := by
      intro o h
      cases o with
      | next u => exact ⟨u, rfl, congrArg Prod.fst (Option.some.inj h), congrArg Prod.snd (Option.some.inj h)⟩
      | fault _ => cases h
      | refused _ => cases h
    obtain ⟨u, hu, hi, hn⟩ := key (Sys2Proof.core.step pendingServed) (by decide)
    simp only [Host.Core.run, hu] at ht
    have he : Host.Outcome.next u = .next t := (run_idle u hi k).symm.trans ht
    cases he
    exact ⟨0, _, rfl, .inr hn⟩

/-- A quiescent block on a reliable transport, for the calls' statements. -/
theorem witness_quiet : quietOld.Inv ∧ quietOld.quiescent ∧ quietOld.reliable ∧ quietPlain.Inv ∧
    quietPlain.quiescent ∧ quietPlain.reliable ∧
    State.reliable { quietOld with transport := [Carriage.plain, Carriage.plain] } := by
  refine ⟨witness_inv_quietOld, ⟨rfl, rfl⟩, ?_, witness_inv_quietPlain, ⟨rfl, rfl⟩, ?_, ?_⟩
  · intro c h; cases h
  · intro c h; cases h
  · intro c h
    rcases List.mem_cons.1 h with h | h
    · exact h
    · exact List.mem_singleton.1 h

/-- `GoodWriteStoresItsData`, `CorruptedWriteIsRestored`, `ReadReturnsTheMemory`: the largest transfer, and one of no
bytes, are unflagged; with one byte more the header flags it (`RejectedWriteTouchesNothing`, `FlaggedReadReturnsZeros`). -/
theorem witness_headers :
    (47#32).toNat + (16#32).toNat < quietOld.cfg.memSize ∧ (16#32).toNat ≤ quietOld.cfg.bkSize ∧
    headerFlags quietOld.cfg 16#32 47#32 = 0#8 ∧ headerFlags quietOld.cfg 0#32 63#32 = 0#8 ∧
    headerFlags quietOld.cfg 16#32 48#32 = 0x01#8 ∧ headerFlags quietOld.cfg 17#32 0#32 = 0x02#8 ∧
    headerFlags quietOld.cfg 17#32 47#32 = 0x03#8 ∧ headerFlags quietPlain.cfg 63#32 0#32 = 0#8 ∧
    quietOld.cfg.backupEn = true ∧ quietPlain.cfg.backupEn = false ∧ 1 < quietOld.cfg.memSize ∧
    (Instr.cWrite peer 47#32 [] 16#32 true).wellFormed = true := by decide

/-- `WriteCallIsItsEventStream`, `StatusReadCall`: the run and the call answer a next state, and the third clause has a
buffer and a header with flags and without, and no memory at all. -/
theorem witness_runs :
    (after (·.bc) (runWords (encode (.cWrite peer 3#32 [] 0#32 false)) quietOld)).isSome = true ∧
    (after (·.bc) (exec (.cRead peer 0#32 [0#8] 1#32) quietOld)).isSome = true ∧
    1 ≤ [1#8].length ∧ headerFlags quietOld.cfg 1#32 0#32 = 0#8 ∧
    headerFlags { quietPlain.cfg with memSize := 1 } 1#32 0#32 = 0x01#8 ∧
    headerFlags { quietPlain.cfg with memSize := 0 } 1#32 0#32 = 0x01#8 := by decide +kernel

/-- A transport whose primitive number `m` fails after `k` events. -/
def failing (m k : Nat) (s : State) : State :=
  { s with transport := List.replicate m Carriage.plain ++ [{ failAfter := some k, leaves := [1#8], between := [] }] }

/-- `TransportFailureReturnsZero`: for each primitive of the two calls a state with that transport, where the run of the
delivered words answers; in the busy window the last of them is the discarding read. -/
theorem witness_failures :
    (failing 0 3 quietOld).transport = { failAfter := some 3, leaves := [1#8], between := [] } :: [] ∧
    (failing 1 0 quietOld).transport =
      Carriage.plain :: { failAfter := some 0, leaves := [1#8], between := [] } :: [] ∧
    (failing 2 1 quietOld).transport =
      Carriage.plain :: Carriage.plain :: { failAfter := some 1, leaves := [1#8], between := [] } :: [] ∧
    (failing 3 0 pendingEdge).transport = Carriage.plain :: Carriage.plain :: Carriage.plain ::
      { failAfter := some 0, leaves := [1#8], between := [] } :: [] ∧
    (Instr.cRead peer 5#32 [0#8] 1#32).wellFormed = true ∧
    (Instr.cWrite peer 3#32 [] 0#32 true).wellFormed = true := ⟨rfl, rfl, rfl, rfl, rfl, rfl⟩
theorem witness_failure_runs :
    (after (·.bc) (runWords (((headerBytes 1#32 5#32).map wrWord).take 3) (failing 0 3 quietOld))).isSome = true ∧
    (after (·.bc) (runWords ((headerBytes 1#32 5#32).map wrWord ++ List.replicate 2 0x100#10)
      (failing 2 1 quietOld))).isSome = true ∧
    after (·.ctlStatus) (exec (.cRead peer 5#32 [0#8] 1#32) (failing 3 0 pendingEdge)) = some (some 0x10#8) ∧
    after (·.ctlStatus) (exec (.cRead peer 5#32 [0#8] 1#32) (failing 3 0 quietOld)) = some (some 0x00#8) := by
  decide +kernel

/-- `IllFormedCallsAreRefused`. -/
theorem witness_ill_formed : [1#8] ≠ ([] : List Byte) ∧ [1#8].length < (2#32).toNat ∧
    ([] : List Byte).length < (1#32).toNat := by decide

end Sys2Proof.Tests
end

section
/-! PROOF. What one step does with each kind of delivered input, and the statement O49 assembled from it. -/

namespace Sys2Proof.Machine

/-! ## The step, by what is delivered -/

/-- A delivered event word is decoded and run (30_encoding.md R56). -/
theorem step_of_word {s : State} {rest : List Input} {w : EvWord} {i : Instr}
    (hin : s.inputs = .word w :: rest) (hdec : decode w = .ok i) :
    step s = exec i { s with inputs := rest } := by
  simp only [step, hin, hdec]

/-- A delivered operation has no word to decode (log 3). -/
theorem step_of_op {s : State} {rest : List Input} {i : Instr} (hin : s.inputs = .op i :: rest) :
    step s = exec i { s with inputs := rest } := by
  simp only [step, hin]

/-- The idle block (00_scope.md R6, 60_exceptions.md R112). -/
theorem step_of_no_input {s : State} (hin : s.inputs = []) : step s = .next s := by
  simp only [step, hin]

/-- Settles O49, one step equation for each kind of input. -/
theorem stepRunsTheDeliveredInput : Obligations.StepRunsTheDeliveredInput := by
  intro s rest
  refine ⟨?word, ?operation, ?silence⟩
  case word => exact fun w i hin hdec => step_of_word hin hdec
  case operation => exact fun i hin => step_of_op hin
  case silence => exact step_of_no_input

end Sys2Proof.Machine
end

section
/-! PROOF. The status register's primitives (10_state.md R25 to R29): the statements O12 and O13. -/

namespace Sys2Proof.Machine

/-! ## SetFlag -/

/-- `Ok` is clear after SetFlag (R26). -/
theorem setFlag_ok_clear (st : Byte) (f : ErrFlag) : (setFlag st f).getLsbD 7 = false := by
  rw [← setFlag_ok_or_same, BitVec.getLsbD_and]
  exact Bool.and_false _

/-- The mask that clears `Ok` holds the seven bits below it. -/
theorem okMask_getLsbD {i : Nat} (hi : i < 7) : (0x7F#8).getLsbD i = true := by
  revert i; decide

/-- SetFlag accumulates: a set bit below `Ok` stays set (R26). -/
theorem setFlag_keeps_bit {st : Byte} (f : ErrFlag) {i : Nat} (hi : i < 7) (h : st.getLsbD i = true) :
    (setFlag st f).getLsbD i = true := by
  simp [setFlag, h, okMask_getLsbD hi]

/-- Setting a flag that is set already changes nothing. -/
theorem setFlag_setFlag_same (st : Byte) (f : ErrFlag) : setFlag (setFlag st f) f = setFlag st f := by
  calc setFlag (setFlag st f) f
      = setFlag st f ||| flagCode f := congrArg (· ||| flagCode f) (setFlag_ok_or_same st f)
    _ = setFlag st f := by rw [setFlag, BitVec.or_assoc, BitVec.or_self]

/-- Settles O12, from what SetFlag does to each bit. -/
theorem setFlagAccumulates : Obligations.SetFlagAccumulates := by
  intro s f
  refine ⟨?value, ?okClear, ?kept, ?again⟩
  case value => rfl
  case okClear => exact setFlag_ok_clear s.st f
  case kept => exact fun i hi h => setFlag_keeps_bit f hi h
  case again => exact congrArg (fun v => { s with st := v }) (setFlag_setFlag_same s.st f)

/-! ## AnyErr -/

/-- `ERRMASK` is made of the five flags, so it meets `st` exactly when one of them does (R25). -/
theorem errMask_clear_iff {st : Byte} : st &&& 0x1F#8 = 0#8 ↔ ∀ f, st &&& flagCode f = 0#8 := by
  have hmask : 0x1F#8 = flagCode .memoryOutOfRange ||| (flagCode .backupBufferOverflow |||
      (flagCode .invalidRead ||| (flagCode .invalidWrite ||| flagCode .dataCorrupted))) := rfl
  rw [hmask]
  simp only [BitVec.and_or_distrib_left, BitVec.or_eq_zero_iff]
  constructor
  · rintro ⟨h0, h1, h2, h3, h4⟩ (_ | _ | _ | _ | _) <;> assumption
  · exact fun h => ⟨h _, h _, h _, h _, h _⟩

theorem hasError_iff {s : State} : s.hasError = true ↔ s.st &&& 0x1F#8 ≠ 0#8 := by
  rw [Ne, ← anyErr_false_iff, Bool.not_eq_false, State.hasError]

theorem hasError_iff_flag {s : State} : s.hasError = true ↔ ∃ f : ErrFlag, hasFlag s.st f = true := by
  rw [hasError_iff, Ne, errMask_clear_iff, not_forall]
  simp only [hasFlag, bne_iff_ne, ne_eq]

/-- Settles O13: `ERRMASK` is the OR of the five flags, and `Ok` and `Busy` lie outside it. -/
theorem anyErrTestsTheFiveFlags : Obligations.AnyErrTestsTheFiveFlags := by
  intro s
  refine ⟨hasError_iff, hasError_iff_flag, anyErr_false_iff.2 ?busy, anyErr_false_iff.2 ?ok⟩
  case busy => rw [State.setBusy_st]; rfl
  case ok => rw [State.setOk_st]; rfl

end Sys2Proof.Machine
end

section
/-! PROOF. The state at reset (10_state.md R35): the statements O33 and O34. -/

namespace Sys2Proof.Machine

/-- A launched block meets the invariant: its registers are clear and nothing is pending. -/
theorem State.Launched.inv {s : State} (h : s.Launched) : s.Inv := by
  obtain ⟨hbc, hlen, haddr, hcrc, hst, hpend⟩ := h.registers
  constructor
  case config => exact h.config
  case memCanonical => exact h.memCanonical
  case memInside => exact h.memInside
  case bkCanonical => exact h.bkCanonical
  case bkInside => exact h.bkInside
  case status => exact .inl hst
  case busy => simp [hpend, hst]
  case idle => exact fun _ _ => ⟨hlen, haddr, hcrc⟩
  case lenLanes => intro k _ _; rw [hlen, lane_zero]
  case addrLanes => intro k _ _; rw [haddr, lane_zero]
  case backupChecked => intro _ h4; omega
  case boundsChecked => intro _ h8; omega
  case pending => simp [hpend]

theorem reset_launched : State.reset.Launched where
  config := by decide
  memCanonical := rfl
  memInside := rfl
  bkCanonical := rfl
  bkInside := rfl
  registers := ⟨rfl, rfl, rfl, rfl, rfl, rfl⟩

/-- Settles O33: the reset state is one of a launched block. -/
theorem resetRegisterValues : Obligations.ResetRegisterValues := reset_launched.registers

/-- Settles O34: the reset state is one of a launched block, and each of those meets the invariant. -/
theorem resetMeetsInvariant : Obligations.ResetMeetsInvariant := reset_launched.inv

end Sys2Proof.Machine
end

section
/-! PROOF. What every step keeps: the invariant (O35), and with it what holds in every reachable state (O36 to O38). -/

namespace Sys2Proof.Machine

/-! ## What a step can do -/

/-- `i` is delivered first, as an event word or as an operation, and `rest` after it (log 3). -/
def State.delivers (s : State) (i : Instr) (rest : List Input) : Prop :=
  s.inputs = .op i :: rest ∨ ∃ w, s.inputs = .word w :: rest ∧ decode w = .ok i

/-- A step that answers a next state was idle, ran the delivered instruction, or performed the host application's
access. -/
theorem step_eq_next {s t : State} (h : step s = .next t) :
    (s.inputs = [] ∧ t = s) ∨
    (∃ i rest, s.delivers i rest ∧ exec i { s with inputs := rest } = .next t) ∨
    (∃ x rest, s.inputs = .app x :: rest ∧ State.appAccess x { s with inputs := rest } = .ok t) := by
  rcases hin : s.inputs with _ | ⟨w | i | x, rest⟩
  case nil =>
    rw [step_of_no_input hin] at h
    cases h
    exact .inl ⟨rfl, rfl⟩
  case word =>
    cases hdec : decode w with
    | ok i => exact .inr (.inl ⟨i, rest, .inr ⟨w, hin, hdec⟩, step_of_word hin hdec ▸ h⟩)
    | error e => simp [step, hin, hdec] at h
  case op => exact .inr (.inl ⟨i, rest, .inl hin, step_of_op hin ▸ h⟩)
  case app =>
    simp only [step, hin] at h
    exact .inr (.inr ⟨x, rest, rfl, outcomeOf_eq_next.1 h⟩)

/-! ## The invariant -/

/-- The invariant says nothing of the inputs to come. -/
theorem inputs_inv {s : State} (h : s.Inv) (l : List Input) : State.Inv { s with inputs := l } :=
  h.congr rfl rfl rfl rfl rfl rfl rfl h.mem h.bk

/-- An event that answers a state with the invariant has no other next state. -/
theorem inv_of_outcome {r : Except Fault State} {t : State} (hr : ∃ u, r = .ok u ∧ u.Inv)
    (h : outcomeOf r = .next t) : t.Inv := by
  obtain ⟨u, rfl, hu⟩ := hr
  cases h
  exact hu

/-- A controller call from the invariant ends in it. -/
theorem inv_of_keeps {r : Except Fault State} {C : Config} {T : List Carriage} {t : State}
    (hr : Keeps C T id r) (h : outcomeOf r = .next t) : t.Inv :=
  (hr.inv (outcomeOf_eq_next.1 h)).1

/-- The call keeps the invariant, and the scratch byte that is dropped is no part of it. -/
theorem inv_execCReadStatus {s t : State} {p : PeerHandle} (h : s.Inv)
    (ht : execCReadStatus p s = .next t) : t.Inv := by
  refine inv_of_keeps (C := s.cfg) (T := s.transport) ?_ ht
  exact (keeps_controllerRead p _ _ _ h rfl (List.Subset.refl _)).bind fun u hu hc hT =>
    .ok (proj := id) (ctlBuf_inv hu _) hc hT

theorem inv_exec {s t : State} {i : Instr} (h : s.Inv) (ht : exec i s = .next t) : t.Inv := by
  cases i with
  | wrByte b => exact inv_of_outcome (inv_wrEvent h b) ht
  | rdByte => exact inv_of_outcome (inv_rdEvent h) ht
  | process => exact inv_of_outcome (inv_processEvent h) ht
  | init => cases ht; exact inv_initEvent h
  | crc8Step c b => cases ht; exact h.congr rfl rfl rfl rfl rfl rfl rfl h.mem h.bk
  | crc8 buf start => cases ht; exact h.congr rfl rfl rfl rfl rfl rfl rfl h.mem h.bk
  | cWrite p a data n inj =>
    simp only [exec, execCWrite] at ht
    split at ht
    · exact inv_of_keeps (keeps_controllerWrite p a data n inj h rfl (List.Subset.refl _)) ht
    · cases ht
  | cRead p a buf n =>
    simp only [exec, execCRead] at ht
    split at ht
    · exact inv_of_keeps (keeps_controllerRead p a buf n h rfl (List.Subset.refl _)) ht
    · cases ht
  | cReadStatus p => exact inv_execCReadStatus h ht

/-- Settles O35, by what a step can do: idle, an instruction, or an access of the host application. -/
theorem stepKeepsInvariant : Obligations.StepKeepsInvariant := by
  intro s t h hstep
  rcases step_eq_next hstep with ⟨-, rfl⟩ | ⟨i, rest, -, hexec⟩ | ⟨x, rest, -, happ⟩
  · exact h
  · exact inv_exec (inputs_inv h rest) hexec
  · exact inv_appAccess (inputs_inv h rest) happ

/-- The invariant holds along every run from a launched block. -/
theorem Reachable.inv {s : State} (h : Reachable s) : s.Inv := by
  induction h with
  | launch s hs => exact hs.inv
  | step s t _ hstep ih => exact stepKeepsInvariant s t ih hstep

/-! ## The status values -/

/-- Of the legal values only `0x80` has bit 7: the flags lie outside the mask `0xE0`, and `Busy` is bit 5. -/
theorem statusLegal.eq_ok {st : Byte} (h : statusLegal st) (h7 : st.getLsbD 7 = true) : st = 0x80#8 := by
  rcases h with h | ⟨-, h⟩ | rfl | rfl
  · exact h
  · have hbit : (st &&& 0xE0#8).getLsbD 7 = false := by rw [h]; rfl
    rw [BitVec.getLsbD_and, h7] at hbit
    exact absurd hbit (by decide)
  · simp at h7
  · simp at h7

theorem statusLegal.ne_zero {st : Byte} (h : statusLegal st) : st ≠ 0#8 := by
  rcases h with rfl | ⟨h, -⟩ | rfl | rfl
  · decide
  · exact h
  · decide
  · decide

/-- Settles O36: the status part of the invariant, with what it says of bit 7 and of 0. -/
theorem reachableStatusValues : Obligations.ReachableStatusValues :=
  fun _ h => ⟨h.inv.status, h.inv.status.eq_ok, h.inv.status.ne_zero⟩

/-! ## The idle counters and the header lanes -/

/-- Writing a lane that is 0 is an OR (R36). -/
theorem setLane_eq_or {v : U32} {k : Nat} (h : lane v k = 0#8) (b : Byte) :
    setLane v k b = v ||| (b.setWidth 32 <<< (8 * k)) := by
  apply BitVec.eq_of_getLsbD_eq
  intro i hi
  rw [setLane_getLsbD _ _ _ _ hi, BitVec.getLsbD_or, BitVec.getLsbD_shiftLeft, BitVec.getLsbD_setWidth]
  by_cases hlane : 8 * k ≤ i ∧ i < 8 * k + 8
  · have hzero : v.getLsbD i = false := by
      have hbit := lane_getLsbD v k (i - 8 * k) (by omega)
      rwa [h, BitVec.getLsbD_zero, Nat.add_sub_cancel' hlane.1, eq_comm] at hbit
    have hlo : ¬ i < 8 * k := by omega
    have hwidth : i - 8 * k < 32 := by omega
    rw [if_pos hlane, hzero, Bool.false_or]
    simp [hi, hlo, hwidth]
  · rw [if_neg hlane]
    by_cases hlo : i < 8 * k
    · simp [hlo]
    · simp [BitVec.getLsbD_of_ge b (i - 8 * k) (by omega)]

/-- Settles O37: the idle part of the invariant, and the header lanes it says are still 0. -/
theorem reachableIdleCountersAreZero : Obligations.ReachableIdleCountersAreZero := by
  intro s hs
  have h := hs.inv
  refine ⟨h.idle, fun b h4 => ?_, fun b h4 h8 => ?_⟩
  · exact setLane_eq_or (h.lenLanes s.bc (Nat.le_refl _) h4) b
  · exact setLane_eq_or (h.addrLanes (s.bc - 4) (by omega) (by omega)) b

/-! ## The pending restore -/

/-- Settles O38: the pending part of the invariant; a position of `9 + LEN` or more lies in the drain phase. -/
theorem reachablePendingRestore : Obligations.ReachablePendingRestore := by
  intro s hs hp
  have h := hs.inv
  obtain ⟨hen, hlen, hend, hpos⟩ := h.pending hp
  exact ⟨hen, hlen, hend, hpos, phase_drain (by omega), by omega, h.busy.1 hp⟩

end Sys2Proof.Machine
end

section
/-! PROOF. No step changes the parameters (10_state.md R32), from any state: the statement O42. -/

namespace Sys2Proof.Machine

/-- When the computation answers, its state has the parameters `C`. `Keeps` says so from the invariant only, and R32
has no such premise. -/
def AnswersCfg {α : Type} (C : Config) (proj : α → State) (r : Except Fault α) : Prop :=
  ∀ a, r = .ok a → (proj a).cfg = C

theorem AnswersCfg.ok {α : Type} {C : Config} {proj : α → State} {a : α} (h : (proj a).cfg = C) :
    AnswersCfg C proj (.ok a) := by
  intro b hb
  cases hb
  exact h

theorem AnswersCfg.bind {α β : Type} {C : Config} {proj : α → State} {proj' : β → State}
    {r : Except Fault α} {f : α → Except Fault β} (h : AnswersCfg C proj r)
    (hf : ∀ a, (proj a).cfg = C → AnswersCfg C proj' (f a)) : AnswersCfg C proj' (r >>= f) := by
  intro b hb
  obtain ⟨a, ha, hb⟩ := bind_eq_ok.1 hb
  exact hf a (h a ha) b hb

/-! ## The transport's primitives -/

theorem hostActs_answersCfg {C : Config} (xs : List HostAct) {s : State} (hC : s.cfg = C) :
    AnswersCfg C id (s.hostActs xs) := fun _ ht => (hostActs_cfg ht).1.trans hC

theorem wrEvent_answersCfg {C : Config} (b : Byte) {s : State} (hC : s.cfg = C) :
    AnswersCfg C id (s.wrEvent b) := fun _ ht => (wrEvent_outside ht).cfg.trans hC

theorem rdEvent_answersCfg {C : Config} {s : State} (hC : s.cfg = C) : AnswersCfg C id s.rdEvent :=
  fun _ ht => (rdEvent_outside ht).1.cfg.trans hC

theorem deliverWrites_answersCfg {C : Config} (bs : List Byte) (acts : List (List HostAct)) {s : State}
    (hC : s.cfg = C) : AnswersCfg C id (s.deliverWrites bs acts) := by
  induction bs generalizing acts s with
  | nil => exact .ok (proj := id) hC
  | cons b bs ih =>
    exact (hostActs_answersCfg _ hC).bind fun _ h1 => (wrEvent_answersCfg b h1).bind fun _ h2 => ih _ h2

theorem deliverReads_answersCfg {C : Config} (m : Nat) (acts : List (List HostAct)) {s : State}
    (hC : s.cfg = C) : AnswersCfg C Prod.snd (s.deliverReads m acts) := by
  induction m generalizing acts s with
  | zero => exact .ok (proj := Prod.snd) hC
  | succ m ih =>
    exact (hostActs_answersCfg _ hC).bind fun _ h1 => (rdEvent_answersCfg h1).bind fun _ h2 =>
      (ih _ h2).bind fun _ h3 => .ok (proj := Prod.snd) h3

theorem writeBytes_answersCfg {C : Config} (p : PeerHandle) (bs : List Byte) {s : State}
    (hC : s.cfg = C) : AnswersCfg C Prod.snd (s.writeBytes p bs) := by
  unfold State.writeBytes
  simp only
  split <;> exact (deliverWrites_answersCfg (s := s.popCarriage) _ _ hC).bind fun _ h1 =>
    .ok (proj := Prod.snd) h1

theorem readBytes_answersCfg {C : Config} (p : PeerHandle) (m : Nat) {s : State} (hC : s.cfg = C) :
    AnswersCfg C Prod.snd (s.readBytes p m) := by
  unfold State.readBytes
  simp only
  split <;> exact (deliverReads_answersCfg (s := s.popCarriage) _ _ hC).bind fun _ h1 =>
    .ok (proj := Prod.snd) h1

/-! ## The controller's calls -/

theorem returnStatusByte_answersCfg {C : Config} (p : PeerHandle) {s : State} (hC : s.cfg = C) :
    AnswersCfg C id (s.returnStatusByte p) := by
  refine (readBytes_answersCfg p 1 hC).bind fun r h1 => ?_
  obtain ⟨_ | vs, s1⟩ := r <;> exact .ok (proj := id) h1

theorem controllerWrite_answersCfg {C : Config} (p : PeerHandle) (a : U32) (data : List Byte) (n : U32)
    (inj : Bool) {s : State} (hC : s.cfg = C) :
    AnswersCfg C id (s.controllerWrite p a data n inj) := by
  refine (writeBytes_answersCfg p _ hC).bind fun r h1 => ?_
  obtain ⟨_ | _, s1⟩ := r
  · exact .ok (proj := id) h1
  · exact returnStatusByte_answersCfg p h1

theorem readTail_answersCfg {C : Config} (p : PeerHandle) (n a : U32) (ds : List Byte) {s : State}
    (hC : s.cfg = C) : AnswersCfg C id (s.readTail p n a ds) := by
  refine (readBytes_answersCfg p 1 hC).bind fun r h1 => ?_
  obtain ⟨_ | cs, s1⟩ := r
  · exact .ok (proj := id) h1
  · simp only
    split
    · exact (readBytes_answersCfg p 1 h1).bind fun _ h2 => .ok (proj := id) h2
    · exact returnStatusByte_answersCfg p h1

theorem controllerRead_answersCfg {C : Config} (p : PeerHandle) (a : U32) (buf : List Byte) (n : U32)
    {s : State} (hC : s.cfg = C) : AnswersCfg C id (s.controllerRead p a buf n) := by
  refine (writeBytes_answersCfg p _ hC).bind fun r h1 => ?_
  obtain ⟨_ | _, s1⟩ := r
  · exact .ok (proj := id) h1
  · refine (readBytes_answersCfg p _ h1).bind fun q h2 => ?_
    obtain ⟨_ | ds, s2⟩ := q
    · exact .ok (proj := id) h2
    · exact (readTail_answersCfg p n a ds h2).bind fun _ h3 => .ok (proj := id) h3

/-! ## The step -/

theorem exec_cfg {s t : State} {i : Instr} (ht : exec i s = .next t) : t.cfg = s.cfg := by
  cases i with
  | wrByte b => exact (wrEvent_outside (outcomeOf_eq_next.1 ht)).cfg
  | rdByte => exact (rdEvent_outside (outcomeOf_eq_next.1 ht)).1.cfg
  | process => exact (processEvent_outside (outcomeOf_eq_next.1 ht)).cfg
  | init => cases ht; rfl
  | crc8Step c b => cases ht; rfl
  | crc8 buf start => cases ht; rfl
  | cWrite p a data n inj =>
    simp only [exec, execCWrite] at ht
    split at ht
    · exact controllerWrite_answersCfg p a data n inj rfl t (outcomeOf_eq_next.1 ht)
    · cases ht
  | cRead p a buf n =>
    simp only [exec, execCRead] at ht
    split at ht
    · exact controllerRead_answersCfg p a buf n rfl t (outcomeOf_eq_next.1 ht)
    · cases ht
  | cReadStatus p =>
    obtain ⟨u, hu, h⟩ := bind_eq_ok.1 (outcomeOf_eq_next.1 ht)
    cases h
    exact controllerRead_answersCfg p _ _ _ rfl u hu

/-- Settles O42, by what a step can do: idle, an instruction, or an access of the host application. -/
theorem configurationNeverChanges : Obligations.ConfigurationNeverChanges := by
  intro s t hstep
  rcases step_eq_next hstep with ⟨-, rfl⟩ | ⟨i, rest, -, hexec⟩ | ⟨x, rest, -, happ⟩
  · rfl
  · exact exec_cfg (s := { s with inputs := rest }) hexec
  · exact (appAccess_cfg happ).1

end Sys2Proof.Machine
end

section
/-! PROOF. The block stays inside its buffers (20_memory.md R42, R43): the statement O39. -/

namespace Sys2Proof.Machine

/-! ## What a step that faults did -/

/-- A delivered access of the host application is performed (20_memory.md R51). -/
theorem step_of_app {s : State} {x : AppAccess} {rest : List Input} (hin : s.inputs = .app x :: rest) :
    step s = outcomeOf (State.appAccess x { s with inputs := rest }) := by
  simp only [step, hin]

/-- A step that faults ran the delivered instruction, or performed the host application's access. -/
theorem step_eq_fault {s : State} {f : Fault} (h : step s = .fault f) :
    (∃ i rest, s.delivers i rest ∧ exec i { s with inputs := rest } = .fault f) ∨
    (∃ x rest, s.inputs = .app x :: rest ∧ State.appAccess x { s with inputs := rest } = .error f) := by
  rcases hin : s.inputs with _ | ⟨w | i | x, rest⟩
  case nil => rw [step_of_no_input hin] at h; cases h
  case word =>
    cases hdec : decode w with
    | ok i => exact .inl ⟨i, rest, .inr ⟨w, hin, hdec⟩, step_of_word hin hdec ▸ h⟩
    | error e => simp [step, hin, hdec] at h
  case op => exact .inl ⟨i, rest, .inl hin, step_of_op hin ▸ h⟩
  case app => exact .inr ⟨x, rest, rfl, outcomeOf_eq_fault.1 (step_of_app hin ▸ h)⟩

/-! ## The faults from the invariant -/

/-- An event that completes does not fault. -/
theorem outcome_ne_fault {r : Except Fault State} {f : Fault} (hr : ∃ u, r = .ok u ∧ u.Inv) :
    outcomeOf r ≠ .fault f := by
  obtain ⟨u, rfl, -⟩ := hr
  exact nofun

/-- A controller call from the invariant faults only by a host step among its events. -/
theorem fault_of_keeps {r : Except Fault State} {C : Config} {T : List Carriage} {f : Fault}
    (hr : Keeps C T id r) (h : outcomeOf r = .fault f) : f.ofBlock = false :=
  hr.fault (outcomeOf_eq_fault.1 h)

/-- An instruction from the invariant raises no fault of the block: its events complete, and what remains are the host
steps that fall inside a controller call. -/
theorem exec_fault_not_ofBlock {s : State} {i : Instr} {f : Fault} (h : s.Inv)
    (hf : exec i s = .fault f) : f.ofBlock = false := by
  cases i with
  | wrByte b => exact absurd hf (outcome_ne_fault (inv_wrEvent h b))
  | rdByte => exact absurd hf (outcome_ne_fault (inv_rdEvent h))
  | process => exact absurd hf (outcome_ne_fault (inv_processEvent h))
  | init => cases hf
  | crc8Step c b => cases hf
  | crc8 buf start => cases hf
  | cWrite p a data n inj =>
    simp only [exec, execCWrite] at hf
    split at hf
    · exact fault_of_keeps (keeps_controllerWrite p a data n inj h rfl (List.Subset.refl _)) hf
    · cases hf
  | cRead p a buf n =>
    simp only [exec, execCRead] at hf
    split at hf
    · exact fault_of_keeps (keeps_controllerRead p a buf n h rfl (List.Subset.refl _)) hf
    · cases hf
  | cReadStatus p =>
    rcases bind_eq_error.1 (outcomeOf_eq_fault.1 hf) with herr | ⟨u, -, hret⟩
    · exact (keeps_controllerRead p _ _ _ h rfl (List.Subset.refl _)).fault herr
    · cases hret

theorem step_fault_not_ofBlock {s : State} {f : Fault} (h : s.Inv) (hf : step s = .fault f) :
    f.ofBlock = false := by
  rcases step_eq_fault hf with ⟨i, rest, -, hexec⟩ | ⟨x, rest, -, happ⟩
  · exact exec_fault_not_ofBlock (inputs_inv h rest) hexec
  · exact appAccess_error happ

/-! ## Runs -/

/-- A run of `k + 1` steps that faults did so in its first step, or in the `k` steps after it. -/
theorem run_succ_eq_fault {k : Nat} {s : State} {f : Fault}
    (h : Host.Core.run Sys2Proof.core (k + 1) s = .fault f) :
    step s = .fault f ∨ ∃ t, step s = .next t ∧ Host.Core.run Sys2Proof.core k t = .fault f := by
  cases hstep : Sys2Proof.core.step s with
  | next t => simp only [Host.Core.run, hstep] at h; exact .inr ⟨t, hstep, h⟩
  | fault g => simp only [Host.Core.run, hstep] at h; cases h; exact .inl hstep
  | refused r => simp only [Host.Core.run, hstep] at h; cases h

/-- A run from the invariant is safe: each of its steps keeps the invariant, so the next one raises no fault of the
block. -/
theorem State.Inv.safeRun {s : State} (h : s.Inv) : SafeRun s := by
  intro k f hf
  induction k generalizing s with
  | zero => cases hf
  | succ k ih =>
    rcases run_succ_eq_fault hf with hstep | ⟨t, hstep, hrun⟩
    · exact step_fault_not_ofBlock h hstep
    · exact ih (stepKeepsInvariant s t h hstep) hrun

/-- Settles O39: one step, the runs by induction over their steps, and the invariant of the reachable states. -/
theorem blockNeverLeavesItsBuffers : Obligations.BlockNeverLeavesItsBuffers :=
  ⟨fun _ h _ hf => step_fault_not_ofBlock h hf, fun _ h => h.safeRun, fun _ h => h.inv⟩

end Sys2Proof.Machine
end

section
/-! PROOF. Header fields, the backup write at `BK_SIZE` and the host application's accesses: the statements O6, O18 and
O50. -/

namespace Sys2Proof.Machine

/-! ## Byte lanes as digits -/

/-- Lane `k` is digit `k` in base 256 (00_scope.md R12, 20_memory.md R44). -/
theorem lane_toNat (v : U32) (k : Nat) : (lane v k).toNat = v.toNat / 256 ^ k % 256 := by
  rw [lane, BitVec.extractLsb'_toNat, Nat.shiftRight_eq_div_pow, Nat.pow_mul]

/-- Settles O6: the lanes are the digits, and setting a lane replaces that one. -/
theorem headerFieldsLittleEndian : Obligations.HeaderFieldsLittleEndian := by
  intro v
  refine ⟨fun k b hk => ⟨?written, fun j hj hjk => ?others⟩, ?listed⟩
  case written => rw [← lane_toNat, lane_setLane_same v hk]
  case others => rw [← lane_toNat, lane_setLane_other v hj hjk, lane_toNat]
  case listed => simp [le32, lane_toNat]

/-! ## The backup write at its size -/

/-- With backups on, the old byte is read and then finds no place in the backup buffer. -/
theorem applyData_bkOutside {b : Byte} {off ea : Nat} {s : State} (he : s.cfg.backupEn = true)
    (ho : s.cfg.bkSize ≤ off) (ha : ea < s.cfg.memSize) :
    s.applyData b off ea = .error (.bkOutside off) := by
  have hbk : ∀ v, s.bkWrite off v = .error (.bkOutside off) := fun v =>
    if_neg (by rw [backupSize_on he]; omega)
  rw [State.applyData, if_pos he, memRead_eq ha, ok_bind, hbk, error_bind]

/-- A data byte with no error flag and its address in the region is applied when the test of R77 lets its offset
through. -/
theorem wrData_applies {b : Byte} {s : State} (hst : s.st &&& 0x1F#8 = 0#8)
    (ha : effectiveAddress s.addr s.bc < s.cfg.memSize) (ho : dataOffset s.bc ≤ s.cfg.bkSize) :
    s.wrData b =
      (s.fold b).applyData b (dataOffset s.bc) (effectiveAddress s.addr s.bc) := by
  have herr : (s.fold b).hasError = false := anyErr_false_iff.2 hst
  simp [State.wrData, herr, Nat.not_le.2 ha, Nat.not_lt.2 ho]

/-- Settles O18: the test of R77 lets `off = BK_SIZE` through, and the backup access faults. -/
theorem backupAccessAtItsSizeFaults : Obligations.BackupAccessAtItsSizeFaults := by
  intro s b h8 hd hst ha hen hoff
  have happ : s.undriven.wrData b = .error (.bkOutside s.cfg.bkSize) := by
    rw [wrData_applies (s := s.undriven) hst ha (Nat.le_of_eq hoff), ← hoff]
    exact applyData_bkOutside hen (Nat.le_of_eq hoff.symm) ha
  have hev : s.wrEvent b = .error (.bkOutside s.cfg.bkSize) := by
    rw [wrEvent_data b h8 hd, happ, error_bind]
  exact outcomeOf_eq_fault.2 hev

/-! ## The host application's accesses -/

theorem step_next_of_app {s t : State} {x : AppAccess} {rest : List Input}
    (hin : s.inputs = .app x :: rest) (h : State.appAccess x { s with inputs := rest } = .ok t) :
    step s = .next t :=
  (step_of_app hin).trans (outcomeOf_eq_next.2 h)

theorem step_fault_of_app {s : State} {x : AppAccess} {rest : List Input} {f : Fault}
    (hin : s.inputs = .app x :: rest) (h : State.appAccess x { s with inputs := rest } = .error f) :
    step s = .fault f :=
  (step_of_app hin).trans (outcomeOf_eq_fault.2 h)

/-- The bytes of the backup buffer: below `BK_SIZE`, when there is one (10_state.md R33). -/
theorem lt_backupSize_iff {c : Config} {o : Nat} :
    o < backupSize c ↔ c.backupEn = true ∧ o < c.bkSize := by
  cases hen : c.backupEn with
  | true => simp [backupSize_on hen]
  | false => simp [backupSize_off hen]

theorem not_lt_backupSize {c : Config} {o : Nat} (h : c.backupEn = false ∨ c.bkSize ≤ o) :
    ¬ o < backupSize c := by
  rw [lt_backupSize_iff]
  rintro ⟨hen, ho⟩
  rcases h with h | h
  · simp [h] at hen
  · omega

/-- Settles O50: each access by the test of its own space. -/
theorem applicationAccesses : Obligations.ApplicationAccesses := by
  intro s rest a v
  refine ⟨?writeMem, ?readMem, ?writeBk, ?readBk, ?readMemOut, ?writeMemOut, ?readBkOut, ?writeBkOut⟩
  case writeMem => exact fun hin ha => step_next_of_app hin (if_pos ha)
  case readMem => exact fun hin ha => step_next_of_app hin (if_pos ha)
  case writeBk => exact fun hin hen ha => step_next_of_app hin (if_pos (lt_backupSize_iff.2 ⟨hen, ha⟩))
  case readBk => exact fun hin hen ha => step_next_of_app hin (if_pos (lt_backupSize_iff.2 ⟨hen, ha⟩))
  case readMemOut => exact fun hin ha => step_fault_of_app hin (if_neg (Nat.not_lt.2 ha))
  case writeMemOut => exact fun hin ha => step_fault_of_app hin (if_neg (Nat.not_lt.2 ha))
  case readBkOut => exact fun hin ha => step_fault_of_app hin (if_neg (not_lt_backupSize ha))
  case writeBkOut => exact fun hin ha => step_fault_of_app hin (if_neg (not_lt_backupSize ha))

end Sys2Proof.Machine
end

section
/-! PROOF. Event words and their streams: the statements O1 to O5. They rest on two facts: a word decodes to an
instruction exactly when it is that instruction's event word, and a list of event words decodes to the instructions they
belong to. -/

namespace Sys2Proof.Machine

/-! ## The fields of a word -/

theorem joinFields_opField_dataField (w : EvWord) : joinFields (opField w) (dataField w) = w := by
  apply BitVec.eq_of_getLsbD_eq
  intro i hi
  rw [joinFields, BitVec.getLsbD_append]
  split
  · next hlow => simp [dataField, hlow]
  · next hhigh => simp [opField, show i - 8 < 2 by omega, show 8 + (i - 8) = i by omega]

theorem opField_toNat (w : EvWord) : (opField w).toNat = w.toNat / 256 := by
  rw [opField, BitVec.extractLsb'_toNat, Nat.shiftRight_eq_div_pow, Nat.mod_eq_of_lt (by omega)]

theorem dataField_toNat (w : EvWord) : (dataField w).toNat = w.toNat % 256 := by
  rw [dataField, BitVec.extractLsb'_toNat, Nat.shiftRight_zero]

theorem wrWord_eq_setWidth (b : Byte) : wrWord b = b.setWidth 10 :=
  (BitVec.setWidth_eq_append (by decide)).symm

/-- Under the mask of R58 the word is its low byte. -/
theorem eq_wrWord_of_mask {w : EvWord} (h : w &&& 0x300#10 = 0#10) : w = wrWord (w.setWidth 8) := by
  have hop : opField w = 0#2 := calc
    opField w = opField w &&& opField 0x300#10 := BitVec.and_allOnes.symm
    _ = opField (w &&& 0x300#10) := BitVec.extractLsb'_and.symm
    _ = 0#2 := by rw [h]; rfl
  calc w = joinFields (opField w) (dataField w) := (joinFields_opField_dataField w).symm
    _ = wrWord (w.setWidth 8) := by rw [hop]; rfl

/-! ## Words and instructions -/

@[simp] theorem eventWord_wrByte (b : Byte) : eventWord (.wrByte b) = some (wrWord b) := rfl

@[simp] theorem eventWord_rdByte : eventWord .rdByte = some rdWord := rfl

theorem decode_of_eventWord {i : Instr} {w : EvWord} (h : eventWord i = some w) :
    decode w = .ok i := by
  cases i with
  | wrByte b => exact Laws.RoundTrip.wrByte b w h
  | rdByte => exact Laws.RoundTrip.rdByte w h
  | process => exact Laws.RoundTrip.process w h
  | init => exact Laws.RoundTrip.init w h
  | crc8Step | crc8 | cWrite | cRead | cReadStatus => cases h

/-- A word that decodes is made of the fields that the decoder tested. -/
theorem eventWord_of_decode {i : Instr} {w : EvWord} (h : decode w = .ok i) :
    eventWord i = some w := by
  rw [← joinFields_opField_dataField w]
  unfold decode at h
  split_ifs at h with hwr hdata hrd hprocess <;> cases h
  · rw [hwr]; rfl
  · rw [hrd, not_not.1 hdata]; rfl
  · rw [hprocess, not_not.1 hdata]; rfl
  · have hinit : opField w = 0b11#2 := by bv_omega
    rw [hinit, not_not.1 hdata]; rfl

/-- Words and the instructions that have one correspond one to one (30_encoding.md R58). -/
theorem eventWord_eq_some_iff {i : Instr} {w : EvWord} : eventWord i = some w ↔ decode w = .ok i :=
  ⟨decode_of_eventWord, eventWord_of_decode⟩

theorem encode_of_eventWord {i : Instr} {w : EvWord} (h : eventWord i = some w) : encode i = [w] := by
  cases i with
  | wrByte | rdByte | process | init => cases h; rfl
  | crc8Step | crc8 | cWrite | cRead | cReadStatus => cases h

theorem isEvent_of_decode {i : Instr} {w : EvWord} (h : decode w = .ok i) : isEvent i = true := by
  have hw := eventWord_of_decode h
  cases i with
  | wrByte | rdByte | process | init => rfl
  | crc8Step | crc8 | cWrite | cRead | cReadStatus => cases hw

/-! ## Streams -/

/-- A stream of event words decodes word by word. -/
theorem decodeStream_of_eventWords {ws : List EvWord} {is : List Instr}
    (h : is.map eventWord = ws.map some) : decodeStream ws = .ok is := by
  induction ws generalizing is with
  | nil => rw [List.map_eq_nil_iff.1 h]; rfl
  | cons w ws ih =>
    obtain ⟨i, js, rfl, hw, hws⟩ := List.map_eq_cons_iff.1 h
    rw [decodeStream, decode_of_eventWord hw, ih hws]

theorem decodeStream_wframeWords (n a : U32) (ds : List Byte) (inj : Bool) :
    decodeStream (wframeWords n a ds inj) =
      .ok ((le32 n ++ le32 a ++ ds ++ [frameChecksum n a ds inj]).map .wrByte ++ [.rdByte]) := by
  apply decodeStream_of_eventWords
  simp [wframeWords, writeFrame, checkedBytes, headerBytes, Function.comp_def]

theorem decodeStream_rframeWords (n a : U32) :
    decodeStream (rframeWords n a) =
      .ok ((le32 n ++ le32 a).map .wrByte ++ List.replicate (n.toNat + 2) .rdByte) := by
  apply decodeStream_of_eventWords
  simp [rframeWords, headerBytes, Function.comp_def]

@[simp] theorem headerBytes_length (n a : U32) : (headerBytes n a).length = 8 := rfl

theorem wframeWords_length (n a : U32) (ds : List Byte) (inj : Bool) :
    (wframeWords n a ds inj).length = 10 + ds.length := by
  simp +arith [wframeWords, writeFrame, checkedBytes]

theorem rframeWords_length (n a : U32) : (rframeWords n a).length = 10 + n.toNat := by
  simp +arith [rframeWords]

/-- The bad checksum is the good one plus one, modulo 256 (R67). -/
theorem frameChecksum_bad (n a : U32) (ds : List Byte) :
    frameChecksum n a ds true =
      BitVec.ofNat 8 (((crc8 (le32 n ++ le32 a ++ ds) 0#8).toNat + 1) % 256) := by
  change crc8 (le32 n ++ le32 a ++ ds) 0#8 + 1#8 = _
  bv_omega

/-! ## What a stream keeps -/

theorem le32_injective : Function.Injective le32 := by
  intro v w h
  simp only [le32, List.cons.injEq] at h
  obtain ⟨h0, h1, h2, h3, -⟩ := h
  apply eq_of_lanes
  intro k hk
  interval_cases k <;> assumption

theorem headerBytes_inj {n n' a a' : U32} (h : headerBytes n a = headerBytes n' a') :
    n = n' ∧ a = a' := by
  obtain ⟨hn, ha⟩ := List.append_inj h rfl
  exact ⟨le32_injective hn, le32_injective ha⟩

/-- The good and the bad checksum of the same bytes differ. -/
theorem frameChecksum_injective (n a : U32) (ds : List Byte) :
    Function.Injective (frameChecksum n a ds) := by
  have hne : frameChecksum n a ds true ≠ frameChecksum n a ds false := by simp [frameChecksum]
  exact Bool.injective_iff.2 hne.symm

/-- The checksum byte is the last, and the header has 8 bytes; what is between is the payload. -/
theorem writeFrame_inj {n n' a a' : U32} {ds ds' : List Byte} {j j' : Bool}
    (h : writeFrame n a ds j = writeFrame n' a' ds' j') : a = a' ∧ n = n' ∧ ds = ds' ∧ j = j' := by
  obtain ⟨hchecked, hsum⟩ := List.append_singleton_inj.1 h
  obtain ⟨hheader, rfl⟩ := List.append_inj hchecked rfl
  obtain ⟨rfl, rfl⟩ := headerBytes_inj hheader
  exact ⟨rfl, rfl, rfl, frameChecksum_injective n a ds hsum⟩

theorem wrWord_injective : Function.Injective wrWord := fun b c h =>
  calc b = dataField (wrWord b) := (dataField_joinFields _ b).symm
    _ = dataField (wrWord c) := by rw [h]
    _ = c := dataField_joinFields _ c

theorem wframeWords_inj {n n' a a' : U32} {ds ds' : List Byte} {j j' : Bool}
    (h : wframeWords n a ds j = wframeWords n' a' ds' j') : a = a' ∧ n = n' ∧ ds = ds' ∧ j = j' :=
  writeFrame_inj (wrWord_injective.list_map (List.append_cancel_right h))

theorem rframeWords_inj {n n' a a' : U32} (h : rframeWords n a = rframeWords n' a') :
    a = a' ∧ n = n' :=
  (headerBytes_inj (wrWord_injective.list_map (List.append_inj h rfl).1)).symm

/-- The encoding of an instruction decodes to its events, whether or not it is well formed. -/
theorem decodeStream_encode (i : Instr) : decodeStream (encode i) = .ok (eventsOf i) := by
  cases i with
  | wrByte b => exact decodeStream_of_eventWords rfl
  | rdByte | process | init | crc8Step | crc8 => rfl
  | cWrite p a data n inj => exact decodeStream_wframeWords n a (payload data n) inj
  | cRead p a buf n => exact decodeStream_rframeWords n a
  | cReadStatus p => exact decodeStream_rframeWords 1#32 0#32

/-- Settles O5, from the streams' decoding, the one-to-one correspondence and the layout of a frame. -/
theorem eventStreamsRoundTrip : Obligations.EventStreamsRoundTrip := by
  refine ⟨?events, ?words, ?encoding, ?writes, ?reads⟩
  case events => exact fun i _ => decodeStream_encode i
  case words => exact fun _ _ => eventWord_eq_some_iff
  case encoding => exact fun _ _ => encode_of_eventWord
  case writes => exact fun _ _ _ _ _ _ _ _ _ _ => wframeWords_inj
  case reads => exact fun _ _ _ _ _ _ _ _ => rframeWords_inj

/-! ## Reserved words -/

/-- The decoder's one refusal (R59), by the fields. -/
theorem exists_decode_error_iff {w : EvWord} :
    (∃ e, decode w = .error e) ↔ opField w ≠ 0#2 ∧ dataField w ≠ 0#8 := by
  unfold decode
  split_ifs <;> simp_all

theorem step_of_reserved {s : State} {w : EvWord} {rest : List Input} {e : DecodeError}
    (hin : s.inputs = .word w :: rest) (hdec : decode w = .error e) :
    step s = .refused (.reservedWord w) := by
  simp only [step, hin, hdec]

/-- No event of the block is refused; the refusals of `exec` are those of the controller's calls. -/
theorem exec_event_ne_refused {i : Instr} (h : isEvent i = true) (s : State) (r : Refusal) :
    exec i s ≠ .refused r := by
  cases i with
  | wrByte | rdByte | process => exact outcomeOf_ne_refused
  | init => exact nofun
  | crc8Step | crc8 | cWrite | cRead | cReadStatus => cases h

/-- The words R59 reserves, by value: those that do not decode. -/
theorem reserved_iff_decode_error {w : EvWord} :
    (256 ≤ w.toNat ∧ w.toNat % 256 ≠ 0) ↔ ∃ e, decode w = .error e := by
  have hop : opField w ≠ 0#2 ↔ 256 ≤ w.toNat := by
    rw [ne_eq, ← BitVec.toNat_inj, opField_toNat, BitVec.toNat_ofNat]
    omega
  have hdata : dataField w ≠ 0#8 ↔ w.toNat % 256 ≠ 0 := by
    rw [ne_eq, ← BitVec.toNat_inj, dataField_toNat, BitVec.toNat_ofNat]
  rw [exists_decode_error_iff, hop, hdata]

/-- Settles O3: a reserved word does not decode, and what decodes is an event, which is not refused. -/
theorem reservedWordsAreRefused : Obligations.ReservedWordsAreRefused := by
  intro s w rest hin
  rw [reserved_iff_decode_error]
  cases hdec : decode w with
  | error e =>
    have hres : ∃ e', Except.error (α := Instr) e = .error e' := ⟨e, rfl⟩
    exact ⟨iff_of_true hres (step_of_reserved hin hdec), fun h => absurd hres h⟩
  | ok i =>
    have hrun : ∀ r, step s ≠ .refused r := fun r => by
      rw [step_of_word hin hdec]
      exact exec_event_ne_refused (isEvent_of_decode hdec) _ r
    exact ⟨iff_of_false nofun (hrun _), fun _ => hrun⟩

/-! ## The pseudo-instructions and the opcode map -/

/-- Settles O4: the decoded streams, with each checksum written out, and their lengths. -/
theorem pseudoInstructionsExpand : Obligations.PseudoInstructionsExpand := by
  refine ⟨fun n a ds hlen => ⟨?good, ?bad, ?goodLength, ?badLength⟩,
    fun n a => ⟨decodeStream_rframeWords n a, rframeWords_length n a⟩, rfl⟩
  case good => exact decodeStream_wframeWords n a ds false
  case bad => rw [decodeStream_wframeWords, frameChecksum_bad]
  case goodLength => rw [wframeWords_length, hlen]
  case badLength => rw [wframeWords_length, hlen]

/-- Settles O1, word by word. -/
theorem specWordsDecode : Obligations.SpecWordsDecode :=
  ⟨rfl, rfl, rfl, rfl, rfl, rfl, rfl, rfl⟩

/-- An instruction with the event word `m` is read from the word that is `m` under the full mask, and no other. -/
theorem decode_iff_mask {i : Instr} {m : EvWord} (hi : eventWord i = some m) (w : EvWord) :
    decode w = .ok i ↔ w &&& 0x3FF#10 = m := by
  rw [← eventWord_eq_some_iff, hi, show (0x3FF#10) = BitVec.allOnes 10 from rfl, BitVec.and_allOnes,
    Option.some.injEq, eq_comm]

/-- Settles O2: each kind has the words its event word gives it. -/
theorem opcodeMapByMatchAndMask : Obligations.OpcodeMapByMatchAndMask := by
  intro w
  refine ⟨?wr, ?wrWords, decode_iff_mask rfl w, decode_iff_mask rfl w, decode_iff_mask rfl w⟩
  case wr => exact fun h => decode_of_eventWord (congrArg some (eq_wrWord_of_mask h).symm)
  case wrWords =>
    intro b
    rw [← eventWord_eq_some_iff, eventWord_wrByte, wrWord_eq_setWidth, Option.some.injEq, eq_comm]

end Sys2Proof.Machine
end

section
/-! PROOF. The CRC-8 unit (40_crc.md R68 to R72): the statements O7 to O11. Two facts about one iteration carry them:
it shifts up by 1 modulo the polynomial, and it sends only 0 to 0. -/

namespace Sys2Proof.Machine

/-! ## One iteration -/

theorem xor_xor_xor_cancel_right {w : Nat} (a b c : BitVec w) : a ^^^ c ^^^ (b ^^^ c) = a ^^^ b := by
  rw [BitVec.xor_comm b c, BitVec.xor_assoc, ← BitVec.xor_assoc c, BitVec.xor_self, BitVec.zero_xor]

/-- What an 8-bit shift loses is bit 7, which a wider word keeps as bit 8. -/
theorem setWidth_shiftLeft_one (x : Byte) :
    x.setWidth 16 <<< 1 = (if x.getLsbD 7 then 0x100#16 else 0#16) ^^^ (x <<< 1).setWidth 16 := by
  apply BitVec.eq_of_getLsbD_eq
  intro i hi
  cases htop : x.getLsbD 7 <;> interval_cases i <;> simp [-BitVec.getLsbD_eq_getElem, htop]

/-- One iteration shifts up by 1 and takes the remainder modulo `x^8 + x^2 + x + 1` (R70): what it adds is the
polynomial, whose bit 8 is the one the shift lost. -/
theorem setWidth_crcShift (x : Byte) :
    x.setWidth 16 <<< 1 = (if x.getLsbD 7 then 0x107#16 else 0#16) ^^^ (crcShift x).setWidth 16 := by
  rw [setWidth_shiftLeft_one, crcShift]
  split
  · rw [BitVec.setWidth_xor]
    exact (xor_xor_xor_cancel_right 0x100#16 _ 0x07#16).symm
  · rfl

/-- The polynomial has bit 0 and a shifted value has not, so an iteration that adds the polynomial does not give 0. -/
theorem crcShift_eq_zero_iff {x : Byte} : crcShift x = 0#8 ↔ x = 0#8 := by
  refine ⟨fun h => ?_, fun h => by rw [h]; rfl⟩
  have hrem := setWidth_crcShift x
  rw [h] at hrem
  split at hrem
  · have hbit := congrArg (BitVec.getLsbD · 0) hrem
    simp at hbit
  · apply BitVec.eq_of_getLsbD_eq
    intro i hi
    have hbit := congrArg (BitVec.getLsbD · (i + 1)) hrem
    simpa [show i + 1 < 16 by omega, show i < 16 by omega] using hbit

theorem crcShifts_eq_zero_iff {n : Nat} {x : Byte} : crcShifts n x = 0#8 ↔ x = 0#8 := by
  induction n generalizing x with
  | zero => rfl
  | succ n ih => rw [crcShifts, ih, crcShift_eq_zero_iff]

theorem crcShifts_eq_iterate (n : Nat) (x : Byte) : crcShifts n x = crcShift^[n] x := by
  induction n generalizing x with
  | zero => rfl
  | succ n ih => exact ih (crcShift x)

/-! ## The remainder -/

/-- The product distributes over the sum of quotients: each bit of the sum adds the multiples that the two bits add. -/
theorem polyMul_xor (q r : Byte) (p : BitVec 16) :
    polyMul (q ^^^ r) p = polyMul q p ^^^ polyMul r p := by
  apply List.foldl_hom₂ (f := (· ^^^ ·)) (a := 0#16) (b := 0#16)
  intro a b i
  rw [BitVec.getLsbD_xor]
  cases q.getLsbD i <;> cases r.getLsbD i
  case false.false => rfl
  case false.true => exact (BitVec.xor_assoc ..).symm
  case true.false =>
    change a ^^^ p <<< i ^^^ b = a ^^^ b ^^^ p <<< i
    ac_rfl
  case true.true => exact xor_xor_xor_cancel_right a b _

/-- A quotient of one bit adds one multiple, the polynomial shifted to that bit. -/
theorem polyMul_twoPow {n : Nat} (hn : n < 8) (p : BitVec 16) :
    polyMul (BitVec.twoPow 8 n) p = p <<< n := by
  interval_cases n <;> simp [polyMul, List.range_succ]

/-- `n` iterations shift up by `n` modulo the polynomial: the first bit tested is the quotient's highest. -/
theorem exists_quotient_crcShifts {n : Nat} (hn : n ≤ 8) (x : Byte) :
    ∃ q : Byte, x.setWidth 16 <<< n = polyMul q 0x107#16 ^^^ (crcShifts n x).setWidth 16 := by
  induction n generalizing x with
  | zero => exact ⟨0#8, (BitVec.shiftLeft_zero _).trans (BitVec.zero_xor).symm⟩
  | succ n ih =>
    obtain ⟨q, hq⟩ := ih (by omega) (crcShift x)
    obtain ⟨r, hr⟩ : ∃ r : Byte,
        (if x.getLsbD 7 then 0x107#16 else 0#16) <<< n = polyMul r 0x107#16 := by
      split
      · exact ⟨BitVec.twoPow 8 n, (polyMul_twoPow (by omega) _).symm⟩
      · exact ⟨0#8, BitVec.zero_shiftLeft n⟩
    refine ⟨r ^^^ q, ?_⟩
    calc x.setWidth 16 <<< (n + 1)
        = x.setWidth 16 <<< 1 <<< n := by rw [Nat.add_comm, BitVec.shiftLeft_add]
      _ = polyMul r 0x107#16 ^^^ (crcShift x).setWidth 16 <<< n := by
          rw [setWidth_crcShift, BitVec.shiftLeft_xor_distrib, hr]
      _ = polyMul (r ^^^ q) 0x107#16 ^^^ (crcShifts (n + 1) x).setWidth 16 := by
          rw [hq, polyMul_xor, BitVec.xor_assoc, crcShifts]

/-- Settles O9: eight iterations shift up by 8, each with its own bit of the quotient. -/
theorem crcStepIsPolynomialRemainder : Obligations.CrcStepIsPolynomialRemainder :=
  fun c b => exists_quotient_crcShifts (Nat.le_refl 8) (c ^^^ b)

/-! ## The fold -/

theorem crc8_append (p q : List Byte) (s : Byte) : crc8 (p ++ q) s = crc8 q (crc8 p s) :=
  List.foldl_append

theorem crc8_concat (buf : List Byte) (b s : Byte) : crc8 (buf ++ [b]) s = crcStep (crc8 buf s) b :=
  List.foldl_concat ..

/-- The register `CRC` follows the bytes folded into it (R71). -/
theorem State.foldl_fold_crc (p : List Byte) (s : State) :
    (p.foldl (fun t b => t.fold b) s).crc = crc8 p s.crc :=
  (List.foldl_hom State.crc fun _ _ => rfl).symm

/-! ## The residue -/

theorem crcStep_eq_zero_iff {c b : Byte} : crcStep c b = 0#8 ↔ b = c := by
  rw [crcStep, crcShifts_eq_zero_iff, BitVec.xor_eq_zero_iff, eq_comm]

/-- The step is linear over GF(2), so bytes with the same image have a sum with image 0. -/
theorem crcStep_zero_injective : Function.Injective (crcStep 0#8) := by
  intro x y h
  rw [crcStep, crcStep, BitVec.zero_xor, BitVec.zero_xor, ← BitVec.xor_eq_zero_iff, ← crcShifts_xor,
    crcShifts_eq_zero_iff, BitVec.xor_eq_zero_iff] at h
  exact h

/-- Settles O11: the step gives 0 only for the running value itself, and is injective on a finite type. -/
theorem crcResidueLaw : Obligations.CrcResidueLaw := by
  refine ⟨fun c b => crcStep_eq_zero_iff, ?bijective, ?message⟩
  case bijective => exact Finite.injective_iff_bijective.1 crcStep_zero_injective
  case message =>
    intro m
    rw [crc8_concat]
    exact crcStep_eq_zero_iff.2 rfl

/-! ## The unit's operations -/

/-- The mask of R68's pseudocode drops nothing from a byte. -/
theorem crcShift_eq_masked (x : Byte) : crcShift x =
    if x.getLsbD 7 then ((x <<< 1) &&& 0xFF#8) ^^^ 0x07#8 else (x <<< 1) &&& 0xFF#8 := by
  rw [show 0xFF#8 = BitVec.allOnes 8 from rfl, BitVec.and_allOnes, crcShift]

theorem exec_crc8Step (s : State) (c b : Byte) :
    exec (.crc8Step c b) s = .next { s with crcOut := some (crcStep c b) } := rfl

theorem exec_crc8 (s : State) (buf : List Byte) (start : Byte) :
    exec (.crc8 buf start) s = .next { s with crcOut := some (crc8 buf start) } := rfl

/-- Settles O7: the eight iterations are those of the pseudocode, mask included. -/
theorem crc8StepValue : Obligations.Crc8StepValue := by
  intro s c b
  rw [exec_crc8Step, crcStep, crcShifts_eq_iterate, funext crcShift_eq_masked]

/-- Settles O8, from the fold over no bytes and over one more. -/
theorem crc8Value : Obligations.Crc8Value :=
  fun s buf start => ⟨exec_crc8 s buf start, crc8_nil start, fun b => crc8_concat buf b start⟩

/-- Settles O10: a fold over an appended list, and the register that a folded byte leaves. -/
theorem crcIncrementalLaw : Obligations.CrcIncrementalLaw := by
  refine ⟨?append, ?register⟩
  case append => exact fun p q s => (crc8_append p q s).symm
  case register =>
    intro p s hcrc
    rw [State.foldl_fold_crc, hcrc]

end Sys2Proof.Machine
end

section
/-! PROOF. The whole next state of a WR_BYTE in each phase (41_write_byte.md R74 to R79): the statements O14 to O17, O20
and O21. -/

namespace Sys2Proof.Machine

theorem exec_wrByte_eq_next {s t : State} {b : Byte} : exec (.wrByte b) s = .next t ↔ s.wrEvent b = .ok t :=
  outcomeOf_eq_next

/-! ## The header -/

/-- The length phase, transaction start included (R74, R75). -/
theorem wrEvent_length_eq {s : State} (b : Byte) (h : s.bc < 4) : s.wrEvent b = .ok { s with
    bc := s.bc + 1, len := setLane s.len s.bc b, crc := crcStep s.crc b,
    st := if s.bc = 3 ∧ s.cfg.backupEn = true ∧ s.cfg.bkSize < (setLane s.len s.bc b).toNat then
        setFlag (statusAtBranch s) .backupBufferOverflow
      else statusAtBranch s,
    rdData := none } := by
  rw [wrEvent_length b h, wrLength_eq, State.txStart_eq]
  rfl

/-- The address phase (R76). -/
theorem wrEvent_address_eq {s : State} (b : Byte) (h4 : 4 ≤ s.bc) (h8 : s.bc < 8) : s.wrEvent b = .ok { s with
    bc := s.bc + 1, addr := setLane s.addr (s.bc - 4) b, crc := crcStep s.crc b,
    st := if s.bc = 7 ∧ s.cfg.memSize ≤ transferEnd (setLane s.addr (s.bc - 4) b) s.len then
        setFlag s.st .memoryOutOfRange
      else s.st,
    rdData := none } := by
  rw [wrEvent_address b h4 h8, wrAddress_eq]
  rfl

/-- Settles O15: the length branch on the state that the transaction start leaves. -/
theorem writeLengthByte : Obligations.WriteLengthByte :=
  fun _ b h4 => exec_wrByte_eq_next.2 (wrEvent_length_eq b h4)

/-- Settles O16, from the address branch. -/
theorem writeAddressByte : Obligations.WriteAddressByte :=
  fun _ b h4 h8 => exec_wrByte_eq_next.2 (wrEvent_address_eq b h4 h8)

/-! ## The start of a transaction -/

theorem statusAtBranch_start {s : State} (h : s.bc = 0) : statusAtBranch s = 0x80#8 := if_pos h

theorem statusAtBranch_open {s : State} (h : s.bc ≠ 0) : statusAtBranch s = s.st := if_neg h

/-- The first byte of a transaction: what `ST` was before does not show (R74). -/
theorem wrEvent_start {s : State} (b : Byte) (h : s.bc = 0) : s.wrEvent b = .ok { s with
    bc := 1, len := setLane s.len 0 b, crc := crcStep s.crc b, st := 0x80#8, rdData := none } := by
  rw [wrEvent_length_eq b (by omega), if_neg (by omega), statusAtBranch_start h, h]

/-- Settles O14: the first byte's next state, RdHeader for an RD_BYTE there, and R37 (d) for a pending restore. -/
theorem writeStartsTransaction : Obligations.WriteStartsTransaction := by
  refine ⟨fun s b h0 => ?write, fun s h0 => ?read, fun s h hp => ?pending⟩
  case write =>
    have hs := exec_wrByte_eq_next.2 (wrEvent_start b h0)
    have hok := exec_wrByte_eq_next.2 (wrEvent_start (s := { s with st := 0x80#8 }) b h0)
    exact ⟨hs.trans hok.symm, _, hs, rfl⟩
  case read => exact ⟨_, outcomeOf_eq_next.2 (rdEvent_header (by omega)), rfl⟩
  case pending =>
    obtain ⟨-, -, -, hpos⟩ := h.pending hp
    omega

/-! ## The data phase -/

/-- Under an error flag the byte is dropped, and folded (R77). -/
theorem wrData_dropped {s : State} (b : Byte) (he : s.st &&& 0x1F#8 ≠ 0#8) : s.wrData b = .ok (s.fold b) :=
  if_pos (hasError_iff.2 he)

theorem wrData_outOfRange {s : State} (b : Byte) (hst : s.st &&& 0x1F#8 = 0#8)
    (ha : s.cfg.memSize ≤ effectiveAddress s.addr s.bc) :
    s.wrData b = .ok ((s.fold b).recordError .memoryOutOfRange) := by
  have herr : (s.fold b).hasError = false := anyErr_false_iff.2 hst
  simp [State.wrData, herr, ha]

theorem wrData_overflow {s : State} (b : Byte) (hst : s.st &&& 0x1F#8 = 0#8)
    (ha : effectiveAddress s.addr s.bc < s.cfg.memSize) (hen : s.cfg.backupEn = true)
    (ho : s.cfg.bkSize < dataOffset s.bc) :
    s.wrData b = .ok ((s.fold b).recordError .backupBufferOverflow) := by
  have herr : (s.fold b).hasError = false := anyErr_false_iff.2 hst
  simp [State.wrData, herr, Nat.not_le.2 ha, hen, ho]

/-- The byte stored with the old one saved (R38, R77). -/
theorem wrData_saved {s : State} (b : Byte) (hst : s.st &&& 0x1F#8 = 0#8)
    (ha : effectiveAddress s.addr s.bc < s.cfg.memSize) (hen : s.cfg.backupEn = true)
    (ho : dataOffset s.bc < s.cfg.bkSize) :
    s.wrData b = .ok { s.fold b with
      bk := Memory.write s.bk (dataOffset s.bc) (Memory.read s.mem (effectiveAddress s.addr s.bc)),
      mem := Memory.write s.mem (effectiveAddress s.addr s.bc) b } := by
  rw [wrData_applies hst ha (Nat.le_of_lt ho)]
  exact applyData_on hen ho ha

/-- The byte stored with no backup buffer (R39, R77). -/
theorem wrData_plain {s : State} (b : Byte) (hst : s.st &&& 0x1F#8 = 0#8)
    (ha : effectiveAddress s.addr s.bc < s.cfg.memSize) (hen : s.cfg.backupEn = false) :
    s.wrData b = .ok { s.fold b with mem := Memory.write s.mem (effectiveAddress s.addr s.bc) b } := by
  have herr : (s.fold b).hasError = false := anyErr_false_iff.2 hst
  simp only [State.wrData, herr, State.fold_cfg, Nat.not_le.2 ha, hen, Bool.false_eq_true, false_and, if_false]
  exact applyData_off hen ha

/-- The data phase once its branch is known. -/
theorem wrEvent_of_wrData {s t : State} {b : Byte} (h8 : 8 ≤ s.bc) (hd : s.bc < 8 + s.len.toNat)
    (h : s.undriven.wrData b = .ok t) : s.wrEvent b = .ok t.advance := by
  rw [wrEvent_data b h8 hd, h, ok_bind]

/-- Settles O17, case by case of the pseudocode. -/
theorem writeDataByte : Obligations.WriteDataByte := by
  intro s b h8 hd
  have hev {t : State} (h : s.undriven.wrData b = .ok t) : exec (.wrByte b) s = .next t.advance :=
    exec_wrByte_eq_next.2 (wrEvent_of_wrData h8 hd h)
  refine ⟨fun he => ?dropped, fun hst ha => ?range, fun hst ha hen ho => ?overflow,
    fun hst ha hen ho => ?saved, fun hst ha hen => ?plain⟩
  case dropped => exact hev (wrData_dropped b he)
  case range => exact hev (wrData_outOfRange b hst ha)
  case overflow => exact hev (wrData_overflow b hst ha hen ho)
  case saved => exact hev (wrData_saved b hst ha hen ho)
  case plain => exact hev (wrData_plain b hst ha hen)

/-! ## The checksum byte and the drain phase -/

/-- The checksum position (R78). -/
theorem wrEvent_checksum_eq {s : State} (b : Byte) (h : s.bc = 8 + s.len.toNat) : s.wrEvent b = .ok { s with
    bc := s.bc + 1, st := if b ≠ s.crc then setFlag s.st .dataCorrupted else s.st, rdData := none } := by
  rw [wrEvent_checksum b h, wrChecksum_eq, ite_not]
  rfl

/-- Settles O20, from the checksum branch. -/
theorem writeChecksumByte : Obligations.WriteChecksumByte :=
  fun _ b h => exec_wrByte_eq_next.2 (wrEvent_checksum_eq b h)

/-- Settles O21, from the drain branch. -/
theorem writeDrainByte : Obligations.WriteDrainByte :=
  fun _ b h => exec_wrByte_eq_next.2 (wrEvent_drain b h)

end Sys2Proof.Machine
end

section
/-! PROOF. What a WR_BYTE can do and what it leaves alone (41_write_byte.md R73, R80; 20_memory.md R38, R39): the
statements O19, O22 and O23. -/

namespace Sys2Proof.Machine

/-! ## What a WR_BYTE can do -/

/-- `mem` and `bk` are the two spaces of `s` after `b` was applied to memory (R77): stored at `EA`, the old byte saved
at its offset when backups are enabled. -/
structure State.Stored (s : State) (b : Byte) (mem bk : Memory) : Prop where
  unflagged : s.st &&& 0x1F#8 = 0#8
  stored : mem = Memory.write s.mem (effectiveAddress s.addr s.bc) b
  saved : s.cfg.backupEn = true →
    bk = Memory.write s.bk (dataOffset s.bc) (Memory.read s.mem (effectiveAddress s.addr s.bc))
  unsaved : s.cfg.backupEn = false → bk = s.bk

/-- A data byte that does not fault is folded, and dropped, flagged or applied. -/
theorem wrData_eq_ok {s t : State} {b : Byte} (h : s.wrData b = .ok t) :
    ∃ st mem bk, t = { s.fold b with st := st, mem := mem, bk := bk } ∧
      ((mem = s.mem ∧ bk = s.bk) ∨ s.Stored b mem bk) := by
  by_cases hst : s.st &&& 0x1F#8 = 0#8
  case neg =>
    cases (wrData_dropped b hst).symm.trans h
    exact ⟨_, _, _, rfl, .inl ⟨rfl, rfl⟩⟩
  rcases Nat.lt_or_ge (effectiveAddress s.addr s.bc) s.cfg.memSize with ha | ha
  case inr =>
    cases (wrData_outOfRange b hst ha).symm.trans h
    exact ⟨_, _, _, rfl, .inl ⟨rfl, rfl⟩⟩
  cases hen : s.cfg.backupEn with
  | false =>
    cases (wrData_plain b hst ha hen).symm.trans h
    exact ⟨_, _, _, rfl, .inr ⟨hst, rfl, by simp [hen], fun _ => rfl⟩⟩
  | true =>
    rcases Nat.lt_trichotomy (dataOffset s.bc) s.cfg.bkSize with ho | ho | ho
    · cases (wrData_saved b hst ha hen ho).symm.trans h
      exact ⟨_, _, _, rfl, .inr ⟨hst, rfl, fun _ => rfl, by simp [hen]⟩⟩
    · rw [wrData_applies hst ha (Nat.le_of_eq ho),
        applyData_bkOutside (s := s.fold b) hen (Nat.le_of_eq ho.symm) ha] at h
      cases h
    · cases (wrData_overflow b hst ha hen ho).symm.trans h
      exact ⟨_, _, _, rfl, .inl ⟨rfl, rfl⟩⟩

/-- What a WR_BYTE that does not fault can do to the state: the fields it writes, and where in the transaction. -/
theorem wrEvent_eq_ok {s t : State} {b : Byte} (h : s.wrEvent b = .ok t) :
    ∃ len addr crc st mem bk, t = { s with
        bc := s.bc + 1, len := len, addr := addr, crc := crc, st := st, mem := mem, bk := bk, rdData := none } ∧
      (4 ≤ s.bc → len = s.len) ∧ (¬ (4 ≤ s.bc ∧ s.bc < 8) → addr = s.addr) ∧
      (8 + s.len.toNat ≤ s.bc → crc = s.crc) ∧
      ((mem = s.mem ∧ bk = s.bk) ∨ (phase s.bc s.len = .data ∧ s.Stored b mem bk)) := by
  by_cases h4 : s.bc < 4
  · cases (wrEvent_length_eq b h4).symm.trans h
    exact ⟨_, _, _, _, _, _, rfl, by omega, fun _ => rfl, by omega, .inl ⟨rfl, rfl⟩⟩
  by_cases h8 : s.bc < 8
  · cases (wrEvent_address_eq b (by omega) h8).symm.trans h
    exact ⟨_, _, _, _, _, _, rfl, fun _ => rfl, by omega, by omega, .inl ⟨rfl, rfl⟩⟩
  by_cases hd : s.bc < 8 + s.len.toNat
  · rw [wrEvent_data b (by omega) hd] at h
    obtain ⟨u, hu, h⟩ := bind_eq_ok.1 h
    obtain ⟨st, mem, bk, rfl, hspaces⟩ := wrData_eq_ok hu
    cases h
    refine ⟨_, _, _, _, _, _, rfl, fun _ => rfl, fun _ => rfl, by omega, hspaces.imp_right fun hs => ?_⟩
    exact ⟨phase_data (by omega) hd, hs.unflagged, hs.stored, hs.saved, hs.unsaved⟩
  by_cases hc : s.bc = 8 + s.len.toNat
  · cases (wrEvent_checksum_eq b hc).symm.trans h
    exact ⟨_, _, _, _, _, _, rfl, fun _ => rfl, fun _ => rfl, fun _ => rfl, .inl ⟨rfl, rfl⟩⟩
  · cases (wrEvent_drain b (by omega)).symm.trans h
    exact ⟨_, _, _, _, _, _, rfl, fun _ => rfl, fun _ => rfl, fun _ => rfl, .inl ⟨rfl, rfl⟩⟩

theorem wrEvent_bc {s t : State} {b : Byte} (h : s.wrEvent b = .ok t) : t.bc = s.bc + 1 := by
  obtain ⟨_, _, _, _, _, _, rfl, -⟩ := wrEvent_eq_ok h
  rfl

/-- Settles O22: `BC` in what a WR_BYTE can do, and its completion from the invariant. -/
theorem writeAlwaysAdvances : Obligations.WriteAlwaysAdvances := by
  refine ⟨fun s t b h => wrEvent_bc (exec_wrByte_eq_next.1 h), fun s b h => ?_⟩
  obtain ⟨t, ht, -⟩ := inv_wrEvent h b
  exact ⟨t, exec_wrByte_eq_next.2 ht, wrEvent_bc ht⟩

/-! ## The two spaces, byte by byte -/

theorem State.Stored.read_mem_other {s : State} {b : Byte} {mem bk : Memory} (h : s.Stored b mem bk)
    (hm : Memory.wf s.mem = true) {a : Nat} (ha : a ≠ effectiveAddress s.addr s.bc) :
    Memory.read mem a = Memory.read s.mem a := by
  rw [h.stored, Memory.read_write_other hm ha]

theorem State.Stored.read_bk_other {s : State} {b : Byte} {mem bk : Memory} (h : s.Stored b mem bk)
    (hk : Memory.wf s.bk = true) {o : Nat} (ho : ¬ (s.cfg.backupEn = true ∧ o = dataOffset s.bc)) :
    Memory.read bk o = Memory.read s.bk o := by
  cases hen : s.cfg.backupEn with
  | false => rw [h.unsaved hen]
  | true => rw [h.saved hen, Memory.read_write_other hk fun e => ho ⟨hen, e⟩]

/-- From the invariant an unflagged data byte is applied: the header's checks passed (R76, R77). -/
theorem wrEvent_stored {s : State} (h : s.Inv) (b : Byte) (h8 : 8 ≤ s.bc) (hd : s.bc < 8 + s.len.toNat)
    (hst : s.st &&& 0x1F#8 = 0#8) : ∃ t, s.wrEvent b = .ok t ∧ s.Stored b t.mem t.bk := by
  obtain ⟨ha, ho⟩ := h.dataInside h8 hd (anyErr_false_iff.2 hst)
  cases hen : s.cfg.backupEn with
  | false =>
    exact ⟨_, wrEvent_of_wrData h8 hd (wrData_plain (s := s.undriven) b hst ha hen),
      hst, rfl, by simp [hen], fun _ => rfl⟩
  | true =>
    exact ⟨_, wrEvent_of_wrData h8 hd (wrData_saved (s := s.undriven) b hst ha hen (ho hen)),
      hst, rfl, fun _ => rfl, by simp [hen]⟩

/-- Settles O19: the byte is applied, and each space reads so. -/
theorem writeDataStoresAndSaves : Obligations.WriteDataStoresAndSaves := by
  intro s b h h8 hd hst
  obtain ⟨t, ht, hs⟩ := wrEvent_stored h b h8 hd hst
  refine ⟨t, exec_wrByte_eq_next.2 ht, ?stored, fun a ha => hs.read_mem_other h.memCanonical ha,
    fun hen => ⟨?saved, fun o ho => hs.read_bk_other h.bkCanonical fun e => ho e.2⟩, hs.unsaved⟩
  case stored => rw [hs.stored, Memory.read_write_same h.memCanonical]
  case saved => rw [hs.saved hen, Memory.read_write_same h.bkCanonical]

/-- Settles O23, from what a WR_BYTE can do; a space that it changes, it changes at one byte. -/
theorem writeByteFrame : Obligations.WriteByteFrame := by
  intro s t b hm hk h
  have hev := exec_wrByte_eq_next.1 h
  have hout := wrEvent_outside hev
  obtain ⟨len, addr, crc, st, mem, bk, rfl, hlen, haddr, hcrc, hspaces⟩ := wrEvent_eq_ok hev
  refine ⟨hout, rfl, rfl, hlen, haddr, hcrc, fun a ha => ?mem, fun o ho => ?bk⟩
  case mem =>
    rcases hspaces with ⟨rfl, -⟩ | ⟨hph, hs⟩
    · rfl
    · exact hs.read_mem_other hm fun e => ha ⟨hph, hs.unflagged, e⟩
  case bk =>
    rcases hspaces with ⟨-, rfl⟩ | ⟨hph, hs⟩
    · rfl
    · exact hs.read_bk_other hk fun e => ho ⟨hph, hs.unflagged, e⟩

end Sys2Proof.Machine
end

section
/-! PROOF. A call of C_WRITE on a reliable transport (44_controller_peer.md R93, R94), its header event by event, and
the statement O53. -/

namespace Sys2Proof.Machine

/-! ## Events with no host step among them -/

theorem deliverWrites_nil (acts : List (List HostAct)) (s : State) : s.deliverWrites [] acts = .ok s := rfl

theorem deliverWrites_cons (b : Byte) (bs : List Byte) (s : State) :
    s.deliverWrites (b :: bs) [] = s.wrEvent b >>= fun t => t.deliverWrites bs [] := rfl

theorem deliverWrites_append (bs cs : List Byte) (s : State) :
    s.deliverWrites (bs ++ cs) [] = s.deliverWrites bs [] >>= fun t => t.deliverWrites cs [] := by
  induction bs generalizing s with
  | nil => rfl
  | cons b bs ih =>
    rw [List.cons_append, deliverWrites_cons, deliverWrites_cons]
    cases s.wrEvent b with
    | ok t => exact ih t
    | error f => rfl

theorem deliverWrites_outside {bs : List Byte} {s t : State} (h : s.deliverWrites bs [] = .ok t) :
    SameOutside s t := by
  induction bs generalizing s with
  | nil => cases h; exact SameOutside.refl _
  | cons b bs ih =>
    rw [deliverWrites_cons] at h
    obtain ⟨u, hu, h⟩ := bind_eq_ok.1 h
    exact (wrEvent_outside hu).trans (ih h)

/-! ## The call on a reliable transport -/

theorem State.reliable.nextCarriage {s : State} (h : s.reliable) : s.nextCarriage = Carriage.plain := by
  unfold State.nextCarriage
  cases hT : s.transport with
  | nil => rfl
  | cons c cs => exact h c (by simp [hT])

theorem State.reliable.popCarriage {s : State} (h : s.reliable) : s.popCarriage.reliable :=
  fun c hc => h c (List.mem_of_mem_tail hc)

theorem writeBytes_reliable {s t : State} (p : PeerHandle) {bs : List Byte} (h : s.reliable)
    (ht : s.popCarriage.deliverWrites bs [] = .ok t) : s.writeBytes p bs = .ok (true, t) := by
  simp only [State.writeBytes, h.nextCarriage, Carriage.plain, ht, ok_bind, pure_eq_ok]

theorem returnStatusByte_reliable {s t : State} (p : PeerHandle) (h : s.reliable)
    (ht : s.popCarriage.rdEvent = .ok t) :
    s.returnStatusByte p = .ok (t.ctlReturn (t.rdData.getD 0#8)) := by
  have hread : s.popCarriage.deliverReads 1 [] = .ok ([t.rdData.getD 0#8], t) := by
    simp only [State.deliverReads, List.headD_nil, State.hostActs, ok_bind, ht, pure_eq_ok]
  simp only [State.returnStatusByte, State.readBytes, h.nextCarriage, Carriage.plain, hread, ok_bind, pure_eq_ok,
    List.headD_cons]

/-- C_WRITE is its frame and one RD_BYTE, whose byte it returns (R94). -/
theorem exec_cWrite_reliable {s t u : State} {p : PeerHandle} {a n : U32} {data : List Byte} {inj : Bool}
    (hwf : (Instr.cWrite p a data n inj).wellFormed = true) (h : s.reliable)
    (hw : s.popCarriage.deliverWrites (writeFrame n a (payload data n) inj) [] = .ok t)
    (hr : t.popCarriage.rdEvent = .ok u) :
    exec (.cWrite p a data n inj) s = .next (u.ctlReturn (u.rdData.getD 0#8)) := by
  have ht : t.reliable := by
    unfold State.reliable
    rw [(deliverWrites_outside hw).transport]
    exact h.popCarriage
  have hcall : s.controllerWrite p a data n inj = .ok (u.ctlReturn (u.rdData.getD 0#8)) := by
    rw [State.controllerWrite, writeBytes_reliable p h hw, ok_bind]
    exact returnStatusByte_reliable p ht hr
  exact (if_pos hwf).trans (outcomeOf_eq_next.2 hcall)

theorem payload_length {p : PeerHandle} {a n : U32} {data : List Byte} {inj : Bool}
    (hwf : (Instr.cWrite p a data n inj).wellFormed = true) : (payload data n).length = n.toNat := by
  simp only [Instr.wellFormed, Bool.or_eq_true, decide_eq_true_eq] at hwf
  unfold payload
  split
  · exact List.length_replicate
  · next hne => exact List.length_take_of_le (hwf.resolve_left hne)

/-! ## The header -/

/-- Four lanes written one by one leave nothing of what was there. -/
theorem setLane_all (v w : U32) :
    setLane (setLane (setLane (setLane v 0 (lane w 0)) 1 (lane w 1)) 2 (lane w 2)) 3 (lane w 3) = w := by
  refine eq_of_lanes fun k hk => ?_
  obtain rfl | rfl | rfl | rfl : k = 0 ∨ k = 1 ∨ k = 2 ∨ k = 3 := by omega
  all_goals simp [lane_setLane_same, lane_setLane_other]

/-- The length field received from `BC = 0` (R74, R75). -/
theorem deliverWrites_lengthField {s : State} (h0 : s.bc = 0) (n : U32) : s.deliverWrites (le32 n) [] = .ok { s with
    bc := 4, len := n, crc := crc8 (le32 n) s.crc,
    st := if s.cfg.backupEn = true ∧ s.cfg.bkSize < n.toNat then 0x02#8 else 0x80#8,
    rdData := none } := by
  simp [le32, deliverWrites_nil, deliverWrites_cons, wrEvent_length_eq, h0, setLane_all, statusAtBranch_start,
    statusAtBranch_open, setFlag, flagCode]

/-- The address field received from `BC = 4` (R76). -/
theorem deliverWrites_addressField {s : State} (h4 : s.bc = 4) (a : U32) : s.deliverWrites (le32 a) [] = .ok { s with
    bc := 8, addr := a, crc := crc8 (le32 a) s.crc,
    st := if s.cfg.memSize ≤ transferEnd a s.len then setFlag s.st .memoryOutOfRange else s.st,
    rdData := none } := by
  simp [le32, deliverWrites_nil, deliverWrites_cons, wrEvent_address_eq, h4, setLane_all]

/-- `ST` after a whole header: its flags, or `Ok` when it sets none. -/
def headerStatus (c : Config) (n a : U32) : Byte :=
  if headerFlags c n a = 0#8 then 0x80#8 else headerFlags c n a

/-- A whole header received from `BC = 0`. -/
theorem deliverWrites_header {s : State} (h0 : s.bc = 0) (n a : U32) :
    s.deliverWrites (headerBytes n a) [] = .ok { s with
      bc := 8, len := n, addr := a, crc := crc8 (headerBytes n a) s.crc, st := headerStatus s.cfg n a,
      rdData := none } := by
  have hst : (if s.cfg.memSize ≤ transferEnd a n then
        setFlag (if s.cfg.backupEn = true ∧ s.cfg.bkSize < n.toNat then 0x02#8 else 0x80#8) .memoryOutOfRange
      else if s.cfg.backupEn = true ∧ s.cfg.bkSize < n.toNat then 0x02#8 else 0x80#8) = headerStatus s.cfg n a := by
    unfold headerStatus headerFlags transferEnd
    split <;> split <;> rfl
  rw [headerBytes, deliverWrites_append, deliverWrites_lengthField h0, ok_bind, deliverWrites_addressField rfl, hst,
    crc8_append]

/-! ## The checksum byte -/

/-- The checksum byte differs from the running checksum exactly when the controller spoils it (R94). -/
theorem frameChecksum_ne_iff (n a : U32) (ds : List Byte) (inj : Bool) :
    frameChecksum n a ds inj ≠ crc8 (checkedBytes n a ds) 0#8 ↔ inj = true := by
  have hgood : crc8 (checkedBytes n a ds) 0#8 = frameChecksum n a ds false := rfl
  rw [hgood, (frameChecksum_injective n a ds).ne_iff, Bool.ne_false_iff]

/-! ## A flagged write -/

/-- The header sets no flag but `MOOR` and `BBO`. -/
theorem headerFlags_mask (c : Config) (n a : U32) : headerFlags c n a &&& 0x03#8 = headerFlags c n a := by
  unfold headerFlags
  split <;> split <;> rfl

/-- Each of `MOOR` and `BBO` is an error flag, and blocks a restore, with `DC` set too. -/
theorem headerFlags_block {c : Config} {n a : U32} (hf : headerFlags c n a ≠ 0#8) (inj : Bool) :
    headerFlags c n a &&& 0x1F#8 ≠ 0#8 ∧
      (headerFlags c n a ||| if inj then 0x10#8 else 0#8) &&& 0x07#8 ≠ 0#8 := by
  have hmask := headerFlags_mask c n a
  generalize headerFlags c n a = f at hf hmask
  revert f inj
  decide

theorem setFlag_headerFlags (c : Config) (n a : U32) :
    setFlag (headerFlags c n a) .dataCorrupted = headerFlags c n a ||| 0x10#8 := by
  rw [setFlag, ← headerFlags_mask, BitVec.and_assoc]
  rfl

/-- Under an error flag data bytes are folded and nothing else (R77). -/
theorem deliverWrites_dropped {s : State} {ds : List Byte} (h8 : 8 ≤ s.bc) (hd : s.bc + ds.length ≤ 8 + s.len.toNat)
    (he : s.st &&& 0x1F#8 ≠ 0#8) (hr : s.rdData = none) :
    s.deliverWrites ds [] = .ok { s with bc := s.bc + ds.length, crc := crc8 ds s.crc, rdData := none } := by
  induction ds generalizing s with
  | nil => rw [← hr]; rfl
  | cons b bs ih =>
    rw [List.length_cons] at hd
    have hev : s.wrEvent b = .ok { s with bc := s.bc + 1, crc := crcStep s.crc b, rdData := none } :=
      wrEvent_of_wrData h8 (by omega) (wrData_dropped (s := s.undriven) b he)
    have hbs := ih (s := { s with bc := s.bc + 1, crc := crcStep s.crc b, rdData := none }) (Nat.le_succ_of_le h8)
      (by rwa [← Nat.add_assoc, Nat.add_right_comm] at hd) he rfl
    rw [deliverWrites_cons, hev, ok_bind, hbs, List.length_cons, crc8_cons, Nat.add_right_comm]
    rfl

/-- The frame of a write that its header flags: the payload is dropped, and a bad checksum adds `DC`. -/
theorem deliverWrites_flaggedFrame {s : State} {n a : U32} {ds : List Byte} (inj : Bool) (h0 : s.bc = 0)
    (hcrc : s.crc = 0#8) (hlen : ds.length = n.toNat) (hf : headerFlags s.cfg n a ≠ 0#8) :
    s.deliverWrites (writeFrame n a ds inj) [] = .ok { s with
      bc := 9 + n.toNat, len := n, addr := a, crc := crc8 (checkedBytes n a ds) 0#8,
      st := headerFlags s.cfg n a ||| if inj then 0x10#8 else 0#8, rdData := none } := by
  have hsum : crc8 ds (crc8 (headerBytes n a) s.crc) = crc8 (checkedBytes n a ds) 0#8 := by
    rw [hcrc, ← crc8_append, checkedBytes]
  have hst : headerStatus s.cfg n a = headerFlags s.cfg n a := if_neg hf
  have hdrop := (headerFlags_block hf inj).1
  rw [writeFrame, checkedBytes, List.append_assoc, deliverWrites_append, deliverWrites_header h0, ok_bind, hst,
    deliverWrites_append, deliverWrites_dropped (Nat.le_refl 8) (by simp [hlen]) hdrop rfl, ok_bind,
    deliverWrites_cons, wrEvent_checksum_eq _ (by simp [hlen]), ok_bind, deliverWrites_nil]
  simp only [hsum, frameChecksum_ne_iff, setFlag_headerFlags, hlen, Nat.add_right_comm 8]
  cases inj <;> simp [checkedBytes]

/-- The final RD_BYTE under a flag that blocks a restore ends the transaction (R87). -/
theorem rdEvent_ends {s : State} (hd : 8 + s.len.toNat < s.bc) (hst : s.st &&& 0x07#8 ≠ 0#8) (hp : s.pend = false) :
    s.rdEvent = .ok (s.emit s.st).clearCounters := by
  have ha : s.armsRestore = false := by
    rw [Bool.eq_false_iff, Ne, armsRestore_iff]
    exact fun h => hst h.2.2
  rw [rdEvent_drain hd, State.rdFinal, ha, if_neg Bool.false_ne_true]
  exact congrArg _ (if_neg (by simp [hp]))

/-- Settles O53: the header's flags make every data byte dropped and no restore armed, and come back. -/
theorem rejectedWriteTouchesNothing : Obligations.RejectedWriteTouchesNothing := by
  intro s p a data n inj h hq hrel hwf hf
  obtain ⟨h0, hp⟩ := hq
  obtain ⟨-, -, hcrc⟩ := h.idle h0 hp
  have hframe := deliverWrites_flaggedFrame (s := s.popCarriage) inj h0 hcrc (payload_length hwf) hf
  refine ⟨_, exec_cWrite_reliable hwf hrel hframe (rdEvent_ends ?final (headerFlags_block hf inj).2 hp),
    rfl, rfl, rfl, rfl, hp⟩
  case final => exact Nat.add_lt_add_right (by decide) _

end Sys2Proof.Machine
end

section
/-! PROOF. The whole next state of an RD_BYTE in each phase (42_read_byte.md R81 to R88): the statements O24 to O30. -/

namespace Sys2Proof.Machine

theorem exec_rdByte_eq_next {s t : State} : exec .rdByte s = .next t ↔ s.rdEvent = .ok t := outcomeOf_eq_next

/-! ## The header and the checksum position -/

/-- Settles O24, from the header branch. -/
theorem readInHeader : Obligations.ReadInHeader := fun _ h => exec_rdByte_eq_next.2 (rdEvent_header h)

/-- Settles O27, from the checksum branch. -/
theorem readChecksumByte : Obligations.ReadChecksumByte := fun _ h => exec_rdByte_eq_next.2 (rdEvent_checksum h)

/-! ## The data phase -/

/-- The data phase once its value is known: the emitted byte is folded (R83). -/
theorem rdEvent_of_rdValue {s t : State} {v : Byte} (h8 : 8 ≤ s.bc) (hd : s.bc < 8 + s.len.toNat)
    (h : s.rdValue = .ok (v, t)) : s.rdEvent = .ok ((t.fold v).emit v).advance := by
  rw [rdEvent_data h8 hd, State.serveData, h]
  rfl

/-- Read-to-clear as one update of `ST` (R84). -/
theorem statusClear_eq (s : State) :
    s.statusClear = { s with st := if s.st &&& 0x1F#8 = 0#8 then 0x80#8 else s.st } := by
  unfold State.statusClear
  by_cases hst : s.st &&& 0x1F#8 = 0#8
  · rw [if_neg fun he => hasError_iff.1 he hst, if_pos hst]
    rfl
  · rw [if_pos (hasError_iff.2 hst), if_neg hst]

/-- A data byte that is the status byte (R83, R84). -/
theorem rdEvent_status {s : State} (h8 : 8 ≤ s.bc) (hd : s.bc < 8 + s.len.toNat)
    (hea : effectiveAddress s.addr s.bc < s.cfg.memSize) (ha : s.addr = 0#32) (hl : s.len = 1#32) :
    s.rdEvent = .ok { s with
      bc := s.bc + 1, crc := crcStep s.crc s.st,
      st := if s.st &&& 0x1F#8 = 0#8 then 0x80#8 else s.st, rdData := some s.st } := by
  rw [rdEvent_of_rdValue h8 hd (rdValue_status hea ha hl), statusClear_eq]
  rfl

/-- Settles O25, one case for each test of the pseudocode. -/
theorem readDataByte : Obligations.ReadDataByte := by
  intro s h8 hd ea serve
  refine exec_rdByte_eq_next.2 ?_
  by_cases hout : s.cfg.memSize ≤ ea
  · rw [if_pos hout]
    exact rdEvent_of_rdValue h8 hd (rdValue_outside hout)
  have hea : ea < s.cfg.memSize := Nat.not_le.1 hout
  rw [if_neg hout]
  by_cases hstatus : s.addr = 0#32 ∧ s.len = 1#32
  · rw [if_pos hstatus]
    exact rdEvent_status h8 hd hea hstatus.1 hstatus.2
  rw [if_neg hstatus]
  by_cases herr : s.st &&& 0x1F#8 = 0#8
  · rw [if_neg (not_not.2 herr)]
    exact rdEvent_of_rdValue h8 hd (rdValue_memory hea hstatus (anyErr_false_iff.2 herr))
  · rw [if_pos herr]
    exact rdEvent_of_rdValue h8 hd (rdValue_error hea hstatus (hasError_iff.2 herr))

/-- Settles O26: the one data byte of a status read, by whether address 0 exists. -/
theorem statusReadServesStatus : Obligations.StatusReadServesStatus := by
  intro s hb ha hl
  have h8 : 8 ≤ s.bc := Nat.le_of_eq hb.symm
  have hd : s.bc < 8 + s.len.toNat := by rw [hb, hl]; decide
  have hea : effectiveAddress s.addr s.bc = 0 := by rw [ha, hb]; rfl
  have hbc : 9 = s.bc + 1 := by rw [hb]
  rw [hbc]
  refine ⟨fun hm => exec_rdByte_eq_next.2 ?memory, fun hm => exec_rdByte_eq_next.2 ?noMemory⟩
  case memory => exact rdEvent_status h8 hd (hea ▸ hm) ha hl
  case noMemory => exact rdEvent_of_rdValue h8 hd (rdValue_outside (by omega))

/-! ## The final byte -/

/-- The final RD_BYTE with the arming condition met (R87). -/
theorem rdEvent_arms {s : State} (hd : 8 + s.len.toNat < s.bc) (ha : s.armsRestore = true) :
    s.rdEvent = .ok { s with pend := true, st := 0x20#8, rdData := some 0x20#8, bc := s.bc + 1 } := by
  rw [rdEvent_drain hd, State.rdFinal, ha]
  rfl

/-- The final RD_BYTE that arms nothing serves `ST`, and ends the transaction or leaves its reset to PROCESS (R87). -/
theorem rdEvent_serves {s : State} (hd : 8 + s.len.toNat < s.bc) (ha : s.armsRestore = false) :
    s.rdEvent = .ok (s.emit s.st).endTransaction := by
  rw [rdEvent_drain hd, State.rdFinal, ha]
  rfl

theorem endTransaction_idle {s : State} (hp : s.pend = false) : s.endTransaction = s.clearCounters :=
  if_neg (by simp [hp])

theorem endTransaction_pending {s : State} (hp : s.pend = true) : s.endTransaction = s.advance := if_pos hp

/-- Settles O28, by the arming condition and by what is pending. -/
theorem readFinalByte : Obligations.ReadFinalByte := by
  intro s hd arms
  have hserve (ha : ¬ arms) : s.rdEvent = .ok (s.emit s.st).endTransaction :=
    rdEvent_serves hd (Bool.eq_false_iff.2 fun h => ha (armsRestore_iff.1 h))
  refine ⟨fun ha => exec_rdByte_eq_next.2 ?arms, fun ha hp => exec_rdByte_eq_next.2 ?ends,
    fun ha hp => exec_rdByte_eq_next.2 ?waits⟩
  case arms => exact rdEvent_arms hd (armsRestore_iff.2 ha)
  case ends => exact (hserve ha).trans (congrArg _ (endTransaction_idle hp))
  case waits => exact (hserve ha).trans (congrArg _ (endTransaction_pending hp))

/-! ## What an RD_BYTE can do -/

/-- An RD_BYTE completes, and this is all it can do to the state: before the final position the counters only advance,
and the checksum byte leaves `CRC` and `ST` alone (R81, R86, R88). -/
theorem rdEvent_eq (s : State) : ∃ bc len addr crc st pend v, s.rdEvent = .ok { s with
      bc := bc, len := len, addr := addr, crc := crc, st := st, pend := pend, rdData := some v } ∧
    (s.bc ≤ 8 + s.len.toNat → bc = s.bc + 1 ∧ len = s.len ∧ addr = s.addr ∧ pend = s.pend) ∧
    (8 + s.len.toNat = s.bc → crc = s.crc ∧ st = s.st) := by
  by_cases h8 : s.bc < 8
  · exact ⟨_, _, _, _, _, _, _, rdEvent_header h8, fun _ => ⟨rfl, rfl, rfl, rfl⟩, by omega⟩
  by_cases hd : s.bc < 8 + s.len.toNat
  · obtain ⟨v, t, hv, ht⟩ := rdValue_cases s
    have hev := rdEvent_of_rdValue (by omega) hd hv
    rcases ht with rfl | rfl | ⟨-, rfl⟩ <;>
      exact ⟨_, _, _, _, _, _, _, hev, fun _ => ⟨rfl, rfl, rfl, rfl⟩, by omega⟩
  by_cases hc : s.bc = 8 + s.len.toNat
  · exact ⟨_, _, _, _, _, _, _, rdEvent_checksum hc, fun _ => ⟨rfl, rfl, rfl, rfl⟩, fun _ => ⟨rfl, rfl⟩⟩
  have hfin : 8 + s.len.toNat < s.bc := by omega
  cases ha : s.armsRestore with
  | true => exact ⟨_, _, _, _, _, _, _, rdEvent_arms hfin ha, by omega, by omega⟩
  | false =>
    have hev := rdEvent_serves hfin ha
    cases hp : s.pend with
    | false => exact ⟨_, _, _, _, _, _, _, hev.trans (congrArg _ (endTransaction_idle hp)), by omega, by omega⟩
    | true => exact ⟨_, _, _, _, _, _, _, hev.trans (congrArg _ (endTransaction_pending hp)), by omega, by omega⟩

/-- Settles O29, from what an RD_BYTE can do. -/
theorem readAdvancesBeforeFinal : Obligations.ReadAdvancesBeforeFinal := by
  intro s hb
  obtain ⟨bc, len, addr, crc, st, pend, v, hev, hadvance, -⟩ := rdEvent_eq s
  exact ⟨_, exec_rdByte_eq_next.2 hev, (hadvance hb).1⟩

/-- Settles O30, from what an RD_BYTE can do. -/
theorem readByteFrame : Obligations.ReadByteFrame := by
  intro s
  obtain ⟨bc, len, addr, crc, st, pend, v, hev, hadvance, hcheck⟩ := rdEvent_eq s
  exact ⟨_, v, exec_rdByte_eq_next.2 hev, rfl, rfl, rfl, (rdEvent_outside hev).1, fun hb => (hadvance hb).2, hcheck⟩

end Sys2Proof.Machine
end

section
/-! PROOF. A write that its header does not flag: its payload stored and saved byte by byte (41_write_byte.md R77), and,
after a bad checksum, the deferred restore (42_read_byte.md R87, 43_process_init.md R90): the statement O54. -/

namespace Sys2Proof.Machine

/-! ## The payload of an unflagged write -/

theorem dataOffset_succ {bc : Nat} (h8 : 8 ≤ bc) : dataOffset (bc + 1) = dataOffset bc + 1 := Nat.sub_add_comm h8

theorem effectiveAddress_succ {addr : U32} {bc : Nat} (h8 : 8 ≤ bc) :
    effectiveAddress addr (bc + 1) = effectiveAddress addr bc + 1 :=
  congrArg (addr.toNat + ·) (dataOffset_succ h8)

/-- `mem` and `bk` are the two spaces of `s` after the bytes `ds` were applied to memory from the address `base` on, with
the old bytes saved from the offset `off` on when backups are enabled (R77). -/
structure State.StoredAll (s : State) (base off : Nat) (ds : List Byte) (mem bk : Memory) : Prop where
  stored : ∀ i, i < ds.length → Memory.read mem (base + i) = ds.getD i 0#8
  kept : ∀ x, ¬ (base ≤ x ∧ x < base + ds.length) → Memory.read mem x = Memory.read s.mem x
  saved : s.cfg.backupEn = true →
    ∀ i, i < ds.length → Memory.read bk (off + i) = Memory.read s.mem (base + i)
  bkKept : ∀ o, ¬ (off ≤ o ∧ o < off + ds.length) → Memory.read bk o = Memory.read s.bk o
  unsaved : s.cfg.backupEn = false → bk = s.bk

theorem State.StoredAll.nil (s : State) (base off : Nat) : s.StoredAll base off [] s.mem s.bk where
  stored := by simp
  kept _ _ := rfl
  saved := by simp
  bkKept _ _ := rfl
  unsaved _ := rfl

/-- The first byte applied, then the rest from one address and one offset further on. -/
theorem State.StoredAll.cons {s t : State} {b : Byte} {bs : List Byte} {mem bk : Memory}
    (ht : t.StoredAll (effectiveAddress s.addr s.bc + 1) (dataOffset s.bc + 1) bs mem bk) (h : s.Inv)
    (hs : s.Stored b t.mem t.bk) (hcfg : t.cfg = s.cfg) :
    s.StoredAll (effectiveAddress s.addr s.bc) (dataOffset s.bc) (b :: bs) mem bk where
  stored i hi := by
    cases i with
    | zero => rw [ht.kept _ (by omega), hs.stored, Nat.add_zero, Memory.read_write_same h.memCanonical]; rfl
    | succ i => rw [← Nat.succ_add_eq_add_succ, ht.stored i (by simpa using hi)]; rfl
  kept x hx := by
    rw [List.length_cons] at hx
    rw [ht.kept x (by omega), hs.read_mem_other h.memCanonical (by omega)]
  saved hen i hi := by
    cases i with
    | zero => rw [ht.bkKept _ (by omega), hs.saved hen, Nat.add_zero, Memory.read_write_same h.bkCanonical]; rfl
    | succ i =>
      rw [← Nat.succ_add_eq_add_succ, ht.saved (hcfg ▸ hen) i (by simpa using hi),
        hs.read_mem_other h.memCanonical (by omega), Nat.succ_add_eq_add_succ]
  bkKept o ho := by
    rw [List.length_cons] at ho
    rw [ht.bkKept o (by omega), hs.read_bk_other h.bkCanonical (by omega)]
  unsaved hen := (ht.unsaved (hcfg ▸ hen)).trans (hs.unsaved hen)

/-- From the invariant an unflagged data byte is folded and applied, and `ST` stays (R77). -/
theorem wrEvent_applied {s : State} (h : s.Inv) (b : Byte) (h8 : 8 ≤ s.bc) (hd : s.bc < 8 + s.len.toNat)
    (hst : s.st &&& 0x1F#8 = 0#8) : ∃ mem bk, s.Stored b mem bk ∧ s.wrEvent b = .ok { s with
      bc := s.bc + 1, crc := crcStep s.crc b, mem := mem, bk := bk, rdData := none } := by
  obtain ⟨ha, ho⟩ := h.dataInside h8 hd (anyErr_false_iff.2 hst)
  cases hen : s.cfg.backupEn with
  | false =>
    exact ⟨_, _, ⟨hst, rfl, by simp [hen], fun _ => rfl⟩,
      wrEvent_of_wrData h8 hd (wrData_plain (s := s.undriven) b hst ha hen)⟩
  | true =>
    exact ⟨_, _, ⟨hst, rfl, fun _ => rfl, by simp [hen]⟩,
      wrEvent_of_wrData h8 hd (wrData_saved (s := s.undriven) b hst ha hen (ho hen))⟩

/-- Data bytes from the invariant with no flag set: each one is folded and applied, and nothing is flagged. -/
theorem deliverWrites_applied {s : State} {ds : List Byte} (h : s.Inv) (h8 : 8 ≤ s.bc)
    (hd : s.bc + ds.length ≤ 8 + s.len.toNat) (hst : s.st &&& 0x1F#8 = 0#8) (hr : s.rdData = none) :
    ∃ mem bk, s.StoredAll (effectiveAddress s.addr s.bc) (dataOffset s.bc) ds mem bk ∧
      s.deliverWrites ds [] = .ok { s with
        bc := s.bc + ds.length, crc := crc8 ds s.crc, mem := mem, bk := bk, rdData := none } := by
  induction ds generalizing s with
  | nil => exact ⟨_, _, .nil .., by rw [← hr]; rfl⟩
  | cons b bs ih =>
    rw [List.length_cons] at hd
    obtain ⟨m, k, hs, hev⟩ := wrEvent_applied h b h8 (by omega) hst
    obtain ⟨t, ht, hti⟩ := inv_wrEvent h b
    cases ht.symm.trans hev
    obtain ⟨mem, bk, hall, hbs⟩ := ih hti (Nat.le_succ_of_le h8)
      (by rwa [← Nat.add_assoc, Nat.add_right_comm] at hd) hst rfl
    rw [effectiveAddress_succ (addr := s.addr) h8, dataOffset_succ h8] at hall
    refine ⟨mem, bk, hall.cons h hs rfl, ?_⟩
    rw [deliverWrites_cons, hev, ok_bind, hbs, List.length_cons, crc8_cons, Nat.add_right_comm]
    rfl

theorem deliverWrites_inv {bs : List Byte} {s t : State} (h : s.Inv) (ht : s.deliverWrites bs [] = .ok t) : t.Inv :=
  ((keeps_deliverWrites (c := Carriage.plain) bs h rfl (List.Subset.refl _) fun hne => absurd rfl hne).inv ht).1

/-- The frame of a write that its header does not flag: the payload is applied, and a bad checksum sets `DC`. -/
theorem deliverWrites_unflaggedFrame {s : State} {n a : U32} {ds : List Byte} (inj : Bool) (h : s.Inv)
    (hq : s.quiescent) (hlen : ds.length = n.toNat) (hf : headerFlags s.cfg n a = 0#8) :
    ∃ mem bk, s.StoredAll a.toNat 0 ds mem bk ∧
      s.deliverWrites (writeFrame n a ds inj) [] = .ok { s with
        bc := 9 + n.toNat, len := n, addr := a, crc := crc8 (checkedBytes n a ds) 0#8,
        st := if inj then 0x10#8 else 0x80#8, mem := mem, bk := bk, rdData := none } := by
  obtain ⟨-, -, hcrc⟩ := h.idle hq.1 hq.2
  have hsum : crc8 ds (crc8 (headerBytes n a) s.crc) = crc8 (checkedBytes n a ds) 0#8 := by
    rw [hcrc, ← crc8_append, checkedBytes]
  have hst : headerStatus s.cfg n a = 0x80#8 := if_pos hf
  have hhead := deliverWrites_header hq.1 n a
  rw [hst] at hhead
  obtain ⟨mem, bk, hall, hdata⟩ := deliverWrites_applied (ds := ds) (deliverWrites_inv h hhead) (Nat.le_refl 8)
    (by simp [hlen]) (by decide : 0x80#8 &&& 0x1F#8 = 0#8) rfl
  refine ⟨mem, bk, ⟨hall.stored, hall.kept, hall.saved, hall.bkKept, hall.unsaved⟩, ?_⟩
  rw [writeFrame, checkedBytes, List.append_assoc, deliverWrites_append, hhead, ok_bind, deliverWrites_append, hdata,
    ok_bind, deliverWrites_cons, wrEvent_checksum_eq _ (by simp [hlen]), ok_bind, deliverWrites_nil]
  simp only [hsum, frameChecksum_ne_iff, hlen, Nat.add_right_comm 8]
  cases inj <;> rfl

/-! ## The restore -/

/-- Copying back what was saved gives the memory as it was before the payload. -/
theorem State.StoredAll.restored {s : State} {base : Nat} {ds : List Byte} {mem bk : Memory}
    (h : s.StoredAll base 0 ds mem bk) (hen : s.cfg.backupEn = true) (hs : Memory.wf s.mem = true)
    (hm : Memory.wf mem = true) : copied bk base ds.length 0 mem = s.mem := by
  refine Memory.ext_read (copied_wf hm) hs fun x => ?_
  rw [read_copied hm, Nat.add_zero]
  split
  case isTrue hx =>
    have := h.saved hen (x - base) (by omega)
    rwa [Nat.zero_add, Nat.add_sub_cancel' hx.1] at this
  case isFalse hx => exact h.kept x hx

/-- Settles O54: the corrupted frame stores and saves the payload, the final RD_BYTE arms, and PROCESS copies back. -/
theorem corruptedWriteIsRestored : Obligations.CorruptedWriteIsRestored := by
  intro s p a data n h hq hrel hwf hen hf
  have hlen := payload_length hwf
  obtain ⟨mem, bk, hall, hframe⟩ :=
    deliverWrites_unflaggedFrame (s := s.popCarriage) true (popCarriage_inv h) hq hlen hf
  have hcall := exec_cWrite_reliable hwf hrel hframe
    (rdEvent_arms (Nat.add_lt_add_right (by decide) _) (armsRestore_iff.2
      ⟨(by decide : 0x10#8 &&& 0x10#8 ≠ 0#8), hen, (by decide : 0x10#8 &&& 0x07#8 = 0#8)⟩))
  have hinv := inv_exec h hcall
  refine ⟨_, _, hcall, rfl, rfl, outcomeOf_eq_next.2 (processEvent_pending hinv rfl), ?restored, rfl, rfl, rfl⟩
  case restored => exact hlen ▸ hall.restored hen h.memCanonical hinv.memCanonical

end Sys2Proof.Machine
end

section
/-! PROOF. PROCESS and INIT, and what queues a restore (43_process_init.md R89 to R91): the statements O31, O32 and
O43. -/

namespace Sys2Proof.Machine

/-! ## PROCESS and INIT -/

theorem exec_process_eq_next {s t : State} : exec .process s = .next t ↔ s.processEvent = .ok t := outcomeOf_eq_next

/-- Settles O31: the copy's result byte by byte, then the deferred reset; nothing pending is nothing done. -/
theorem processPerformsRestore : Obligations.ProcessPerformsRestore := by
  refine ⟨fun s h hp => ?pending, fun s hp => exec_process_eq_next.2 (processEvent_idle hp)⟩
  have hev := processEvent_pending h hp
  refine ⟨_, exec_process_eq_next.2 hev, fun i hi => ?copied, fun a ha => ?kept,
    rfl, rfl, rfl, rfl, rfl, rfl, rfl, rfl, processEvent_outside hev⟩
  case copied =>
    rw [State.finishRestore_mem, read_copied h.memCanonical, if_pos (by omega), Nat.add_sub_cancel_left]
  case kept => rw [State.finishRestore_mem, read_copied h.memCanonical, Nat.add_zero, if_neg ha]

/-- Settles O32, from the register values of R35 that INIT writes. -/
theorem initResetsTheRegisters : Obligations.InitResetsTheRegisters := fun _ => rfl

/-! ## What queues a restore and what takes it out -/

theorem wrEvent_pend {s t : State} {b : Byte} (h : s.wrEvent b = .ok t) : t.pend = s.pend := by
  obtain ⟨_, _, _, _, _, _, rfl, -⟩ := wrEvent_eq_ok h
  rfl

theorem endTransaction_pend (s : State) : s.endTransaction.pend = s.pend := by
  cases hp : s.pend with
  | true => rw [endTransaction_pending hp, State.advance_pend, hp]
  | false => rw [endTransaction_idle hp, State.clearCounters_pend, hp]

/-- An RD_BYTE leaves `PEND` alone, unless it is a final one that arms (R87). -/
theorem rdEvent_pend_or_arms {s t : State} (h : s.rdEvent = .ok t) :
    t.pend = s.pend ∨ (8 + s.len.toNat < s.bc ∧ s.armsRestore = true ∧
      t = { s with pend := true, st := 0x20#8, rdData := some 0x20#8, bc := s.bc + 1 }) := by
  rcases Nat.lt_or_ge (8 + s.len.toNat) s.bc with hfin | hb
  case inr =>
    obtain ⟨bc, len, addr, crc, st, pend, v, hev, hadvance, -⟩ := rdEvent_eq s
    cases hev.symm.trans h
    obtain ⟨-, -, -, hpend⟩ := hadvance hb
    exact .inl hpend
  cases ha : s.armsRestore with
  | true =>
    cases (rdEvent_arms hfin ha).symm.trans h
    exact .inr ⟨hfin, rfl, rfl⟩
  | false =>
    cases (rdEvent_serves hfin ha).symm.trans h
    exact .inl (endTransaction_pend _)

/-- Settles O43: only an event that changes `PEND` matters, so no WR_BYTE, an RD_BYTE only if it arms, and a PROCESS only
with a restore pending. -/
theorem restoreQueuedOnlyByFinalRead : Obligations.RestoreQueuedOnlyByFinalRead := by
  intro s t i hi h
  by_cases hkeep : t.pend = s.pend
  · exact ⟨fun h0 h1 => by simp [hkeep, h0] at h1, fun h1 h0 => by simp [hkeep, h1] at h0⟩
  cases i with
  | wrByte b => exact absurd (wrEvent_pend (exec_wrByte_eq_next.1 h)) hkeep
  | rdByte =>
    obtain ⟨hfin, harms, rfl⟩ := (rdEvent_pend_or_arms (exec_rdByte_eq_next.1 h)).resolve_left hkeep
    obtain ⟨hdc, hen, hnone⟩ := armsRestore_iff.1 harms
    exact ⟨fun _ _ => ⟨rfl, hfin, hdc, hen, hnone, rfl, rfl, rfl⟩, fun _ h0 => by cases h0⟩
  | process =>
    refine ⟨fun h0 _ => absurd ?_ hkeep, fun _ _ => .inl rfl⟩
    cases (processEvent_idle h0).symm.trans (exec_process_eq_next.1 h)
    exact s.undriven_pend
  | init =>
    cases h
    exact ⟨fun _ h1 => (by cases h1), fun _ _ => .inr rfl⟩
  | crc8Step | crc8 | cWrite | cRead | cReadStatus => cases hi

end Sys2Proof.Machine
end

section
/-! PROOF. The controller's calls as a whole (44_controller_peer.md R94 to R96): which complete, the statement O41, and
which are refused, O60. -/

namespace Sys2Proof.Machine

/-- Settles O41: each call keeps the invariant, and only a host step outside the buffers could stop it. -/
theorem controllerCallsComplete : Obligations.ControllerCallsComplete := by
  intro s i h hT hi hwf
  have hself := List.Subset.refl s.transport
  cases i with
  | wrByte | rdByte | process | init => cases hi
  | crc8Step c b => exact ⟨_, rfl, inv_exec (i := .crc8Step c b) h rfl⟩
  | crc8 buf start => exact ⟨_, rfl, inv_exec (i := .crc8 buf start) h rfl⟩
  | cWrite p a data n inj =>
    obtain ⟨t, ht, hinv⟩ := (keeps_controllerWrite p a data n inj h rfl hself).completes hT
    exact ⟨t, (if_pos hwf).trans (outcomeOf_eq_next.2 ht), hinv⟩
  | cRead p a buf n =>
    obtain ⟨t, ht, hinv⟩ := (keeps_controllerRead p a buf n h rfl hself).completes hT
    exact ⟨t, (if_pos (of_decide_eq_true hwf)).trans (outcomeOf_eq_next.2 ht), hinv⟩
  | cReadStatus p =>
    obtain ⟨t, ht, hinv⟩ := (keeps_controllerRead p 0#32 [0#8] 1#32 h rfl hself).completes hT
    exact ⟨_, outcomeOf_eq_next.2 (bind_eq_ok.2 ⟨t, ht, rfl⟩), ctlBuf_inv hinv _⟩

/-- Settles O60: each call tests its own operands first. -/
theorem illFormedCallsAreRefused : Obligations.IllFormedCallsAreRefused := by
  refine ⟨fun s p a data n inj hne hshort => if_neg ?_, fun s p a buf n hshort => if_neg (Nat.not_le.2 hshort)⟩
  simp [hne, hshort]

end Sys2Proof.Machine
end

section
/-! PROOF. What the block does with its events does not depend on the inputs and the transport to come, so the run over
a call's words and the call's own primitives end alike (30_encoding.md R67, 44_controller_peer.md R93): the statements
O51 and O59. -/

namespace Sys2Proof.Machine

/-! ## The inputs and the transport to come -/

/-- `s` with `l` delivered next and `T` for the coming transport primitives. -/
def State.facing (l : List Input) (T : List Carriage) (s : State) : State := { s with inputs := l, transport := T }

/-- `f` neither reads nor changes what is to come: with other inputs and another transport to come it ends alike. -/
def IgnoresComing (f : State → Except Fault State) : Prop :=
  ∀ l T s, f (s.facing l T) = (f s).map (State.facing l T)

theorem IgnoresComing.bind {f g : State → Except Fault State} (hf : IgnoresComing f) (hg : IgnoresComing g) :
    IgnoresComing fun s => f s >>= g := by
  intro l T s
  simp only [hf l T s]
  cases f s with
  | ok t => exact hg l T t
  | error e => rfl

theorem IgnoresComing.ok {f : State → Except Fault State} (hf : IgnoresComing f) {s t : State} (h : f s = .ok t)
    (l : List Input) (T : List Carriage) : f (s.facing l T) = .ok (t.facing l T) := by
  rw [hf, h]
  rfl

/-- What ignores what is to come leaves it as it is. -/
theorem IgnoresComing.eq_facing {f : State → Except Fault State} (hf : IgnoresComing f) {s t : State}
    (h : f s = .ok t) : t.facing s.inputs s.transport = t :=
  Except.ok.inj ((hf.ok h s.inputs s.transport).symm.trans h)

theorem map_facing_eq_ok {r : Except Fault State} {l : List Input} {T : List Carriage} {u : State} :
    r.map (State.facing l T) = .ok u ↔ ∃ t, r = .ok t ∧ t.facing l T = u := by
  cases r <;> simp [Except.map]

theorem memWrite_ignoresComing (a : Nat) (v : Byte) : IgnoresComing (State.memWrite a v) := by
  intro l T s
  unfold State.memWrite
  rw [apply_ite (Except.map _)]
  rfl

theorem bkWrite_ignoresComing (o : Nat) (v : Byte) : IgnoresComing (State.bkWrite o v) := by
  intro l T s
  unfold State.bkWrite
  rw [apply_ite (Except.map _)]
  rfl

theorem applyData_ignoresComing (b : Byte) (off ea : Nat) : IgnoresComing (State.applyData b off ea) := by
  intro l T s
  have hsaved : s.memRead ea = (s.facing l T).memRead ea := rfl
  unfold State.applyData
  rw [apply_ite (Except.map _), memWrite_ignoresComing, ← hsaved]
  cases s.memRead ea with
  | error f => rfl
  | ok old =>
    simp only [ok_bind]
    rw [← ((bkWrite_ignoresComing off old).bind (memWrite_ignoresComing ea b)) l T s]
    rfl

theorem wrData_ignoresComing (b : Byte) : IgnoresComing (State.wrData b) := by
  intro l T s
  unfold State.wrData
  simp only [apply_ite (Except.map _), ← applyData_ignoresComing b _ _ l T (s.fold b)]
  rfl

/-- WR_BYTE, phase by phase (R73 to R80). -/
theorem wrEvent_ignoresComing (b : Byte) : IgnoresComing (State.wrEvent b) := by
  intro l T s
  by_cases h4 : s.bc < 4
  · rw [wrEvent_length_eq b h4, wrEvent_length_eq (s := s.facing l T) b h4]
    rfl
  by_cases h8 : s.bc < 8
  · rw [wrEvent_address_eq b (by omega) h8, wrEvent_address_eq (s := s.facing l T) b (Nat.not_lt.1 h4) h8]
    rfl
  by_cases hd : s.bc < 8 + s.len.toNat
  · rw [wrEvent_data b (by omega) hd, wrEvent_data (s := s.facing l T) b (Nat.not_lt.1 h8) hd]
    exact ((wrData_ignoresComing b).bind (g := fun t => .ok t.advance) fun _ _ _ => rfl) l T s.undriven
  by_cases hc : s.bc = 8 + s.len.toNat
  · rw [wrEvent_checksum_eq b hc, wrEvent_checksum_eq (s := s.facing l T) b hc]
    rfl
  · have hfin : 8 + s.len.toNat < s.bc := by omega
    rw [wrEvent_drain b hfin, wrEvent_drain (s := s.facing l T) b hfin]
    rfl

/-- The value a data byte serves, by the tests of R83. -/
theorem rdValue_facing (l : List Input) (T : List Carriage) (s : State) :
    (s.facing l T).rdValue = s.rdValue.map fun r => (r.1, r.2.facing l T) := by
  by_cases hout : s.cfg.memSize ≤ effectiveAddress s.addr s.bc
  · rw [rdValue_outside hout, rdValue_outside (s := s.facing l T) hout]
    rfl
  have hin := Nat.not_le.1 hout
  by_cases hst : s.addr = 0#32 ∧ s.len = 1#32
  · rw [rdValue_status hin hst.1 hst.2, rdValue_status (s := s.facing l T) hin hst.1 hst.2, statusClear_eq,
      statusClear_eq]
    rfl
  cases herr : s.hasError with
  | true =>
    rw [rdValue_error hin hst herr, rdValue_error (s := s.facing l T) hin hst herr]
    rfl
  | false =>
    rw [rdValue_memory hin hst herr, rdValue_memory (s := s.facing l T) hin hst herr]
    rfl

/-- RD_BYTE, phase by phase (R81 to R88). -/
theorem rdEvent_ignoresComing : IgnoresComing State.rdEvent := by
  intro l T s
  by_cases h8 : s.bc < 8
  · rw [rdEvent_header h8, rdEvent_header (s := s.facing l T) h8]
    rfl
  by_cases hd : s.bc < 8 + s.len.toNat
  · obtain ⟨v, t, hv, -⟩ := rdValue_cases s
    have hv' : (s.facing l T).rdValue = .ok (v, t.facing l T) := by rw [rdValue_facing, hv]; rfl
    rw [rdEvent_of_rdValue (by omega) hd hv, rdEvent_of_rdValue (s := s.facing l T) (Nat.not_lt.1 h8) hd hv']
    rfl
  by_cases hc : s.bc = 8 + s.len.toNat
  · rw [rdEvent_checksum hc, rdEvent_checksum (s := s.facing l T) hc]
    rfl
  have hfin : 8 + s.len.toNat < s.bc := by omega
  cases ha : s.armsRestore with
  | true =>
    rw [rdEvent_arms hfin ha, rdEvent_arms (s := s.facing l T) hfin ha]
    rfl
  | false =>
    rw [rdEvent_serves hfin ha, rdEvent_serves (s := s.facing l T) hfin ha]
    unfold State.endTransaction
    simp only [Except.map, apply_ite (State.facing l T)]
    rfl

/-! ## The events of a primitive -/

theorem deliverReads_succ (m : Nat) (s : State) : s.deliverReads (m + 1) [] =
    s.rdEvent >>= fun t => t.deliverReads m [] >>= fun r => .ok (t.rdData.getD 0#8 :: r.1, r.2) := rfl

theorem deliverReads_one {s t : State} {vs : List Byte} :
    s.deliverReads 1 [] = .ok (vs, t) ↔ s.rdEvent = .ok t ∧ vs = [t.rdData.getD 0#8] := by
  rw [deliverReads_succ]
  constructor
  · intro h
    obtain ⟨u, hu, h⟩ := bind_eq_ok.1 h
    cases h
    exact ⟨hu, rfl⟩
  · rintro ⟨h, rfl⟩
    rw [h]
    rfl

/-- `m + k` RD_BYTE events are `m` of them and then `k`. -/
theorem deliverReads_add {s u : State} {m k : Nat} {vs : List Byte} (h : s.deliverReads (m + k) [] = .ok (vs, u)) :
    ∃ xs t ys, s.deliverReads m [] = .ok (xs, t) ∧ t.deliverReads k [] = .ok (ys, u) ∧ vs = xs ++ ys := by
  induction m generalizing s vs with
  | zero =>
    rw [Nat.zero_add] at h
    exact ⟨[], s, vs, rfl, h, rfl⟩
  | succ m ih =>
    rw [Nat.succ_add, deliverReads_succ] at h
    obtain ⟨t, ht, h⟩ := bind_eq_ok.1 h
    obtain ⟨⟨zs, w⟩, hz, h⟩ := bind_eq_ok.1 h
    cases h
    obtain ⟨xs, x, ys, hx, hy, rfl⟩ := ih hz
    exact ⟨_, x, ys, by rw [deliverReads_succ, ht, ok_bind, hx, ok_bind], hy, rfl⟩

theorem deliverWrites_ignoresComing (bs : List Byte) : IgnoresComing fun s => s.deliverWrites bs [] := by
  induction bs with
  | nil => exact fun _ _ _ => rfl
  | cons b bs ih => exact (wrEvent_ignoresComing b).bind ih

theorem deliverReads_facing {s t : State} {m : Nat} {vs : List Byte} (h : s.deliverReads m [] = .ok (vs, t))
    (l : List Input) (T : List Carriage) : (s.facing l T).deliverReads m [] = .ok (vs, t.facing l T) := by
  induction m generalizing s vs with
  | zero => cases h; rfl
  | succ m ih =>
    rw [deliverReads_succ] at h
    obtain ⟨u, hu, h⟩ := bind_eq_ok.1 h
    obtain ⟨⟨ws, v⟩, hr, h⟩ := bind_eq_ok.1 h
    cases h
    rw [deliverReads_succ, rdEvent_ignoresComing.ok hu, ok_bind, ih hr]
    rfl

/-! ## The run over words -/

theorem run_succ_eq_next {k : Nat} {s t : State} : Host.Core.run Sys2Proof.core (k + 1) s = .next t ↔
    ∃ u, step s = .next u ∧ Host.Core.run Sys2Proof.core k u = .next t := by
  change _ ↔ ∃ u, Sys2Proof.core.step s = .next u ∧ _
  cases hstep : Sys2Proof.core.step s <;> simp [Host.Core.run, hstep]

/-- A run over words whose first is an event's: the event, and the run over the rest (log 3). -/
theorem runWords_cons_eq_next {i : Instr} {w : EvWord} {f : State → Except Fault State} (hw : eventWord i = some w)
    (hexec : exec i = fun s => outcomeOf (f s)) (hf : IgnoresComing f) {ws : List EvWord} {s t : State} :
    runWords (w :: ws) s = .next t ↔ ∃ u, f s = .ok u ∧ runWords ws u = .next t := by
  have hstep : step (s.facing (.word w :: ws.map .word) s.transport) =
      outcomeOf ((f s).map (State.facing (ws.map .word) s.transport)) := by
    rw [step_of_word (rest := ws.map .word) rfl (decode_of_eventWord hw), hexec, ← hf]
    rfl
  have hrest {u : State} (hu : f s = .ok u) :
      { u with inputs := ws.map .word } = u.facing (ws.map .word) s.transport := by
    rw [← hf.eq_facing hu]
    rfl
  refine run_succ_eq_next.trans ⟨?run, ?event⟩
  case run =>
    rintro ⟨v, hv, hrun⟩
    obtain ⟨u, hu, rfl⟩ := map_facing_eq_ok.1 (outcomeOf_eq_next.1 (hstep.symm.trans hv))
    exact ⟨u, hu, by rw [runWords, hrest hu]; exact hrun⟩
  case event =>
    rintro ⟨u, hu, hrun⟩
    rw [runWords, hrest hu] at hrun
    exact ⟨_, hstep.trans (outcomeOf_eq_next.2 (map_facing_eq_ok.2 ⟨u, hu, rfl⟩)), hrun⟩

theorem runWords_wrWord_eq_next {b : Byte} {ws : List EvWord} {s t : State} :
    runWords (wrWord b :: ws) s = .next t ↔ ∃ u, s.wrEvent b = .ok u ∧ runWords ws u = .next t :=
  runWords_cons_eq_next (i := .wrByte b) rfl rfl (wrEvent_ignoresComing b)

theorem runWords_rdWord_eq_next {ws : List EvWord} {s t : State} :
    runWords (rdWord :: ws) s = .next t ↔ ∃ u, s.rdEvent = .ok u ∧ runWords ws u = .next t :=
  runWords_cons_eq_next (i := .rdByte) rfl rfl rdEvent_ignoresComing

theorem runWords_reads_eq_next {m : Nat} {s t : State} : runWords (List.replicate m rdWord) s = .next t ↔
    ∃ vs u, s.deliverReads m [] = .ok (vs, u) ∧ t = { u with inputs := [] } := by
  induction m generalizing s with
  | zero =>
    exact ⟨fun h => by cases h; exact ⟨[], s, rfl, rfl⟩, fun ⟨_, _, h, ht⟩ => by cases h; rw [ht]; rfl⟩
  | succ m ih =>
    simp only [List.replicate_succ, runWords_rdWord_eq_next, deliverReads_succ, ih, bind_eq_ok]
    constructor
    · rintro ⟨u, hu, vs, v, hr, rfl⟩
      exact ⟨_, v, ⟨u, hu, _, hr, rfl⟩, rfl⟩
    · rintro ⟨_, _, ⟨u, hu, ⟨vs, v⟩, hr, h⟩, rfl⟩
      cases h
      exact ⟨u, hu, vs, v, hr, rfl⟩

/-- The run over the words of writes and then reads is the events themselves, with nothing delivered after them. -/
theorem runWords_eq_next {bs : List Byte} {m : Nat} {s t : State} :
    runWords (bs.map wrWord ++ List.replicate m rdWord) s = .next t ↔ ∃ u vs v,
      s.deliverWrites bs [] = .ok u ∧ u.deliverReads m [] = .ok (vs, v) ∧ t = { v with inputs := [] } := by
  induction bs generalizing s with
  | nil => simp [runWords_reads_eq_next, deliverWrites_nil]
  | cons b bs ih =>
    simp only [List.map_cons, List.cons_append, runWords_wrWord_eq_next, ih, deliverWrites_cons, bind_eq_ok]
    constructor
    · rintro ⟨u, hu, w, vs, v, hw, h⟩
      exact ⟨w, vs, v, ⟨u, hu, hw⟩, h⟩
    · rintro ⟨w, vs, v, ⟨u, hu, hw⟩, h⟩
      exact ⟨u, hu, w, vs, v, hw, h⟩

theorem runWords_writes_eq_next {bs : List Byte} {s t : State} : runWords (bs.map wrWord) s = .next t ↔
    ∃ u, s.deliverWrites bs [] = .ok u ∧ t = { u with inputs := [] } := by
  have h := runWords_eq_next (bs := bs) (m := 0) (s := s) (t := t)
  simpa [State.deliverReads] using h

/-! ## The primitives -/

/-- A failed primitive that delivered at most `k` events, with no host step among them. -/
def Carriage.failing (k : Nat) (lv : List Byte) : Carriage := { failAfter := some k, leaves := lv, between := [] }

section
variable {l : List Input} {T : List Carriage} {s t : State} {bs vs : List Byte} {m k : Nat} {lv : List Byte}

theorem writeBytes_done (p : PeerHandle) (hT : T.headD Carriage.plain = Carriage.plain)
    (h : s.deliverWrites bs [] = .ok t) : (s.facing l T).writeBytes p bs = .ok (true, t.facing l T.tail) := by
  have hnext : (s.facing l T).nextCarriage = Carriage.plain := hT
  have hpop : (s.facing l T).popCarriage.deliverWrites bs [] = .ok (t.facing l T.tail) :=
    (deliverWrites_ignoresComing bs).ok h l T.tail
  simp only [State.writeBytes, hnext, Carriage.plain, hpop, ok_bind, pure_eq_ok]

theorem writeBytes_failed (p : PeerHandle) (hT : T.headD Carriage.plain = .failing k lv)
    (h : s.deliverWrites (bs.take k) [] = .ok t) : (s.facing l T).writeBytes p bs = .ok (false, t.facing l T.tail) := by
  have hnext : (s.facing l T).nextCarriage = .failing k lv := hT
  have hpop : (s.facing l T).popCarriage.deliverWrites (bs.take k) [] = .ok (t.facing l T.tail) :=
    (deliverWrites_ignoresComing _).ok h l T.tail
  simp only [State.writeBytes, hnext, Carriage.failing, hpop, ok_bind, pure_eq_ok]

theorem readBytes_done (p : PeerHandle) (hT : T.headD Carriage.plain = Carriage.plain)
    (h : s.deliverReads m [] = .ok (vs, t)) : (s.facing l T).readBytes p m = .ok (some vs, t.facing l T.tail) := by
  have hnext : (s.facing l T).nextCarriage = Carriage.plain := hT
  have hpop : (s.facing l T).popCarriage.deliverReads m [] = .ok (vs, t.facing l T.tail) :=
    deliverReads_facing h l T.tail
  simp only [State.readBytes, hnext, Carriage.plain, hpop, ok_bind, pure_eq_ok]

theorem readBytes_failed (p : PeerHandle) (hT : T.headD Carriage.plain = .failing k lv)
    (h : s.deliverReads (min k m) [] = .ok (vs, t)) : (s.facing l T).readBytes p m = .ok (none, t.facing l T.tail) := by
  have hnext : (s.facing l T).nextCarriage = .failing k lv := hT
  have hpop : (s.facing l T).popCarriage.deliverReads (min k m) [] = .ok (vs, t.facing l T.tail) :=
    deliverReads_facing h l T.tail
  simp only [State.readBytes, hnext, Carriage.failing, hpop, ok_bind, pure_eq_ok]

end

/-! ## The calls, primitive by primitive -/

section
variable {l : List Input} {T : List Carriage} {s t u : State} {a n : U32} {data buf ds vs : List Byte} {inj : Bool}
  {k : Nat} {lv : List Byte}

theorem returnStatusByte_done (p : PeerHandle) (hT : T.headD Carriage.plain = Carriage.plain) (h : s.rdEvent = .ok t) :
    (s.facing l T).returnStatusByte p = .ok ((t.facing l T.tail).ctlReturn (t.rdData.getD 0#8)) := by
  rw [State.returnStatusByte, readBytes_done p hT (deliverReads_one.2 ⟨h, rfl⟩)]
  rfl

theorem returnStatusByte_failed (p : PeerHandle) (hT : T.headD Carriage.plain = .failing k lv)
    (h : s.deliverReads (min k 1) [] = .ok (vs, t)) :
    (s.facing l T).returnStatusByte p = .ok ((t.facing l T.tail).ctlReturn transportFailed) := by
  rw [State.returnStatusByte, readBytes_failed p hT h]
  rfl

theorem controllerWrite_sent (p : PeerHandle) (hT : T.headD Carriage.plain = Carriage.plain)
    (h : s.deliverWrites (writeFrame n a (payload data n) inj) [] = .ok t) :
    (s.facing l T).controllerWrite p a data n inj = (t.facing l T.tail).returnStatusByte p := by
  rw [State.controllerWrite, writeBytes_done p hT h]
  rfl

theorem controllerWrite_failed (p : PeerHandle) (hT : T.headD Carriage.plain = .failing k lv)
    (h : s.deliverWrites ((writeFrame n a (payload data n) inj).take k) [] = .ok t) :
    (s.facing l T).controllerWrite p a data n inj = .ok ((t.facing l T.tail).ctlReturn transportFailed) := by
  rw [State.controllerWrite, writeBytes_failed p hT h]
  rfl

theorem controllerRead_headerFailed (p : PeerHandle) (hT : T.headD Carriage.plain = .failing k lv)
    (h : s.deliverWrites ((headerBytes n a).take k) [] = .ok t) :
    (s.facing l T).controllerRead p a buf n =
      .ok { (t.facing l T.tail).ctlReturn transportFailed with ctlBuf := buf } := by
  rw [State.controllerRead, writeBytes_failed p hT h]
  rfl

theorem controllerRead_dataFailed (p : PeerHandle) (hT : T.headD Carriage.plain = Carriage.plain)
    (hT' : T.tail.headD Carriage.plain = .failing k lv) (h : s.deliverWrites (headerBytes n a) [] = .ok t)
    (h' : t.deliverReads (min k n.toNat) [] = .ok (vs, u)) :
    (s.facing l T).controllerRead p a buf n =
      .ok { (u.facing l T.tail.tail).ctlReturn transportFailed with ctlBuf := leftInBuffer buf lv n.toNat } := by
  have hnext : (t.facing l T.tail).nextCarriage = .failing k lv := hT'
  rw [State.controllerRead, writeBytes_done p hT h, ok_bind]
  simp only [if_true, readBytes_failed p hT' h', hnext, ok_bind]
  rfl

theorem controllerRead_received (p : PeerHandle) (hT : T.headD Carriage.plain = Carriage.plain)
    (hT' : T.tail.headD Carriage.plain = Carriage.plain) (h : s.deliverWrites (headerBytes n a) [] = .ok t)
    (h' : t.deliverReads n.toNat [] = .ok (ds, u)) :
    (s.facing l T).controllerRead p a buf n = (u.facing l T.tail.tail).readTail p n a ds >>= fun v =>
      .ok { v with ctlBuf := overwriteFront buf ds } := by
  rw [State.controllerRead, writeBytes_done p hT h, ok_bind]
  simp only [if_true, readBytes_done p hT' h', ok_bind]
  rfl

theorem readTail_failed (p : PeerHandle) (hT : T.headD Carriage.plain = .failing k lv)
    (h : s.deliverReads (min k 1) [] = .ok (vs, t)) :
    (s.facing l T).readTail p n a ds = .ok ((t.facing l T.tail).ctlReturn transportFailed) := by
  rw [State.readTail, readBytes_failed p hT h]
  rfl

/-- The received checksum is compared with the controller's own; if they differ, one more byte is discarded (R95). -/
theorem readTail_checked (p : PeerHandle) (hT : T.headD Carriage.plain = Carriage.plain) (h : s.rdEvent = .ok t) :
    (s.facing l T).readTail p n a ds =
      if t.rdData.getD 0#8 = crc8 ds (crc8 (headerBytes n a) 0#8) then (t.facing l T.tail).returnStatusByte p
      else (t.facing l T.tail).readBytes p 1 >>= fun r => .ok (r.2.ctlReturn (flagCode .dataCorrupted)) := by
  rw [State.readTail, readBytes_done p hT (deliverReads_one.2 ⟨h, rfl⟩), ok_bind]
  exact ite_not _ _ _

end

theorem exec_cWrite_eq_next {s t : State} {p : PeerHandle} {a n : U32} {data : List Byte} {inj : Bool}
    (hwf : (Instr.cWrite p a data n inj).wellFormed = true) :
    exec (.cWrite p a data n inj) s = .next t ↔ s.controllerWrite p a data n inj = .ok t := by
  rw [← outcomeOf_eq_next]
  exact Eq.congr_left (if_pos hwf)

theorem exec_cRead_eq_next {s t : State} {p : PeerHandle} {a n : U32} {buf : List Byte}
    (hwf : (Instr.cRead p a buf n).wellFormed = true) :
    exec (.cRead p a buf n) s = .next t ↔ s.controllerRead p a buf n = .ok t := by
  rw [← outcomeOf_eq_next]
  exact Eq.congr_left (if_pos (of_decide_eq_true hwf))

theorem rdEvent_emits {s t : State} (h : s.rdEvent = .ok t) : t.rdData = some (t.rdData.getD 0#8) := by
  obtain ⟨_, _, _, _, _, _, v, hev, -⟩ := rdEvent_eq s
  cases h.symm.trans hev
  rfl

/-- Settles O51: the run's events are the frame and one RD_BYTE, and the call's two primitives deliver these. -/
theorem writeCallIsItsEventStream : Obligations.WriteCallIsItsEventStream := by
  intro s t p a data n inj hwf hrel hrun
  obtain ⟨u, vs, v, hw, hr, rfl⟩ := runWords_eq_next (m := 1).1 hrun
  obtain ⟨hr, -⟩ := deliverReads_one.1 hr
  have hcall := (controllerWrite_sent (l := s.inputs) p hrel.nextCarriage hw).trans
    (returnStatusByte_done p hrel.popCarriage.nextCarriage hr)
  have hdrop : s.transport.tail.tail = s.transport.drop 2 := by simp only [← List.drop_one, List.drop_drop]
  rw [hdrop, State.ctlReturn, ← rdEvent_emits hr] at hcall
  exact (exec_cWrite_eq_next hwf).2 hcall

/-! ## A primitive that fails -/

section
variable {s t : State} {p : PeerHandle} {n a : U32} {k : Nat} {lv : List Byte} {cs : List Carriage}

theorem State.facing_self {T : List Carriage} (hT : s.transport = T) : s.facing s.inputs T = s := by
  rw [← hT]
  rfl

/-- `t` as a call from `s` leaves it that has `cs` of the transport still to come and returned `v`. -/
def State.returned (s : State) (cs : List Carriage) (v : Byte) (t : State) : State :=
  { t with inputs := s.inputs, transport := cs, ctlStatus := some v }

/-- Byte `i` of the answer to the header of a read: what the run up to its RD_BYTE emits. -/
def State.answer (s : State) (n a : U32) (i : Nat) : Byte :=
  (emitted ((headerBytes n a).map wrWord ++ List.replicate (i + 1) rdWord) s).getD 0#8

/-- The bytes that reads after the header deliver are those of the answer. -/
theorem deliverReads_answer {vs : List Byte} {m : Nat} {u v : State} (hw : s.deliverWrites (headerBytes n a) [] = .ok u)
    (hr : u.deliverReads m [] = .ok (vs, v)) : vs = (List.range m).map (s.answer n a) := by
  induction m generalizing vs v with
  | zero => cases hr; rfl
  | succ m ih =>
    obtain ⟨xs, x, ys, hx, hy, rfl⟩ := deliverReads_add hr
    obtain ⟨-, rfl⟩ := deliverReads_one.1 hy
    have hlast : s.answer n a m = v.rdData.getD 0#8 := by
      rw [State.answer, emitted, runWords_eq_next.2 ⟨u, _, v, hw, hr, rfl⟩]
    rw [List.range_succ, List.map_append, ← ih hx, List.map_singleton, hlast]

theorem overwriteFront_answer (buf : List Byte) (m : Nat) : overwriteFront buf ((List.range m).map (s.answer n a)) =
    (List.range m).map (s.answer n a) ++ buf.drop m := by
  rw [overwriteFront, List.length_map, List.length_range]

theorem exec_cWrite_frameFailed {data : List Byte} {inj : Bool} (hwf : (Instr.cWrite p a data n inj).wellFormed = true)
    (hT : s.transport = .failing k lv :: cs)
    (hrun : runWords (((writeFrame n a (payload data n) inj).map wrWord).take k) s = .next t) :
    exec (.cWrite p a data n inj) s = .next (s.returned cs 0x00#8 t) := by
  rw [← List.map_take] at hrun
  obtain ⟨u, hw, rfl⟩ := runWords_writes_eq_next.1 hrun
  have hcall := controllerWrite_failed (l := s.inputs) (T := .failing k lv :: cs) p rfl hw
  rw [State.facing_self hT] at hcall
  exact (exec_cWrite_eq_next hwf).2 hcall

theorem exec_cWrite_statusFailed {data : List Byte} {inj : Bool} (hwf : (Instr.cWrite p a data n inj).wellFormed = true)
    (hT : s.transport = .plain :: .failing k lv :: cs)
    (hrun : runWords ((writeFrame n a (payload data n) inj).map wrWord ++ List.replicate (min k 1) rdWord) s =
      .next t) :
    exec (.cWrite p a data n inj) s = .next (s.returned cs 0x00#8 t) := by
  obtain ⟨u, vs, v, hw, hr, rfl⟩ := runWords_eq_next.1 hrun
  have hcall := (controllerWrite_sent (l := s.inputs) (T := .plain :: .failing k lv :: cs) p rfl hw).trans
    (returnStatusByte_failed p rfl hr)
  rw [State.facing_self hT] at hcall
  exact (exec_cWrite_eq_next hwf).2 hcall

variable {buf : List Byte} (hwf : (Instr.cRead p a buf n).wellFormed = true)
include hwf

theorem exec_cRead_headerFailed (hT : s.transport = .failing k lv :: cs)
    (hrun : runWords (((headerBytes n a).map wrWord).take k) s = .next t) :
    exec (.cRead p a buf n) s = .next { s.returned cs 0x00#8 t with ctlBuf := buf } := by
  rw [← List.map_take] at hrun
  obtain ⟨u, hw, rfl⟩ := runWords_writes_eq_next.1 hrun
  have hcall := controllerRead_headerFailed (l := s.inputs) (T := .failing k lv :: cs) (buf := buf) p rfl hw
  rw [State.facing_self hT] at hcall
  exact (exec_cRead_eq_next hwf).2 hcall

theorem exec_cRead_dataFailed (hT : s.transport = .plain :: .failing k lv :: cs)
    (hrun : runWords ((headerBytes n a).map wrWord ++ List.replicate (min k n.toNat) rdWord) s = .next t) :
    exec (.cRead p a buf n) s = .next { s.returned cs 0x00#8 t with ctlBuf := leftInBuffer buf lv n.toNat } := by
  obtain ⟨u, vs, v, hw, hr, rfl⟩ := runWords_eq_next.1 hrun
  have hcall := controllerRead_dataFailed (l := s.inputs) (T := .plain :: .failing k lv :: cs) (buf := buf) p rfl rfl
    hw hr
  rw [State.facing_self hT] at hcall
  exact (exec_cRead_eq_next hwf).2 hcall

theorem exec_cRead_checksumFailed (hT : s.transport = .plain :: .plain :: .failing k lv :: cs)
    (hrun : runWords ((headerBytes n a).map wrWord ++ List.replicate (n.toNat + min k 1) rdWord) s = .next t) :
    exec (.cRead p a buf n) s = .next { s.returned cs 0x00#8 t with
      ctlBuf := (List.range n.toNat).map (s.answer n a) ++ buf.drop n.toNat } := by
  obtain ⟨u, vs, v, hw, hr, rfl⟩ := runWords_eq_next.1 hrun
  obtain ⟨ds, x, ys, hd, hf, -⟩ := deliverReads_add hr
  have hcall := controllerRead_received (l := s.inputs) (T := .plain :: .plain :: .failing k lv :: cs) (buf := buf) p
    rfl rfl hw hd
  rw [readTail_failed p rfl hf, ok_bind, deliverReads_answer hw hd, overwriteFront_answer,
    State.facing_self hT] at hcall
  exact (exec_cRead_eq_next hwf).2 hcall

/-- Only the discarding read's failure goes unseen. -/
theorem exec_cRead_lastFailed (hT : s.transport = .plain :: .plain :: .plain :: .failing k lv :: cs)
    (hrun : runWords ((headerBytes n a).map wrWord ++ List.replicate (n.toNat + 1 + min k 1) rdWord) s = .next t) :
    exec (.cRead p a buf n) s = .next { s.returned cs
        (if s.answer n a n.toNat =
          crc8 ((List.range n.toNat).map (s.answer n a)) (crc8 (headerBytes n a) 0#8) then 0x00#8 else 0x10#8) t with
      ctlBuf := (List.range n.toNat).map (s.answer n a) ++ buf.drop n.toNat } := by
  obtain ⟨u, vs, v, hw, hr, rfl⟩ := runWords_eq_next.1 hrun
  obtain ⟨_, x, ys, hb, hf, -⟩ := deliverReads_add hr
  obtain ⟨ds, y, zs, hd, hc, rfl⟩ := deliverReads_add hb
  obtain ⟨hev, rfl⟩ := deliverReads_one.1 hc
  have hbytes := deliverReads_answer hw hb
  rw [List.range_succ, List.map_append, List.map_singleton, List.append_singleton_inj] at hbytes
  obtain ⟨hds, hcheck⟩ := hbytes
  have hcall := controllerRead_received (l := s.inputs) (T := .plain :: .plain :: .plain :: .failing k lv :: cs)
    (buf := buf) p rfl rfl hw hd
  rw [readTail_checked p rfl hev, hcheck, hds, overwriteFront_answer, State.facing_self hT] at hcall
  refine (exec_cRead_eq_next hwf).2 (hcall.trans ?_)
  split
  · rw [returnStatusByte_failed p rfl hf]
    rfl
  · rw [readBytes_failed p rfl hf]
    rfl

end

/-- Settles O59, one case for each primitive that can fail. -/
theorem transportFailureReturnsZero : Obligations.TransportFailureReturnsZero :=
  fun _ _ _ _ _ _ _ _ => ⟨fun _ _ hwf => ⟨exec_cWrite_frameFailed hwf, exec_cWrite_statusFailed hwf⟩,
    fun _ hwf => ⟨exec_cRead_headerFailed hwf, exec_cRead_dataFailed hwf, exec_cRead_checksumFailed hwf,
      exec_cRead_lastFailed hwf⟩⟩

end Sys2Proof.Machine
end

section
/-! PROOF. Calls from a quiescent block on a reliable transport: the write that stores its data (O52), the read that
returns the memory (O56) and the status read (O58). -/

namespace Sys2Proof.Machine

/-! ## The header of a transfer inside the bounds -/

theorem headerFlags_eq_zero_iff {c : Config} {n a : U32} : headerFlags c n a = 0#8 ↔
    a.toNat + n.toNat < c.memSize ∧ (c.backupEn = true → n.toNat ≤ c.bkSize) := by
  simp [headerFlags, BitVec.or_eq_zero_iff, and_comm]

/-- `ST` after a header is one of four values: `Ok`, or one or both of its flags. -/
theorem headerStatus_cases (c : Config) (n a : U32) : headerStatus c n a = 0x80#8 ∨ headerStatus c n a = 0x01#8 ∨
    headerStatus c n a = 0x02#8 ∨ headerStatus c n a = 0x03#8 := by
  unfold headerStatus headerFlags
  split <;> split <;> simp

/-- A header outside the bounds has set `MOOR` already. -/
theorem headerStatus_outside {c : Config} {n a : U32} (h : c.memSize ≤ a.toNat + n.toNat) :
    setFlag (headerStatus c n a) .memoryOutOfRange = headerStatus c n a := by
  unfold headerStatus headerFlags
  rw [if_pos h]
  split <;> rfl

/-- Read-to-clear finds nothing to clear in the status of a header (R84). -/
theorem headerStatus_cleared (c : Config) (n a : U32) :
    (if headerStatus c n a &&& 0x1F#8 = 0#8 then 0x80#8 else headerStatus c n a) = headerStatus c n a := by
  rcases headerStatus_cases c n a with h | h | h | h <;> rw [h] <;> rfl

/-- A header does not set `DC`. -/
theorem headerStatus_intact (c : Config) (n a : U32) : headerStatus c n a &&& 0x10#8 = 0#8 := by
  rcases headerStatus_cases c n a with h | h | h | h <;> rw [h] <;> rfl

/-- The final RD_BYTE without `DC` serves `ST` and ends the transaction (R87). -/
theorem rdEvent_endsIntact {s : State} (hd : 8 + s.len.toNat < s.bc) (hst : s.st &&& 0x10#8 = 0#8)
    (hp : s.pend = false) : s.rdEvent = .ok (s.emit s.st).clearCounters := by
  have ha : s.armsRestore = false := by
    rw [Bool.eq_false_iff, Ne, armsRestore_iff]
    exact fun h => h.1 hst
  rw [rdEvent_serves hd ha]
  exact congrArg _ (endTransaction_idle hp)

/-! ## A correct write -/

theorem payload_getD {data : List Byte} {n : U32} {i : Nat} (hi : i < n.toNat) :
    (payload data n).getD i 0#8 = if data = [] then 0x00#8 else data.getD i 0#8 := by
  unfold payload
  cases data with
  | nil => simp
  | cons d ds => simp [hi]

/-- Settles O52: the frame stores and saves the payload and sets no flag, and the last RD_BYTE returns `Ok`. -/
theorem goodWriteStoresItsData : Obligations.GoodWriteStoresItsData := by
  intro s p a data n h hq hrel hwf hmem hbk
  have hlen := payload_length hwf
  obtain ⟨mem, bk, hall, hframe⟩ := deliverWrites_unflaggedFrame (s := s.popCarriage) false (popCarriage_inv h) hq
    hlen (headerFlags_eq_zero_iff.2 ⟨hmem, hbk⟩)
  have hcall := exec_cWrite_reliable hwf hrel hframe
    (rdEvent_endsIntact (Nat.add_lt_add_right (by decide) _) (by decide : 0x80#8 &&& 0x10#8 = 0#8) hq.2)
  obtain ⟨hstored, hkept, hsaved, hbkKept, hunsaved⟩ := hall
  rw [hlen] at hstored hkept hsaved hbkKept
  simp only [Nat.zero_add] at hsaved hbkKept
  exact ⟨_, hcall, rfl, rfl, ⟨rfl, hq.2⟩, fun i hi => (hstored i hi).trans (payload_getD hi), hkept, hsaved,
    fun o ho => hbkKept o fun hin => Nat.not_lt.2 ho hin.2, hunsaved⟩

/-! ## A read whose checksum agrees -/

/-- The idle block `s` after the header of `n` and `a`. -/
def State.headed (s : State) (n a : U32) : State := { s with
  bc := 8, len := n, addr := a, crc := crc8 (headerBytes n a) 0#8, st := headerStatus s.cfg n a, rdData := none }

theorem State.headed_crc (s : State) (n a : U32) : (s.headed n a).crc = crc8 (headerBytes n a) 0#8 := rfl

theorem deliverWrites_headed {s : State} (h : s.Inv) (hq : s.quiescent) (n a : U32) :
    s.deliverWrites (headerBytes n a) [] = .ok (s.headed n a) := by
  obtain ⟨-, -, hcrc⟩ := h.idle hq.1 hq.2
  rw [deliverWrites_header hq.1, hcrc]
  rfl

theorem exec_cRead_reliable {s t u v w : State} {p : PeerHandle} {a n : U32} {buf ds : List Byte}
    (hwf : (Instr.cRead p a buf n).wellFormed = true) (hrel : s.reliable)
    (hw : s.deliverWrites (headerBytes n a) [] = .ok t) (hr : t.deliverReads n.toNat [] = .ok (ds, u))
    (hc : u.rdEvent = .ok v) (hsum : v.rdData.getD 0#8 = crc8 ds (crc8 (headerBytes n a) 0#8))
    (hf : v.rdEvent = .ok w) : exec (.cRead p a buf n) s = .next { s.returned (s.transport.drop 4)
      (w.rdData.getD 0#8) w with ctlBuf := overwriteFront buf ds } := by
  have hrel2 := hrel.popCarriage.popCarriage
  have hcall := controllerRead_received (l := s.inputs) (buf := buf) p hrel.nextCarriage hrel.popCarriage.nextCarriage
    hw hr
  rw [readTail_checked (T := s.transport.tail.tail) p hrel2.nextCarriage hc, if_pos hsum,
    returnStatusByte_done (T := s.transport.tail.tail.tail) p hrel2.popCarriage.nextCarriage hf] at hcall
  have hdrop : s.transport.tail.tail.tail.tail = s.transport.drop 4 := by simp only [← List.drop_one, List.drop_drop]
  rw [hdrop] at hcall
  exact (exec_cRead_eq_next hwf).2 hcall

/-- A read whose data bytes `ds` left no restore to arm: the block's checksum is the controller's own, and `ST` comes
back (R85, R87, R95). -/
theorem exec_cRead_intact {s t u : State} {p : PeerHandle} {a n : U32} {buf ds : List Byte}
    (hwf : (Instr.cRead p a buf n).wellFormed = true) (hrel : s.reliable)
    (hw : s.deliverWrites (headerBytes n a) [] = .ok t) (hr : t.deliverReads n.toNat [] = .ok (ds, u))
    (hbc : u.bc = 8 + u.len.toNat) (hcrc : u.crc = crc8 ds (crc8 (headerBytes n a) 0#8)) (hst : u.st &&& 0x10#8 = 0#8)
    (hp : u.pend = false) : exec (.cRead p a buf n) s = .next { s.returned (s.transport.drop 4)
      u.st (u.emit u.st).clearCounters with ctlBuf := overwriteFront buf ds } :=
  exec_cRead_reliable hwf hrel hw hr (rdEvent_checksum hbc) hcrc
    (rdEvent_endsIntact (s := u.rdChecksum.advance) (Nat.lt_succ_of_le (Nat.le_of_eq hbc.symm)) hst hp)

/-- The `n` bytes of the space `m` from the address `base` on. -/
def Memory.bytes (m : Memory) (base n : Nat) : List Byte := (List.range n).map fun i => Memory.read m (base + i)

theorem Memory.bytes_succ (m : Memory) (base n : Nat) :
    Memory.bytes m base (n + 1) = Memory.read m base :: Memory.bytes m (base + 1) n := by
  simp [Memory.bytes, List.range_succ_eq_map, Nat.add_assoc, Nat.add_comm 1, Function.comp_def]

/-- A data byte of an unflagged read inside the region, no status read, is served from memory and folded (R83). -/
theorem rdEvent_memory {s : State} (h8 : 8 ≤ s.bc) (hd : s.bc < 8 + s.len.toNat)
    (hea : effectiveAddress s.addr s.bc < s.cfg.memSize) (hns : ¬ (s.addr = 0#32 ∧ s.len = 1#32))
    (hst : s.st &&& 0x1F#8 = 0#8) : s.rdEvent = .ok { s with
      bc := s.bc + 1, crc := crcStep s.crc (Memory.read s.mem (effectiveAddress s.addr s.bc)),
      rdData := some (Memory.read s.mem (effectiveAddress s.addr s.bc)) } :=
  rdEvent_of_rdValue h8 hd (rdValue_memory hea hns (anyErr_false_iff.2 hst))

/-- Data bytes of such a read, one after another. -/
theorem deliverReads_memory {s : State} {m : Nat} (h8 : 8 ≤ s.bc) (hd : s.bc + m ≤ 8 + s.len.toNat)
    (hea : effectiveAddress s.addr s.bc + m ≤ s.cfg.memSize) (hns : ¬ (s.addr = 0#32 ∧ s.len = 1#32))
    (hst : s.st &&& 0x1F#8 = 0#8) : ∃ r, s.deliverReads m [] = .ok (s.mem.bytes (effectiveAddress s.addr s.bc) m,
      { s with bc := s.bc + m, crc := crc8 (s.mem.bytes (effectiveAddress s.addr s.bc) m) s.crc, rdData := r }) := by
  induction m generalizing s with
  | zero => exact ⟨s.rdData, rfl⟩
  | succ m ih =>
    have hev := rdEvent_memory h8 (by omega) (by omega) hns hst
    have hnext := effectiveAddress_succ (addr := s.addr) h8
    have hbc : s.bc + (m + 1) = s.bc + 1 + m := by omega
    obtain ⟨r, hr⟩ := ih (s := { s with bc := s.bc + 1, crc := _, rdData := _ }) (Nat.le_succ_of_le h8) (hbc ▸ hd)
      (by simp only [hnext]; omega) hns hst
    refine ⟨r, ?_⟩
    rw [deliverReads_succ, hev, ok_bind, hr, ok_bind, Memory.bytes_succ, crc8_cons, ← hnext, hbc]
    rfl

/-- Settles O56: the data bytes are those of the memory, the checksum agrees, and the last RD_BYTE returns `Ok`. -/
theorem readReturnsTheMemory : Obligations.ReadReturnsTheMemory := by
  intro s p a buf n h hq hrel hwf hf hns
  obtain ⟨hmem, -⟩ := headerFlags_eq_zero_iff.1 hf
  have hst : (s.headed n a).st = 0x80#8 := if_pos hf
  obtain ⟨r, hr⟩ := deliverReads_memory (s := s.headed n a) (m := n.toNat) (Nat.le_refl 8) (Nat.le_refl _)
    (Nat.le_of_lt hmem) hns (by rw [hst]; rfl)
  have hcall := exec_cRead_intact hwf hrel (deliverWrites_headed h hq n a) hr rfl rfl (headerStatus_intact ..) hq.2
  refine ⟨_, hcall, congrArg some hst, ?buffer, rfl, rfl, rfl, hq.2⟩
  case buffer =>
    simp only [overwriteFront, Memory.bytes, List.length_map, List.length_range]
    rfl

/-! ## The status read -/

/-- The data byte of a status read from an idle block: `ST`, or 0 when there is no memory at all (R83, R84). -/
def State.statusByte (s : State) : Byte := if s.cfg.memSize = 0 then 0x00#8 else headerStatus s.cfg 1#32 0#32

/-- That byte is served, and `ST` stays. -/
theorem rdEvent_statusByte (s : State) : (s.headed 1#32 0#32).rdEvent = .ok { s.headed 1#32 0#32 with
    bc := 9, crc := crc8 [s.statusByte] (s.headed 1#32 0#32).crc, rdData := some s.statusByte } := by
  obtain ⟨hmemory, hnone⟩ := statusReadServesStatus (s.headed 1#32 0#32) rfl rfl rfl
  by_cases hm : s.cfg.memSize = 0
  case pos =>
    have hkeep : ((s.headed 1#32 0#32).st &&& 0x7F#8) ||| 0x01#8 = (s.headed 1#32 0#32).st :=
      headerStatus_outside (by rw [hm]; exact Nat.zero_le _)
    have hev := exec_rdByte_eq_next.1 (hnone hm)
    rw [hkeep] at hev
    rw [State.statusByte, if_pos hm]
    exact hev
  case neg =>
    have hkeep : (if (s.headed 1#32 0#32).st &&& 0x1F#8 = 0#8 then 0x80#8 else (s.headed 1#32 0#32).st) =
        (s.headed 1#32 0#32).st := headerStatus_cleared ..
    have hev := exec_rdByte_eq_next.1 (hmemory (Nat.pos_of_ne_zero hm))
    rw [hkeep] at hev
    rw [State.statusByte, if_neg hm]
    exact hev

/-- C_READ of one byte at address 0 from an idle block: the status of its own header comes back. -/
theorem exec_cRead_statusByte {s : State} {p : PeerHandle} {buf : List Byte} (h : s.Inv) (hq : s.quiescent)
    (hrel : s.reliable) (hwf : (Instr.cRead p 0#32 buf 1#32).wellFormed = true) :
    ∃ t, exec (.cRead p 0#32 buf 1#32) s = .next t ∧ t.ctlStatus = some (headerStatus s.cfg 1#32 0#32) ∧
      t.st = headerStatus s.cfg 1#32 0#32 ∧ t.ctlBuf = s.statusByte :: buf.drop 1 ∧
      t.quiescent ∧ t.mem = s.mem ∧ t.bk = s.bk := by
  have hread : (s.headed 1#32 0#32).deliverReads (1#32).toNat [] = .ok ([s.statusByte], _) :=
    deliverReads_one.2 ⟨rdEvent_statusByte s, rfl⟩
  have hcall := exec_cRead_intact hwf hrel (deliverWrites_headed h hq 1#32 0#32) hread rfl
    (congrArg (crc8 _) (State.headed_crc ..)) (headerStatus_intact ..) hq.2
  exact ⟨_, hcall, rfl, rfl, rfl, ⟨rfl, hq.2⟩, rfl, rfl⟩

/-- C_READSTATUS is the call of C_READ with a scratch byte (R96). -/
theorem exec_cReadStatus_of_cRead {s t : State} {p : PeerHandle} (h : exec (.cRead p 0#32 [0#8] 1#32) s = .next t) :
    exec (.cReadStatus p) s = .next { t with ctlBuf := s.ctlBuf } :=
  outcomeOf_eq_next.2 (bind_eq_ok.2 ⟨t, (exec_cRead_eq_next rfl).1 h, rfl⟩)

/-- Settles O58: C_READSTATUS by its C_READ, and that by the status its header leaves. -/
theorem statusReadCall : Obligations.StatusReadCall := by
  refine ⟨fun _ _ _ => exec_cReadStatus_of_cRead, fun s p h hq hrel hmem hbk => ?status,
    fun s p buf h hq hrel hbuf => exec_cRead_statusByte h hq hrel (decide_eq_true hbuf)⟩
  case status =>
    have hok : headerStatus s.cfg 1#32 0#32 = 0x80#8 :=
      if_pos ((headerFlags_eq_zero_iff (n := 1#32) (a := 0#32)).2 ⟨hmem, hbk⟩)
    obtain ⟨t, ht, hret, hst, -, hrest⟩ := exec_cRead_statusByte (p := p) (buf := [0#8]) h hq hrel rfl
    rw [hok] at hret hst
    exact ⟨_, exec_cReadStatus_of_cRead ht, hret, hst, hrest⟩

end Sys2Proof.Machine
end

section
/-! PROOF. The events taken alone (60_exceptions.md R99, R105): the statements O40 and O44. -/

namespace Sys2Proof.Machine

/-! ## Completion -/

/-- A computation that answers with the invariant is the next state of its event. -/
theorem outcomeOf_completes {r : Except Fault State} (hr : ∃ t, r = .ok t ∧ t.Inv) :
    ∃ t, outcomeOf r = .next t ∧ t.Inv := by
  obtain ⟨t, ht, hinv⟩ := hr
  exact ⟨t, outcomeOf_eq_next.2 ht, hinv⟩

/-- Settles O40, from what each event does from the invariant. -/
theorem eventsNeverStop : Obligations.EventsNeverStop := by
  intro s i h hi
  cases i with
  | wrByte b => exact outcomeOf_completes (inv_wrEvent h b)
  | rdByte => exact outcomeOf_completes (inv_rdEvent h)
  | process => exact outcomeOf_completes (inv_processEvent h)
  | init => exact ⟨_, rfl, inv_initEvent h⟩
  | crc8Step | crc8 | cWrite | cRead | cReadStatus => cases hi

/-! ## What an event does to `ST` -/

/-- `st'` is `st` itself, or `st` after one error flag was recorded in it (10_state.md R26). -/
def KeptOrFlagged (st st' : Byte) : Prop := st' = st ∨ ∃ f, st' = setFlag st f

theorem keptOrFlagged_ite (c : Prop) [Decidable c] (st : Byte) (f : ErrFlag) :
    KeptOrFlagged st (if c then setFlag st f else st) := by
  by_cases h : c
  · exact .inr ⟨f, if_pos h⟩
  · exact .inl (if_neg h)

theorem setFlag_ne_ok (st : Byte) (f : ErrFlag) : setFlag st f ≠ 0x80#8 := by
  intro h
  have hclear := setFlag_ok_clear st f
  rw [h] at hclear
  exact absurd hclear (by decide)

/-- `Ok` shows afterwards only if it was there before. -/
theorem KeptOrFlagged.eq_ok {st st' : Byte} (h : KeptOrFlagged st st') (hok : st' = 0x80#8) : st = 0x80#8 := by
  rcases h with hkept | ⟨f, hflag⟩
  · exact hkept.symm.trans hok
  · exact absurd (hflag.symm.trans hok) (setFlag_ne_ok st f)

theorem memWrite_st {a : Nat} {v : Byte} {s t : State} (h : s.memWrite a v = .ok t) : t.st = s.st := by
  unfold State.memWrite at h
  split at h <;> cases h
  rfl

theorem bkWrite_st {o : Nat} {v : Byte} {s t : State} (h : s.bkWrite o v = .ok t) : t.st = s.st := by
  unfold State.bkWrite at h
  split at h <;> cases h
  rfl

theorem applyData_st {b : Byte} {off ea : Nat} {s t : State} (h : s.applyData b off ea = .ok t) : t.st = s.st := by
  unfold State.applyData at h
  split at h
  · obtain ⟨old, -, h⟩ := bind_eq_ok.1 h
    obtain ⟨u, hu, h⟩ := bind_eq_ok.1 h
    exact (memWrite_st h).trans (bkWrite_st hu)
  · exact memWrite_st h

theorem wrData_keptOrFlagged {b : Byte} {s t : State} (h : s.wrData b = .ok t) : KeptOrFlagged s.st t.st := by
  simp only [State.wrData] at h
  split at h
  · cases h
    exact .inl rfl
  split at h
  · cases h
    exact .inr ⟨_, rfl⟩
  split at h
  · cases h
    exact .inr ⟨_, rfl⟩
  · exact .inl ((applyData_st h).trans (s.fold_st b))

theorem wrBranch_keptOrFlagged {b : Byte} {s t : State} (h : s.wrBranch b = .ok t) : KeptOrFlagged s.st t.st := by
  unfold State.wrBranch at h
  split at h
  · cases h
    rw [wrLength_eq]
    exact keptOrFlagged_ite _ _ _
  · cases h
    rw [wrAddress_eq]
    exact keptOrFlagged_ite _ _ _
  · exact wrData_keptOrFlagged h
  · cases h
    rw [wrChecksum_eq, ← ite_not]
    exact keptOrFlagged_ite _ _ _
  · cases h
    exact .inr ⟨_, rfl⟩

/-- After the transaction start a WR_BYTE only adds flags (R74 to R79). -/
theorem wrEvent_keptOrFlagged {b : Byte} {s t : State} (h : s.wrEvent b = .ok t) :
    KeptOrFlagged (statusAtBranch s) t.st := by
  obtain ⟨u, hu, h⟩ := bind_eq_ok.1 h
  cases h
  have hst := wrBranch_keptOrFlagged hu
  rwa [State.txStart_eq] at hst

theorem endTransaction_st (s : State) : s.endTransaction.st = s.st := by
  cases hp : s.pend with
  | true => rw [endTransaction_pending hp, State.advance_st]
  | false => rw [endTransaction_idle hp, State.clearCounters_st]

/-- The data byte of a status read that no error flag blocks (42_read_byte.md R84). -/
def State.clearsByRead (s : State) : Prop :=
  phase s.bc s.len = .data ∧ s.addr = 0#32 ∧ s.len = 1#32 ∧ s.st &&& 0x1F#8 = 0#8

theorem rdEvent_data_st {s t : State} (h8 : 8 ≤ s.bc) (hd : s.bc < 8 + s.len.toNat) (h : s.rdEvent = .ok t) :
    KeptOrFlagged s.st t.st ∨ s.clearsByRead := by
  cases (readDataByte s h8 hd).symm.trans (exec_rdByte_eq_next.2 h)
  split
  · exact .inl (.inr ⟨.memoryOutOfRange, rfl⟩)
  split
  · next hstatus =>
    by_cases hst : s.st &&& 0x1F#8 = 0#8
    · exact .inr ⟨phase_data h8 hd, hstatus.1, hstatus.2, hst⟩
    · exact .inl (.inl (if_neg hst))
  split <;> exact .inl (.inl rfl)

/-- An RD_BYTE keeps `ST` or adds a flag, unless it serves an unflagged status read or arms a restore (R82 to R87). -/
theorem rdEvent_st {s t : State} (h : s.rdEvent = .ok t) :
    KeptOrFlagged s.st t.st ∨ s.clearsByRead ∨ t.st = 0x20#8 := by
  by_cases h8 : s.bc < 8
  · cases (rdEvent_header h8).symm.trans h
    exact .inl (.inr ⟨_, rfl⟩)
  by_cases hd : s.bc < 8 + s.len.toNat
  · exact (rdEvent_data_st (by omega) hd h).imp_right .inl
  by_cases hc : s.bc = 8 + s.len.toNat
  · cases (rdEvent_checksum hc).symm.trans h
    exact .inl (.inl rfl)
  have hfin : 8 + s.len.toNat < s.bc := by omega
  cases ha : s.armsRestore with
  | true =>
    cases (rdEvent_arms hfin ha).symm.trans h
    exact .inr (.inr rfl)
  | false =>
    cases (rdEvent_serves hfin ha).symm.trans h
    exact .inl (.inl (endTransaction_st _))

/-- Settles O44: an event that only keeps `ST` or adds a flag does not bring `Ok` back. -/
theorem okReturnsInFourCases : Obligations.OkReturnsInFourCases := by
  intro s t i hi h hs ht
  cases i with
  | wrByte b =>
    have hok := (wrEvent_keptOrFlagged (exec_wrByte_eq_next.1 h)).eq_ok ht
    by_cases h0 : s.bc = 0
    · exact .inl ⟨b, rfl, h0⟩
    · exact absurd ((statusAtBranch_open h0).symm.trans hok) hs
  | rdByte =>
    rcases rdEvent_st (exec_rdByte_eq_next.1 h) with hst | hread | hbusy
    · exact absurd (hst.eq_ok ht) hs
    · exact .inr (.inl ⟨rfl, hread⟩)
    · exact absurd (hbusy.symm.trans ht) (by decide)
  | process =>
    cases hp : s.pend with
    | true => exact .inr (.inr (.inl ⟨rfl, rfl⟩))
    | false =>
      cases (processEvent_idle hp).symm.trans (exec_process_eq_next.1 h)
      exact absurd (s.undriven_st.symm.trans ht) hs
  | init => exact .inr (.inr (.inr rfl))
  | crc8Step | crc8 | cWrite | cRead | cReadStatus => cases hi

end Sys2Proof.Machine
end

section
/-! PROOF. RD_BYTE events alone end a transaction that has no restore pending or about to be armed
(70_reset_and_hazards.md R119): the statement O47. -/

namespace Sys2Proof.Machine

/-- No restore is pending, and a final RD_BYTE would arm none (42_read_byte.md R87). -/
def State.restoreFree (s : State) : Prop := s.pend = false ∧ s.armsRestore = false

/-- One of the flags `MOOR`, `BBO` and `IRD`, once recorded, keeps the final RD_BYTE from arming. -/
theorem armsRestore_false_of_setFlag {s : State} {st : Byte} {f : ErrFlag} (hst : s.st = setFlag st f)
    (hf : flagCode f &&& 0x07#8 ≠ 0#8) : s.armsRestore = false := by
  rw [Bool.eq_false_iff, Ne, armsRestore_iff, hst]
  rintro ⟨-, -, hnone⟩
  exact hf (and_eq_zero_of_setFlag (m := 0x07#8) rfl hnone).2

/-- A status read that clears `ST` clears `DC` with it. -/
theorem armsRestore_false_of_ok {s : State} (hst : s.st = 0x80#8) : s.armsRestore = false := by
  rw [Bool.eq_false_iff, Ne, armsRestore_iff, hst]
  exact fun h => h.1 rfl

/-- The arming condition reads `ST` and the parameters only. -/
theorem armsRestore_congr {s t : State} (hst : t.st = s.st) (hcfg : t.cfg = s.cfg) :
    t.armsRestore = s.armsRestore := by
  rw [State.armsRestore, State.armsRestore, hst, hcfg]

/-- Before the final position an RD_BYTE does not bring the arming condition about: what it can do to `ST` is set `IRD`
or `MOOR`, or clear it (R82 to R85). -/
theorem rdEvent_armsRestore {s t : State} (hb : s.bc ≤ 8 + s.len.toNat) (ha : s.armsRestore = false)
    (h : s.rdEvent = .ok t) : t.armsRestore = false := by
  by_cases h8 : s.bc < 8
  · cases (rdEvent_header h8).symm.trans h
    exact armsRestore_false_of_setFlag (f := .invalidRead) rfl (by decide)
  by_cases hd : s.bc < 8 + s.len.toNat
  · obtain ⟨v, u, hv, hu⟩ := rdValue_cases s
    cases (rdEvent_of_rdValue (by omega) hd hv).symm.trans h
    rcases hu with rfl | rfl | ⟨-, rfl⟩
    · exact (armsRestore_congr rfl rfl).trans ha
    · exact armsRestore_false_of_setFlag (f := .memoryOutOfRange) rfl (by decide)
    · exact armsRestore_false_of_ok rfl
  · cases (rdEvent_checksum (by omega)).symm.trans h
    exact (armsRestore_congr rfl rfl).trans ha

/-- Before the final position an RD_BYTE advances, and the block stays free of a restore (R86). -/
theorem rdEvent_advances {s : State} (hb : s.bc ≤ 8 + s.len.toNat) (hfree : s.restoreFree) :
    ∃ t, s.rdEvent = .ok t ∧ t.bc = s.bc + 1 ∧ t.len = s.len ∧ t.restoreFree := by
  obtain ⟨bc, len, addr, crc, st, pend, v, hev, hadvance, -⟩ := rdEvent_eq s
  obtain ⟨hbc, hlen, -, hpend⟩ := hadvance hb
  exact ⟨_, hev, hbc, hlen, hpend.trans hfree.1, rdEvent_armsRestore hb hfree.2 hev⟩

/-- The final RD_BYTE clears the counters (R87). -/
theorem rdEvent_clears {s : State} (hd : 8 + s.len.toNat < s.bc) (hfree : s.restoreFree) :
    s.rdEvent = .ok (s.emit s.st).clearCounters :=
  (rdEvent_serves hd hfree.2).trans (congrArg _ (endTransaction_idle hfree.1))

/-- Up to the final position, `m` RD_BYTE words only advance `BC`; the run goes on from there. -/
theorem runWords_reads_advance {s : State} {m : Nat} (hfree : s.restoreFree) (hm : m ≤ 9 + s.len.toNat - s.bc) :
    ∃ u, u.bc = s.bc + m ∧ u.len = s.len ∧ u.restoreFree ∧
      ∀ ws t, runWords ws u = .next t → runWords (List.replicate m rdWord ++ ws) s = .next t := by
  induction m generalizing s with
  | zero => exact ⟨s, rfl, rfl, hfree, fun _ _ h => h⟩
  | succ m ih =>
    obtain ⟨v, hev, hbc, hlen, hv⟩ := rdEvent_advances (by omega) hfree
    obtain ⟨u, hubc, hulen, hu, hrun⟩ := ih hv (by rw [hbc, hlen]; omega)
    refine ⟨u, by omega, hulen.trans hlen, hu, fun ws t h => ?_⟩
    rw [List.replicate_succ, List.cons_append]
    exact runWords_rdWord_eq_next.2 ⟨v, hev, hrun ws t h⟩

/-- Settles O47: the reads before the final position advance `BC` by induction over their number, and one more clears
it. -/
theorem readsAloneEndTheTransaction : Obligations.ReadsAloneEndTheTransaction := by
  intro s _ hp hnoArm
  have hfree : s.restoreFree := ⟨hp, Bool.eq_false_iff.2 fun ha => hnoArm (armsRestore_iff.1 ha)⟩
  refine ⟨?cleared, fun j hj => ?advanced⟩
  case cleared =>
    obtain ⟨u, hbc, hlen, hu, hrun⟩ := runWords_reads_advance hfree (Nat.le_refl _)
    have hlast := runWords_rdWord_eq_next (ws := []).2 ⟨_, rdEvent_clears (by rw [hbc, hlen]; omega) hu, rfl⟩
    rw [List.replicate_succ']
    exact ⟨_, hrun [rdWord] _ hlast, rfl, hu.1⟩
  case advanced =>
    obtain ⟨u, hbc, -, -, hrun⟩ := runWords_reads_advance hfree (Nat.le_of_lt_succ hj)
    rw [← List.append_nil (List.replicate _ _)]
    exact ⟨_, hrun [] _ rfl, hbc⟩

end Sys2Proof.Machine
end

section
/-! PROOF. A read that its header flags (70_reset_and_hazards.md R127): the statement O57. -/

namespace Sys2Proof.Machine

/-- A data byte of a flagged read, no status read, is 0 and folded; outside the region it would set `MOOR`, which the
header has set there (42_read_byte.md R83). -/
theorem rdEvent_zero {s : State} (h8 : 8 ≤ s.bc) (hd : s.bc < 8 + s.len.toNat)
    (hns : ¬ (s.addr = 0#32 ∧ s.len = 1#32)) (hst : s.st &&& 0x1F#8 ≠ 0#8)
    (hmoor : s.cfg.memSize ≤ transferEnd s.addr s.len → setFlag s.st .memoryOutOfRange = s.st) :
    s.rdEvent = .ok { s with bc := s.bc + 1, crc := crcStep s.crc 0#8, rdData := some 0#8 } := by
  rcases Nat.lt_or_ge (effectiveAddress s.addr s.bc) s.cfg.memSize with hea | hea
  case inl => exact rdEvent_of_rdValue h8 hd (rdValue_error hea hns (hasError_iff.2 hst))
  case inr =>
    have hend : effectiveAddress s.addr s.bc ≤ transferEnd s.addr s.len := by
      simp only [effectiveAddress, dataOffset, transferEnd]
      omega
    have hkeep : s.recordError .memoryOutOfRange = s :=
      congrArg (fun v => { s with st := v }) (hmoor (hea.trans hend))
    have hv := rdValue_outside hea
    rw [hkeep] at hv
    exact rdEvent_of_rdValue h8 hd hv

/-- Data bytes of such a read, one after another. -/
theorem deliverReads_zeros {s : State} {m : Nat} (h8 : 8 ≤ s.bc) (hd : s.bc + m ≤ 8 + s.len.toNat)
    (hns : ¬ (s.addr = 0#32 ∧ s.len = 1#32)) (hst : s.st &&& 0x1F#8 ≠ 0#8)
    (hmoor : s.cfg.memSize ≤ transferEnd s.addr s.len → setFlag s.st .memoryOutOfRange = s.st) :
    ∃ r, s.deliverReads m [] = .ok (List.replicate m 0#8,
      { s with bc := s.bc + m, crc := crc8 (List.replicate m 0#8) s.crc, rdData := r }) := by
  induction m generalizing s with
  | zero => exact ⟨s.rdData, rfl⟩
  | succ m ih =>
    have hev := rdEvent_zero h8 (by omega) hns hst hmoor
    have hbc : s.bc + (m + 1) = s.bc + 1 + m := by omega
    obtain ⟨r, hr⟩ := ih (s := { s with bc := s.bc + 1, crc := _, rdData := _ }) (Nat.le_succ_of_le h8) (hbc ▸ hd)
      hns hst hmoor
    refine ⟨r, ?_⟩
    rw [deliverReads_succ, hev, ok_bind, hr, ok_bind, List.replicate_succ, crc8_cons, hbc]
    rfl

/-- Settles O57: the data bytes are zeros, the checksum agrees, and the last RD_BYTE returns the flags. -/
theorem flaggedReadReturnsZeros : Obligations.FlaggedReadReturnsZeros := by
  intro s p a buf n h hq hrel hwf hf hns
  have hst : (s.headed n a).st = headerFlags s.cfg n a := if_neg hf
  obtain ⟨herr, -⟩ := headerFlags_block hf false
  obtain ⟨r, hr⟩ := deliverReads_zeros (s := s.headed n a) (m := n.toNat) (Nat.le_refl 8) (Nat.le_refl _) hns
    (hst ▸ herr) headerStatus_outside
  have hcall := exec_cRead_intact hwf hrel (deliverWrites_headed h hq n a) hr rfl rfl (headerStatus_intact ..) hq.2
  refine ⟨_, hcall, congrArg some hst, ?buffer, rfl, rfl, rfl, hq.2⟩
  case buffer => simp only [overwriteFront, List.length_replicate]

end Sys2Proof.Machine
end

section
/-! PROOF. The busy window between the arming and its PROCESS (70_reset_and_hazards.md R115, R118): the statements O45
and O46. -/

namespace Sys2Proof.Machine

/-! ## The events of the busy window -/

/-- A pending restore lies in the drain phase (10_state.md R37 (d)). -/
theorem State.Inv.pendingDrain {s : State} (h : s.Inv) (hp : s.pend = true) : 8 + s.len.toNat < s.bc := by
  obtain ⟨-, -, -, hpos⟩ := h.pending hp
  omega

/-- A byte written in the drain phase of a busy block shows `IWR` beside `Busy` (41_write_byte.md R79). -/
theorem wrEvent_busy {s : State} (hd : 8 + s.len.toNat < s.bc) (hst : s.st = 0x20#8 ∨ s.st = 0x28#8) (b : Byte) :
    s.wrEvent b = .ok { s with bc := s.bc + 1, st := 0x28#8, rdData := none } := by
  rw [wrEvent_drain b hd, State.wrDrain, State.recordError, State.undriven_st, setFlag_busy hst]
  rfl

/-- A byte read there is `ST`, and the counters stay for PROCESS (42_read_byte.md R87). -/
theorem rdEvent_busy {s : State} (hd : 8 + s.len.toNat < s.bc) (hst : s.st = 0x20#8 ∨ s.st = 0x28#8)
    (hp : s.pend = true) : s.rdEvent = .ok { s with bc := s.bc + 1, rdData := some s.st } :=
  (rdEvent_serves hd (armsRestore_false_of_busy hst)).trans (congrArg _ (endTransaction_pending hp))

/-! ## The end of the busy window -/

/-- `i` is the next input, so the step runs it. -/
theorem step_of_delivers {s : State} {i : Instr} {rest : List Input} (h : s.delivers i rest) :
    step s = exec i { s with inputs := rest } := by
  rcases h with hin | ⟨w, hin, hdec⟩
  · exact step_of_op hin
  · exact step_of_word hin hdec

theorem processIsNext_delivers {s : State} (h : s.processIsNext = true) : ∃ rest, s.delivers .process rest := by
  unfold State.processIsNext at h
  split at h
  · cases h
  · next w rest hin =>
    cases of_decide_eq_true h
    exact ⟨rest, .inr ⟨_, hin, rfl⟩⟩
  · next i rest hin =>
    cases of_decide_eq_true h
    exact ⟨rest, .inl hin⟩
  · cases h

/-- The step that delivers the PROCESS takes the restore out of the queue (43_process_init.md R90). -/
theorem step_ends_pending {s : State} (h : s.Inv) (hp : s.pend = true) (hnext : s.processIsNext = true) :
    ∃ t, step s = .next t ∧ t.pend = false := by
  obtain ⟨rest, hdel⟩ := processIsNext_delivers hnext
  have hev := processEvent_pending (inputs_inv h rest) hp
  exact ⟨_, (step_of_delivers hdel).trans (exec_process_eq_next.2 hev), rfl⟩

theorem inv_run {k : Nat} {s t : State} (h : s.Inv) (hrun : Host.Core.run Sys2Proof.core k s = .next t) : t.Inv := by
  induction k generalizing s with
  | zero => cases hrun; exact h
  | succ k ih =>
    obtain ⟨u, hstep, hrest⟩ := run_succ_eq_next.1 hrun
    exact ih (stepKeepsInvariant s u h hstep) hrest

/-- A run goes on by one step. -/
theorem run_snoc {k : Nat} {s t u : State} (hrun : Host.Core.run Sys2Proof.core k s = .next t)
    (hstep : step t = .next u) : Host.Core.run Sys2Proof.core (k + 1) s = .next u := by
  induction k generalizing s with
  | zero => cases hrun; exact run_succ_eq_next.2 ⟨u, hstep, rfl⟩
  | succ k ih =>
    obtain ⟨v, hfirst, hrest⟩ := run_succ_eq_next.1 hrun
    exact run_succ_eq_next.2 ⟨v, hfirst, ih hrest⟩

/-- Settles O45: both events by the drain phase, and the duty at its first state leads to a PROCESS or to no restore. -/
theorem busyWindowSwallowsBytes : Obligations.BusyWindowSwallowsBytes := by
  refine ⟨fun s h hp => ⟨fun b => ?write, ?read, h.busy.1 hp⟩, fun s h hp hduty => ?ends⟩
  case write => exact exec_wrByte_eq_next.2 (wrEvent_busy (h.pendingDrain hp) (h.busy.1 hp) b)
  case read => exact exec_rdByte_eq_next.2 (rdEvent_busy (h.pendingDrain hp) (h.busy.1 hp) hp)
  case ends =>
    obtain ⟨m, u, hrun, hu⟩ := hduty 0 s rfl hp
    cases hpend : u.pend with
    | false => exact ⟨m, u, hrun, hpend⟩
    | true =>
      have hnext : u.processIsNext = true := hu.resolve_right (by simp [hpend])
      obtain ⟨t, hstep, ht⟩ := step_ends_pending (inv_run h hrun) hpend hnext
      exact ⟨m + 1, t, run_snoc hrun hstep, ht⟩

/-! ## A status read in the busy window -/

/-- The busy block `s` after `k` more bytes, at least one of them written, with `r` on `rd_data`. -/
def State.swallowed (s : State) (k : Nat) (r : Option Byte) : State :=
  { s with bc := s.bc + k, st := 0x28#8, rdData := r }

theorem wrEvent_swallowed {s : State} (h : s.Inv) (hp : s.pend = true) (k : Nat) (r : Option Byte) (b : Byte) :
    (s.swallowed k r).wrEvent b = .ok (s.swallowed (k + 1) none) :=
  wrEvent_busy (s := s.swallowed k r) (Nat.lt_add_right k (h.pendingDrain hp)) (.inr rfl) b

theorem rdEvent_swallowed {s : State} (h : s.Inv) (hp : s.pend = true) (k : Nat) (r : Option Byte) :
    (s.swallowed k r).rdEvent = .ok (s.swallowed (k + 1) (some 0x28#8)) :=
  rdEvent_busy (s := s.swallowed k r) (Nat.lt_add_right k (h.pendingDrain hp)) (.inr rfl) hp

theorem deliverWrites_swallowed {s : State} (h : s.Inv) (hp : s.pend = true) (k : Nat) (bs : List Byte) :
    (s.swallowed k none).deliverWrites bs [] = .ok (s.swallowed (k + bs.length) none) := by
  induction bs generalizing k with
  | nil => rfl
  | cons b bs ih =>
    rw [deliverWrites_cons, wrEvent_swallowed h hp, ok_bind, ih, List.length_cons, Nat.succ_add_eq_add_succ]

/-- Bytes written in the busy window, one or more. -/
theorem deliverWrites_pending {s : State} (h : s.Inv) (hp : s.pend = true) (b : Byte) (bs : List Byte) :
    s.deliverWrites (b :: bs) [] = .ok (s.swallowed (1 + bs.length) none) := by
  rw [deliverWrites_cons, wrEvent_busy (h.pendingDrain hp) (h.busy.1 hp), ok_bind]
  exact deliverWrites_swallowed h hp 1 bs

/-- A read whose checksum does not agree: one more byte is discarded, and the call returns `DC` (44_controller_peer.md
R95, log 14). -/
theorem exec_cRead_mismatch {s t u v w : State} {p : PeerHandle} {a n : U32} {buf ds : List Byte}
    (hwf : (Instr.cRead p a buf n).wellFormed = true) (hrel : s.reliable)
    (hw : s.deliverWrites (headerBytes n a) [] = .ok t) (hr : t.deliverReads n.toNat [] = .ok (ds, u))
    (hc : u.rdEvent = .ok v) (hsum : v.rdData.getD 0#8 ≠ crc8 ds (crc8 (headerBytes n a) 0#8))
    (hf : v.rdEvent = .ok w) : exec (.cRead p a buf n) s = .next { s.returned (s.transport.drop 4)
      0x10#8 w with ctlBuf := overwriteFront buf ds } := by
  have hrel2 := hrel.popCarriage.popCarriage
  have hcall := controllerRead_received (l := s.inputs) (buf := buf) p hrel.nextCarriage hrel.popCarriage.nextCarriage
    hw hr
  rw [readTail_checked (T := s.transport.tail.tail) p hrel2.nextCarriage hc, if_neg hsum,
    readBytes_done (T := s.transport.tail.tail.tail) p hrel2.popCarriage.nextCarriage
      (deliverReads_one.2 ⟨hf, rfl⟩)] at hcall
  have hdrop : s.transport.tail.tail.tail.tail = s.transport.drop 4 := by simp only [← List.drop_one, List.drop_drop]
  rw [hdrop] at hcall
  exact (exec_cRead_eq_next hwf).2 hcall

/-- The checksum that the controller expects after a status read of the byte `0x28`. -/
theorem busyStatus_checksum : crc8 [0x28#8] (crc8 (headerBytes 1#32 0#32) 0#8) = 0xA1#8 := by
  simp [headerBytes, le32, lane, crcStep, crcShifts, crcShift]

/-- Settles O46: the header is swallowed, each read emits `0x28`, and `0x28` is not the checksum of these bytes. -/
theorem statusPollWhileBusy : Obligations.StatusPollWhileBusy := by
  intro s p h hrel hp
  have hhead : s.deliverWrites (headerBytes 1#32 0#32) [] = .ok (s.swallowed 8 none) := deliverWrites_pending h hp _ _
  have hread : (s.swallowed 8 none).deliverReads (1#32).toNat [] = .ok ([0x28#8], s.swallowed 9 (some 0x28#8)) :=
    deliverReads_one.2 ⟨rdEvent_swallowed h hp 8 none, rfl⟩
  have hsum : 0x28#8 ≠ crc8 [0x28#8] (crc8 (headerBytes 1#32 0#32) 0#8) := by rw [busyStatus_checksum]; decide
  exact exec_cReadStatus_of_cRead (exec_cRead_mismatch rfl hrel hhead hread (rdEvent_swallowed h hp 9 _) hsum
    (rdEvent_swallowed h hp 10 _))

end Sys2Proof.Machine
end

section
/-! PROOF. The last byte of the region (70_reset_and_hazards.md R126): the statement O48. -/

namespace Sys2Proof.Machine

theorem phase_eq_data {bc : Nat} {len : U32} (h : phase bc len = .data) : 8 ≤ bc ∧ bc < 8 + len.toNat := by
  unfold phase at h
  split at h
  · cases h
  split at h
  · cases h
  split at h
  · omega
  split at h <;> cases h

/-- The header's bounds test leaves out the last byte of the region: `ADDR + LEN` itself lies in it (R76). -/
theorem State.Inv.dataBelowLast {s : State} (h : s.Inv) (h8 : 8 ≤ s.bc) (hd : s.bc < 8 + s.len.toNat)
    (hst : s.st &&& 0x1F#8 = 0#8) : effectiveAddress s.addr s.bc + 1 < s.cfg.memSize := by
  obtain ⟨-, hclear⟩ := clear_bbo_ird_of_anyErr (anyErr_false_iff.2 hst)
  have hend := h.boundsChecked (h.notPending (by omega)) h8 hclear
  simp only [transferEnd] at hend
  simp only [effectiveAddress, dataOffset]
  omega

/-- Settles O48: a WR_BYTE stores at an unflagged data position, a PROCESS in the range of a transfer that passed the
bounds test, and no other event writes. -/
theorem lastByteIsNeverReached : Obligations.LastByteIsNeverReached := by
  refine ⟨fun s h => h.dataBelowLast, fun s t i h hi ht => ?_⟩
  cases i with
  | wrByte b =>
    obtain ⟨-, -, -, -, -, -, hmem, -⟩ := writeByteFrame s t b h.memCanonical h.bkCanonical ht
    refine hmem _ fun ⟨hph, hst, hea⟩ => ?_
    obtain ⟨h8, hd⟩ := phase_eq_data hph
    have hbelow := h.dataBelowLast h8 hd hst
    omega
  | rdByte =>
    obtain ⟨-, hmem, -⟩ := rdEvent_outside (exec_rdByte_eq_next.1 ht)
    rw [hmem]
  | process =>
    cases hp : s.pend with
    | false =>
      cases (processEvent_idle hp).symm.trans (exec_process_eq_next.1 ht)
      rfl
    | true =>
      obtain ⟨-, -, hend, -⟩ := h.pending hp
      simp only [transferEnd] at hend
      obtain ⟨u, hu, -, hkept, -⟩ := processPerformsRestore.1 s h hp
      cases hu.symm.trans ht
      exact hkept _ (by omega)
  | init =>
    cases ht
    rfl
  | crc8Step | crc8 | cWrite | cRead | cReadStatus => cases hi

end Sys2Proof.Machine
end

section
/-! PROOF. A corrupted write with no backup buffer (70_reset_and_hazards.md R125): the statement O55. -/

namespace Sys2Proof.Machine

/-- Without a backup buffer nothing is armed, `DC` set or not (42_read_byte.md R87). -/
theorem armsRestore_false_of_unbacked {s : State} (hen : s.cfg.backupEn = false) : s.armsRestore = false := by
  rw [Bool.eq_false_iff, Ne, armsRestore_iff, hen]
  exact fun h => Bool.false_ne_true h.2.1

/-- Settles O55: the corrupted frame stores the payload, the last RD_BYTE returns `DC` and arms nothing, and PROCESS
finds nothing to do. -/
theorem corruptedWriteWithoutBackups : Obligations.CorruptedWriteWithoutBackups := by
  intro s p a data n h hq hrel hwf hen hf
  have hlen := payload_length hwf
  obtain ⟨mem, bk, hall, hframe⟩ :=
    deliverWrites_unflaggedFrame (s := s.popCarriage) true (popCarriage_inv h) hq hlen hf
  have hcall := exec_cWrite_reliable hwf hrel hframe
    (rdEvent_clears (Nat.add_lt_add_right (by decide) _) ⟨hq.2, armsRestore_false_of_unbacked hen⟩)
  obtain ⟨hstored, hkept, -, -, -⟩ := hall
  rw [hlen] at hstored hkept
  exact ⟨_, hcall, rfl, ⟨rfl, hq.2⟩, fun i hi => (hstored i hi).trans (payload_getD hi), hkept,
    _, exec_process_eq_next.2 (processEvent_idle hq.2), rfl⟩

end Sys2Proof.Machine
end
